-- ==== Sys2Proof/Word.lean ====
section
/-! DEFINITION. The words of the machine. Bit 0 is the least significant bit of any value (R6). -/

namespace Sys2Proof

/-- The byte, the unit of memory (R56). -/
abbrev Byte := BitVec 8

/-- A 64-bit word: general registers, masks and linear addresses (R5, R7, R11). -/
abbrev Word := BitVec 64

/-- A page-fault or exception error code. -/
abbrev ErrorCode := BitVec 32

end Sys2Proof
end

