-- ==== Sys2Proof/Config.lean ====
section
/-! DEFINITION. The configuration record CFG of R4 and the free values the spec leaves open.

CFG is a field of State (log 3): no value of it is hard-wired, a claim speaks of every configuration or names the
setting it needs. The free values are opaque: nothing in Lean evaluates them (log 40). -/

namespace Sys2Proof

/-- What a misaligned operand raises when alignment checking is enabled and CPL = 3 (R4, R128, U1). -/
inductive AcBehaviour where
  | gp
  | ac
  | either
  deriving DecidableEq, Repr

/-- Which mask XCOMP_BV[62:0] is tested against (R4, R130, C1, D4). -/
inductive XcompCheckMask where
  | xcr0OrXss
  | xcr0Only
  deriving DecidableEq, Repr

/-- What a fault leaves in the items XRSTORS may write (R4, R132, D6): `precise` is the spec's default, `perItem` is
the spec's setting "partial". -/
inductive FaultAtomicity where
  | precise
  | perItem
  deriving DecidableEq, Repr

/-- CFG.LOAD_FAULT (R4, R103, D23): `never` is the page's own reading (constantly false), `part` is a part that has
conditions of its own, which the spec does not give (`Config.loadFault`). -/
inductive LoadFaultRule where
  | never
  | part
  deriving DecidableEq, Repr

/-- The number of linear-address bits, which fixes what canonical means (R48, U9). -/
inductive LinearWidth where
  | bits48
  | bits57
  deriving DecidableEq, Repr

/-- What the configuration says of one state component i in 2..62 (R4, R22, R43, R97, R104). -/
structure CompCfg where
  /-- The component's number i. -/
  id : Nat
  /-- n(i), its size in bytes. -/
  size : Nat
  /-- ALIGN64(i). -/
  align64 : Bool
  /-- INIT(i), its initial configuration. -/
  init : List Byte
  /-- The (offset, length) ranges of its image that belong to registers 8 and above, which R104 leaves alone outside
  64-bit mode (log 30). -/
  upper : List (Nat × Nat)
  deriving DecidableEq, Repr

/-- The configuration record CFG (R4). -/
structure Cfg where
  /-- CPUID.01H:ECX.XSAVE[bit 26]. -/
  cpuidXsave : Bool
  /-- CPUID.(EAX=0DH,ECX=1):EAX.XSS[bit 3]. -/
  cpuidXss : Bool
  /-- SUPPORTED_USER: the bits XCR0 can ever hold as 1. -/
  supportedUser : Word
  /-- SUPPORTED_SUPER: the bits IA32_XSS can ever hold as 1. -/
  supportedSuper : Word
  /-- n(i), ALIGN64(i), INIT(i) of each supported component i in 2..62. -/
  comps : List CompCfg
  /-- MXCSR_MASK: the bits of MXCSR that are not reserved. -/
  mxcsrMask : BitVec 32
  /-- AC_BEHAVIOUR. -/
  acBehaviour : AcBehaviour
  /-- XCOMP_CHECK_MASK. -/
  xcompCheckMask : XcompCheckMask
  /-- LOAD_FAULT. -/
  loadFault : LoadFaultRule
  /-- FAULT_ATOMICITY. -/
  faultAtomicity : FaultAtomicity
  /-- The linear-address width inside SegCheck (U9). -/
  linearWidth : LinearWidth
  deriving DecidableEq, Repr

/-- CFG-T, the test configuration of spec/95_test_vectors.md section 0. DESIGN CHOICE: the configuration of
State.reset (log 3). The ranges of component 2 that belong to registers 8 and above are PRESUMED (log 30). -/
def Cfg.testConfig : Cfg where
  cpuidXsave := true
  cpuidXss := true
  supportedUser := 0x7
  supportedSuper := 0x100
  comps :=
    [ { id := 2, size := 256, align64 := false, init := List.replicate 256 0, upper := [(128, 128)] },
      { id := 8, size := 72, align64 := false, init := List.replicate 72 0, upper := [] } ]
  mxcsrMask := 0xFFFF
  acBehaviour := .gp
  xcompCheckMask := .xcr0OrXss
  loadFault := .never
  faultAtomicity := .precise
  linearWidth := .bits48

/-- A free 16-bit selector, numbered by the counter State.free: FCS and FDS after an x87 load with W = 1
(R94, U11; log 11). -/
opaque Config.freeSelector : Nat → BitVec 16

/-- A free choice between #GP and #AC with AC_BEHAVIOUR = either (R128, U1; log 17). -/
opaque Config.freeReportAc : Nat → Bool

/-- A free choice of one among several: which unreadable byte a page fault reports (R50; log 18). -/
opaque Config.freePick : Nat → Nat

/-- A free choice, per item, of the new value after a fault with FAULT_ATOMICITY = partial (R132, U12; log 23). -/
opaque Config.freeItemIsNew : Nat → Nat → Bool

/-- A free byte standing for an area byte that could not be read, used only to form the values a faulting
instruction "would have given" (R132; log 23). -/
opaque Config.freeByte : Nat → Nat → Byte

end Sys2Proof
end

