-- ==== Sys2Proof/Syntax.lean ====
section
/-! DEFINITION. The instructions of spec/opcode_table.json as syntax: one constructor per row (R60, R61).

An instruction keeps every byte of its encoding apart from the fixed ones, redundant prefixes included, because its
length L moves pc (R75, R100) and because encode must give the bytes back. -/

namespace Sys2Proof

/-- The segment registers (R24). -/
inductive SegReg where
  | es | cs | ss | ds | fs | gs
  deriving DecidableEq, Repr

/-- A prefix byte that may stand before 0F C7 /3 (R64). -/
inductive Prefix where
  /-- A segment override: 26 ES, 2E CS, 36 SS, 3E DS, 64 FS, 65 GS. -/
  | seg (r : SegReg)
  /-- 67, the address-size override (R70). -/
  | addrSize
  /-- F0, LOCK (R68). -/
  | lock
  /-- A byte 40..4F that another prefix follows, which is ignored (R64); `wrxb` is its low half. -/
  | rexIgnored (wrxb : BitVec 4)
  deriving DecidableEq, Repr

/-- The R, X and B bits of the REX byte that stands immediately before 0F (R66). W is not kept: it selects the
constructor of `Instr`. -/
structure Rex where
  r : Bool
  x : Bool
  b : Bool
  deriving DecidableEq, Repr

/-- The displacement of a 16-bit form: mod 00, 01 or 10 (R73). -/
inductive Disp16 where
  | none
  | d8 (v : BitVec 8)
  | d16 (v : BitVec 16)
  deriving DecidableEq, Repr

/-- The displacement of a 32- or 64-bit form: mod 00, 01 or 10 (R71). -/
inductive Disp where
  | none
  | d8 (v : BitVec 8)
  | d32 (v : BitVec 32)
  deriving DecidableEq, Repr

/-- The register sums of the 16-bit forms, in the order of rm 000..111 (R73). -/
inductive Base16 where
  | bxSi | bxDi | bpSi | bpDi | si | di | bp | bx
  deriving DecidableEq, Repr

/-- The memory operand named by ModRM, SIB and displacement (R62, R65, R71 to R73). Register fields are the three
bits of the encoding; REX.X and REX.B extend them when the operand is used. -/
inductive Mem where
  /-- A 16-bit form with registers. -/
  | addr16 (b : Base16) (d : Disp16)
  /-- The 16-bit form mod = 00, rm = 110: disp16 alone. -/
  | disp16 (v : BitVec 16)
  /-- mod 00, 01, 10 with rm not 100: one base register. -/
  | based (rm : BitVec 3) (d : Disp)
  /-- rm = 100: a SIB byte with a base register. -/
  | sib (scale : BitVec 2) (index : BitVec 3) (base : BitVec 3) (d : Disp)
  /-- rm = 100, mod = 00 and SIB.base = 101: no base register, disp32 (R72). -/
  | sibDisp32 (scale : BitVec 2) (index : BitVec 3) (v : BitVec 32)
  /-- mod = 00, rm = 101: RIP-relative in 64-bit mode, disp32 alone in the others (R71). -/
  | disp32 (v : BitVec 32)
  deriving DecidableEq, Repr

/-- The instructions: the two rows of spec/opcode_table.json. -/
inductive Instr where
  /-- `XRSTORS mem`, NP 0F C7 /3 (R60, R80): no REX byte, or one with W = 0. -/
  | xrstors (ps : List Prefix) (rex : Option Rex) (m : Mem)
  /-- `XRSTORS64 mem`, NP REX.W + 0F C7 /3 (R61, R81). -/
  | xrstors64 (ps : List Prefix) (rex : Rex) (m : Mem)
  deriving DecidableEq, Repr

/-- What of the machine's mode decoding depends on (R64, R70). -/
structure CodeCtx where
  /-- 64-bit mode. -/
  bits64 : Bool
  /-- Outside 64-bit mode: a 32-bit code segment (D = 1) in protected or compatibility mode. -/
  big : Bool
  deriving DecidableEq, Repr

/-- The address size of the operand (R70). -/
inductive AddrSize where
  | a16 | a32 | a64
  deriving DecidableEq, Repr

end Sys2Proof
end

