-- ==== Sys2Proof/Machine/Prefixes.lean ====
section
/-! DEFINITION. What the prefixes say, the address size and the length of an instruction (R64, R66, R70, R74, R75). -/

namespace Sys2Proof

/-- The instruction carries F0 (R68). -/
def hasLock (ps : List Prefix) : Bool := ps.contains .lock

/-- The instruction carries 67 (R70). -/
def hasAddrSize (ps : List Prefix) : Bool := ps.contains .addrSize

/-- The address size of the operand (R70). -/
def addrSizeOf (c : CodeCtx) (ps : List Prefix) : AddrSize :=
  if c.bits64 then (if hasAddrSize ps then .a32 else .a64)
  else if c.big != hasAddrSize ps then .a32 else .a16

/-- A segment override that counts: in 64-bit mode only FS and GS (R74; log 28). -/
def overrideOf (bits64 : Bool) : Prefix → Option SegReg
  | .seg .fs => some .fs
  | .seg .gs => some .gs
  | .seg r => if bits64 then none else some r
  | _ => none

/-- The last segment override that counts (R64, R74). -/
def segOverride (bits64 : Bool) (ps : List Prefix) : Option SegReg :=
  (ps.filterMap (overrideOf bits64)).getLast?

/-- Displacement bytes of a 16-bit form. -/
def Disp16.size : Disp16 → Nat
  | .none => 0
  | .d8 _ => 1
  | .d16 _ => 2

/-- Displacement bytes of a 32- or 64-bit form. -/
def Disp.size : Disp → Nat
  | .none => 0
  | .d8 _ => 1
  | .d32 _ => 4

/-- SIB and displacement bytes of an operand (R75). -/
def Mem.tailLength : Mem → Nat
  | .addr16 _ d => d.size
  | .disp16 _ => 2
  | .based _ d => d.size
  | .sib _ _ _ d => 1 + d.size
  | .sibDisp32 _ _ _ => 5
  | .disp32 _ => 4

/-- The prefixes, the REX bits that count (if a REX byte counts) and the operand. -/
def Instr.prefixes : Instr → List Prefix
  | .xrstors ps _ _ => ps
  | .xrstors64 ps _ _ => ps

def Instr.rex : Instr → Option Rex
  | .xrstors _ r _ => r
  | .xrstors64 _ r _ => some r

def Instr.mem : Instr → Mem
  | .xrstors _ _ m => m
  | .xrstors64 _ _ m => m

/-- REX.W: 1 for XRSTORS64, 0 for XRSTORS (R66). -/
def Instr.w : Instr → Bool
  | .xrstors _ _ _ => false
  | .xrstors64 _ _ _ => true

/-- L = prefix bytes, REX included, + 2 + 1 + SIB + displacement (R75). -/
def instrLength (ps : List Prefix) (rex : Option Rex) (m : Mem) : Nat :=
  ps.length + (if rex.isSome then 1 else 0) + 3 + m.tailLength

/-- The length of an instruction in bytes (R75). -/
def Instr.length (i : Instr) : Nat := instrLength i.prefixes i.rex i.mem

end Sys2Proof
end

