-- ==== Sys2Proof/WellFormed.lean ====
section
/-! DEFINITION. Which instruction terms an encoding exists for, in a given code context (R64 to R67, R70 to R75). -/

namespace Sys2Proof

/-- Outside 64-bit mode the bytes 40..4F are other instructions (R64): no REX byte, ignored or not. -/
def Prefix.isRexIgnored : Prefix → Bool
  | .rexIgnored _ => true
  | _ => false

def rexAllowed (c : CodeCtx) (ps : List Prefix) (rex : Option Rex) : Bool :=
  c.bits64 || (rex.isNone && !ps.any Prefix.isRexIgnored)

/-- A byte 40..4F is ignored only where another prefix follows it (R64): with no REX byte that counts, the last
prefix is no such byte. -/
def ignoredRexFollowed (ps : List Prefix) (rex : Option Rex) : Bool :=
  rex.isSome || !(ps.getLast?.any Prefix.isRexIgnored)

/-- The operand is one of the forms of its address size (R71, R72, R73). -/
def Mem.fitsSize : AddrSize → Mem → Bool
  | .a16, .addr16 _ _ => true
  | .a16, .disp16 _ => true
  | .a16, _ => false
  | _, .addr16 _ _ => false
  | _, .disp16 _ => false
  | _, _ => true

/-- The operand's register fields have an encoding of that form: rm = 100 announces a SIB byte, and mod = 00 with
rm = 110 (16-bit), rm = 101 or SIB.base = 101 is the form without the register (R71, R72, R73). -/
def Mem.fieldsOk : Mem → Bool
  | .addr16 b d => !(b == .bp && d == .none)
  | .disp16 _ => true
  | .based rm d => rm != 4 && !(rm == 5 && d == .none)
  | .sib _ _ base d => !(base == 5 && d == .none)
  | .sibDisp32 _ _ _ => true
  | .disp32 _ => true

/-- XRSTORS64 exists in 64-bit mode only: "V/N.E." (R3, R61). -/
def formExists (c : CodeCtx) : Instr → Bool
  | .xrstors _ _ _ => true
  | .xrstors64 _ _ _ => c.bits64

/-- The instruction has an encoding in the code context `c`. -/
def Instr.wellFormed (c : CodeCtx) (i : Instr) : Bool :=
  formExists c i && rexAllowed c i.prefixes i.rex && ignoredRexFollowed i.prefixes i.rex &&
    i.mem.fitsSize (addrSizeOf c i.prefixes) && i.mem.fieldsOk && decide (i.length ≤ 15)

end Sys2Proof
end

