-- ==== Sys2Proof/Decode.lean ====
section
/-! DEFINITION. The byte-level decoder (R63 to R79), total on any bytes, and after it the encoder. -/

namespace Sys2Proof

/-- Why bytes are not an instruction of the model. -/
inductive DecodeError where
  /-- The bytes end before the instruction does. -/
  | truncated
  /-- The instruction is longer than 15 bytes: #GP(0) (R64). -/
  | tooLong
  /-- 0F C7 /3 with mod = 11: no instruction is assigned, #UD (R67, D20). -/
  | registerForm
  /-- 0F C7 /3 with a prefix 66, F2 or F3: no instruction is assigned, #UD (R69, D20). -/
  | npViolated
  /-- "not XRSTORS: 0F C7 /n, n != 3" (R79). -/
  | notXrstorsReg (n : BitVec 3)
  /-- Another opcode: an instruction outside the scope of the spec, or none (R2, R79). -/
  | notXrstorsOpcode
  deriving DecidableEq, Repr

/-- Little-endian assembly of the displacement's bytes (R45, R76). -/
def le16 (b0 b1 : Byte) : BitVec 16 := b1 ++ b0

def le32 (b0 b1 b2 b3 : Byte) : BitVec 32 := b3 ++ b2 ++ b1 ++ b0

/-- What a byte is in front of the opcode (R64, R66, R69). -/
inductive ByteClass where
  | legacy (p : Prefix)
  | np
  | rex (wrxb : BitVec 4)
  | opcode
  deriving DecidableEq, Repr

/-- The class of a byte: 40..4F is a REX byte in 64-bit mode only (R64). -/
def classify (bits64 : Bool) (b : Byte) : ByteClass :=
  if b = 0x26 then .legacy (.seg .es)
  else if b = 0x2E then .legacy (.seg .cs)
  else if b = 0x36 then .legacy (.seg .ss)
  else if b = 0x3E then .legacy (.seg .ds)
  else if b = 0x64 then .legacy (.seg .fs)
  else if b = 0x65 then .legacy (.seg .gs)
  else if b = 0x67 then .legacy .addrSize
  else if b = 0xF0 then .legacy .lock
  else if b = 0x66 ∨ b = 0xF2 ∨ b = 0xF3 then .np
  else if bits64 = true ∧ b.extractLsb' 4 4 = 4 then .rex (b.extractLsb' 0 4)
  else .opcode

/-- The prefixes in front of the opcode: the legacy prefixes and ignored REX bytes in order, the WRXB bits of the
REX byte immediately before the opcode, whether 66, F2 or F3 stands among them, and the bytes from the opcode on. -/
structure Scan where
  ps : List Prefix
  rex : Option (BitVec 4)
  np : Bool
  rest : List Byte
  deriving DecidableEq, Repr

/-- Nothing stands before the opcode. -/
def Scan.bare (rest : List Byte) : Scan := ⟨[], none, false, rest⟩

/-- One more legacy prefix in front. -/
def Scan.addPrefix (p : Prefix) (r : Scan) : Scan := { r with ps := p :: r.ps }

/-- One more byte 66, F2 or F3 in front. -/
def Scan.addNp (r : Scan) : Scan := { r with np := true }

/-- One more REX byte in front: it counts only if nothing else stands between it and the opcode (R64). -/
def Scan.addRex (wrxb : BitVec 4) (r : Scan) : Scan :=
  if r.ps.isEmpty && r.rex.isNone && !r.np then { r with rex := some wrxb }
  else r.addPrefix (.rexIgnored wrxb)

/-- Reads the prefixes (R64). -/
def scanPrefixes (bits64 : Bool) : List Byte → Scan
  | [] => .bare []
  | b :: t =>
    match classify bits64 b with
    | .legacy p => (scanPrefixes bits64 t).addPrefix p
    | .np => (scanPrefixes bits64 t).addNp
    | .rex wrxb => (scanPrefixes bits64 t).addRex wrxb
    | .opcode => .bare (b :: t)

/-- ModRM.mod, ModRM.reg and ModRM.rm (R65), also scale, index and base of a SIB byte (R72). -/
def fieldHi (b : Byte) : BitVec 2 := b.extractLsb' 6 2
def fieldMid (b : Byte) : BitVec 3 := b.extractLsb' 3 3
def fieldLo (b : Byte) : BitVec 3 := b.extractLsb' 0 3

/-- The displacement of a 16-bit form by mod (R73). -/
def parseDisp16 (mod : BitVec 2) (t : List Byte) : Option (Disp16 × List Byte) :=
  if mod = 0 then some (.none, t)
  else if mod = 1 then
    match t with
    | b0 :: t => some (.d8 b0, t)
    | _ => none
  else
    match t with
    | b0 :: b1 :: t => some (.d16 (le16 b0 b1), t)
    | _ => none

/-- A disp32 (R71). -/
def parse32 (t : List Byte) : Option (BitVec 32 × List Byte) :=
  match t with
  | b0 :: b1 :: b2 :: b3 :: t => some (le32 b0 b1 b2 b3, t)
  | _ => none

/-- The displacement of a 32- or 64-bit form by mod (R71). -/
def parseDisp (mod : BitVec 2) (t : List Byte) : Option (Disp × List Byte) :=
  if mod = 0 then some (.none, t)
  else if mod = 1 then
    match t with
    | b0 :: t => some (.d8 b0, t)
    | _ => none
  else (parse32 t).map fun r => (.d32 r.1, r.2)

/-- The register sum of a 16-bit form by rm (R73). -/
def base16OfRm (rm : BitVec 3) : Base16 :=
  if rm = 0 then .bxSi else if rm = 1 then .bxDi else if rm = 2 then .bpSi else if rm = 3 then .bpDi
  else if rm = 4 then .si else if rm = 5 then .di else if rm = 6 then .bp else .bx

/-- The operand of a 16-bit form (R73). -/
def parseMem16 (mod : BitVec 2) (rm : BitVec 3) (t : List Byte) : Option (Mem × List Byte) :=
  if mod = 0 ∧ rm = 6 then
    match t with
    | b0 :: b1 :: t => some (.disp16 (le16 b0 b1), t)
    | _ => none
  else (parseDisp16 mod t).map fun r => (.addr16 (base16OfRm rm) r.1, r.2)

/-- The operand after a SIB byte (R72). -/
def parseSib (mod : BitVec 2) (sib : Byte) (t : List Byte) : Option (Mem × List Byte) :=
  if mod = 0 ∧ fieldLo sib = 5 then
    (parse32 t).map fun r => (.sibDisp32 (fieldHi sib) (fieldMid sib) r.1, r.2)
  else
    (parseDisp mod t).map fun r => (.sib (fieldHi sib) (fieldMid sib) (fieldLo sib) r.1, r.2)

/-- The operand of a 32- or 64-bit form (R71). -/
def parseMemWide (mod : BitVec 2) (rm : BitVec 3) (t : List Byte) : Option (Mem × List Byte) :=
  if rm = 4 then
    match t with
    | sib :: t => parseSib mod sib t
    | [] => none
  else if mod = 0 ∧ rm = 5 then (parse32 t).map fun r => (.disp32 r.1, r.2)
  else (parseDisp mod t).map fun r => (.based rm r.1, r.2)

/-- The operand by address size (R70). -/
def parseMem (a : AddrSize) (mod : BitVec 2) (rm : BitVec 3) (t : List Byte) : Option (Mem × List Byte) :=
  match a with
  | .a16 => parseMem16 mod rm t
  | .a32 => parseMemWide mod rm t
  | .a64 => parseMemWide mod rm t

/-- The bits of the REX byte (R66). -/
def rexBits (wrxb : BitVec 4) : Rex := ⟨wrxb.getLsbD 2, wrxb.getLsbD 1, wrxb.getLsbD 0⟩

/-- The instruction of the prefixes and the operand: REX.W selects the form (R66, R78). -/
def buildInstr (ps : List Prefix) (rex : Option (BitVec 4)) (m : Mem) : Instr :=
  match rex with
  | none => .xrstors ps none m
  | some wrxb => if wrxb.getLsbD 3 then .xrstors64 ps (rexBits wrxb) m else .xrstors ps (some (rexBits wrxb)) m

/-- From the opcode on (R78, R79). -/
def decodeOpcode (c : CodeCtx) (sc : Scan) : Except DecodeError (Instr × List Byte) :=
  match sc.rest with
  | [] => .error .truncated
  | o1 :: t1 =>
    if o1 ≠ 0x0F then .error .notXrstorsOpcode
    else match t1 with
    | [] => .error .truncated
    | o2 :: t2 =>
      if o2 ≠ 0xC7 then .error .notXrstorsOpcode
      else match t2 with
      | [] => .error .truncated
      | m :: t3 =>
        if fieldMid m ≠ 3 then .error (.notXrstorsReg (fieldMid m))
        else if sc.np then .error .npViolated
        else if fieldHi m = 3 then .error .registerForm
        else match parseMem (addrSizeOf c sc.ps) (fieldHi m) (fieldLo m) t3 with
          | none => .error .truncated
          | some (mem, t4) => .ok (buildInstr sc.ps sc.rex mem, t4)

/-- The longest instruction (R64). -/
def maxLength : Nat := 15

/-- The instruction at the start of `bytes` and the bytes after it. Only the first 15 bytes are looked at: an
instruction that does not end within them is too long (R64). -/
def decode (c : CodeCtx) (bytes : List Byte) : Except DecodeError (Instr × List Byte) :=
  match decodeOpcode c (scanPrefixes c.bits64 (bytes.take maxLength)) with
  | .ok (i, _) => .ok (i, bytes.drop i.length)
  | .error .truncated => if maxLength ≤ bytes.length then .error .tooLong else .error .truncated
  | .error e => .error e

/-! ### The encoder -/

/-- The byte of a prefix (R64). -/
def encodePrefix : Prefix → Byte
  | .seg .es => 0x26
  | .seg .cs => 0x2E
  | .seg .ss => 0x36
  | .seg .ds => 0x3E
  | .seg .fs => 0x64
  | .seg .gs => 0x65
  | .addrSize => 0x67
  | .lock => 0xF0
  | .rexIgnored wrxb => (4 : BitVec 4) ++ wrxb

/-- The REX byte 0100WRXB (R66). -/
def encodeRex (w : Bool) (r : Rex) : Byte :=
  (4 : BitVec 4) ++ (BitVec.ofBool w ++ BitVec.ofBool r.r ++ BitVec.ofBool r.x ++ BitVec.ofBool r.b)

/-- A byte of a 2-bit and two 3-bit fields: ModRM and SIB (R65, R72). -/
def byte233 (hi : BitVec 2) (mid lo : BitVec 3) : Byte := hi ++ mid ++ lo

/-- The ModRM byte with reg = 011 (R65). -/
def modRm (mod : BitVec 2) (rm : BitVec 3) : Byte := byte233 mod 3 rm

/-- The bytes of a 16- or 32-bit displacement, lowest first (R45). -/
def bytes16 (v : BitVec 16) : List Byte := [v.extractLsb' 0 8, v.extractLsb' 8 8]

def bytes32 (v : BitVec 32) : List Byte :=
  [v.extractLsb' 0 8, v.extractLsb' 8 8, v.extractLsb' 16 8, v.extractLsb' 24 8]

/-- mod by displacement. -/
def Disp16.mod : Disp16 → BitVec 2
  | .none => 0
  | .d8 _ => 1
  | .d16 _ => 2

def Disp.mod : Disp → BitVec 2
  | .none => 0
  | .d8 _ => 1
  | .d32 _ => 2

def Disp16.bytes : Disp16 → List Byte
  | .none => []
  | .d8 v => [v]
  | .d16 v => bytes16 v

def Disp.bytes : Disp → List Byte
  | .none => []
  | .d8 v => [v]
  | .d32 v => bytes32 v

/-- rm of a 16-bit register sum (R73). -/
def Base16.rm : Base16 → BitVec 3
  | .bxSi => 0
  | .bxDi => 1
  | .bpSi => 2
  | .bpDi => 3
  | .si => 4
  | .di => 5
  | .bp => 6
  | .bx => 7

/-- ModRM, SIB and displacement bytes of an operand (R71, R72, R73). -/
def encodeMem : Mem → List Byte
  | .addr16 b d => modRm d.mod b.rm :: d.bytes
  | .disp16 v => modRm 0 6 :: bytes16 v
  | .based rm d => modRm d.mod rm :: d.bytes
  | .sib scale index base d => modRm d.mod 4 :: byte233 scale index base :: d.bytes
  | .sibDisp32 scale index v => modRm 0 4 :: byte233 scale index 5 :: bytes32 v
  | .disp32 v => modRm 0 5 :: bytes32 v

/-- The REX byte of an instruction, if it has one. -/
def Instr.rexBytes (i : Instr) : List Byte := (i.rex.map (encodeRex i.w)).toList

/-- The bytes of an instruction in ascending address order (R64). -/
def encode (i : Instr) : List Byte :=
  i.prefixes.map encodePrefix ++ i.rexBytes ++ [0x0F, 0xC7] ++ encodeMem i.mem

/-! ### The table's numbering -/

/-- `n` bytes of the number `w`, the most significant first: spec/opcode_table.json writes opcode1 as the most
significant byte of its pattern (R78; log 34). -/
def tableBytes : Nat → Nat → List Byte
  | 0, _ => []
  | n + 1, w => BitVec.ofNat 8 (w / 256 ^ n) :: tableBytes n w

/-- The bytes of a table word as they stand in memory: the table's bytes in ascending address order, then zeros up
to the longest instruction. -/
def tableWindow (nbits w : Nat) : List Byte :=
  (tableBytes (nbits / 8) w ++ List.replicate maxLength 0).take maxLength

/-- The code context after reset: real-address mode (R34), 16-bit code. -/
def ctxReal : CodeCtx := ⟨false, false⟩

/-- The code context of 64-bit mode. -/
def ctx64 : CodeCtx := ⟨true, false⟩

/-- The instruction the decoder reads from a table word: in the code context after reset, or in 64-bit mode where
the bytes are no instruction there (a REX byte exists in 64-bit mode only; log 34). -/
def decodeTableWord (nbits w : Nat) : Option Instr :=
  match decode ctxReal (tableWindow nbits w) with
  | .ok (i, _) => some i
  | .error _ =>
    match decode ctx64 (tableWindow nbits w) with
    | .ok (i, _) => some i
    | .error _ => none

end Sys2Proof
end

