-- ==== Sys2Proof/Machine/State.lean ====
section
/-! DEFINITION. The state as the spec gives it (10_state.md R10 to R33), as plain data; why a step can stop; the
machine after reset. INVENTORY.md lists every field with its rule and reset value. -/

namespace Sys2Proof.Machine

/-- The five operating modes (R19), carried as one enumerated field. -/
inductive Mode where
  | real
  | protectedMode
  | virtual8086
  | compatibility
  | bits64
  deriving DecidableEq, Repr

/-- A segment register with what the checks read of its descriptor (R24, R48, R70). -/
structure Segment where
  selector : BitVec 16
  base : Word
  limit : BitVec 32
  /-- The segment may be read (R48). -/
  readable : Bool
  /-- An expand-down data segment (R48, N29; log 19). -/
  expandDown : Bool
  /-- The D/B bit: of CS the default size (R70), of an expand-down segment its upper bound (log 19). -/
  big : Bool
  deriving DecidableEq, Repr

/-- The segment registers (R24). -/
structure Segments where
  es : Segment
  cs : Segment
  ss : Segment
  ds : Segment
  fs : Segment
  gs : Segment
  deriving DecidableEq, Repr

/-- Component 0, x87 state (R26). The data registers are held by physical number: ST(j) is physical register
(TOP + j) mod 8 (R94), and MMj is the low half of physical register j whatever TOP is, which is PRESUMED (log 41). -/
structure X87 where
  fcw : BitVec 16
  fsw : BitVec 16
  ftw : BitVec 16
  fop : BitVec 11
  fip : BitVec 64
  fcs : BitVec 16
  fdp : BitVec 64
  fds : BitVec 16
  fpr : Vector (BitVec 80) 8
  deriving DecidableEq, Repr

/-- Component 1, SSE state: the XMM registers and MXCSR (R27). -/
structure Sse where
  xmm : Vector (BitVec 128) 16
  mxcsr : BitVec 32
  deriving DecidableEq, Repr

/-- XRSTOR_INFO, the internal 4-tuple (R32). -/
structure XrstorInfo where
  cpl : BitVec 2
  vmxnr : Bool
  laxa : Word
  compmask : Word
  deriving DecidableEq, Repr

/-- What a linear range translates to for one kind of access (R49, log 21). -/
inductive PageOutcome where
  /-- The range's first byte lies at this physical address, the others follow. -/
  | mapped (phys : Nat)
  /-- PageFault(code). -/
  | fault (code : ErrorCode)
  deriving DecidableEq, Repr

/-- One linear range of Translate(la, read, supervisor) (R49, log 21). -/
structure PageRange where
  base : Nat
  size : Nat
  supervisor : PageOutcome
  user : PageOutcome
  deriving DecidableEq, Repr

/-- Memory: (physical address, byte) pairs, addresses strictly rising, no pair holding what an unlisted address
reads as (log 6). -/
abbrev Memory := List Host.Cell

/-- The state of one logical processor and its memory. -/
structure State where
  /-- The general registers, numbered 0..15 = RAX, RCX, RDX, RBX, RSP, RBP, RSI, RDI, R8..R15 (R11). -/
  gpr : Vector Word 16
  /-- RIP; EIP and IP are its low halves (R12). -/
  rip : Word
  /-- RFLAGS; EFLAGS is its low half (R13). -/
  rflags : Word
  /-- CR0 (R16). -/
  cr0 : Word
  /-- CR4 (R17). -/
  cr4 : Word
  /-- XCR0 (R14). -/
  xcr0 : Word
  /-- IA32_XSS (R15). -/
  ia32Xss : Word
  /-- The CPL of protected, compatibility and 64-bit mode; `cplOf` gives the one that holds (R18; log 32). -/
  cpl : BitVec 2
  /-- The operating mode (R19). -/
  mode : Mode
  /-- in_vmx_non_root (R20). -/
  inVmxNonRoot : Bool
  /-- Some debug register is armed (R140). -/
  debugArmed : Bool
  /-- The segment registers (R24). -/
  segs : Segments
  /-- SC[0] (R26). -/
  x87 : X87
  /-- SC[1] (R27). -/
  sse : Sse
  /-- SC[2]..SC[62] as byte strings, at index i; a component that is not supported has the empty string (R25,
  R29). Indices 0 and 1 are not used. -/
  ext : Vector (List Byte) 63
  /-- XINUSE (R30, D24). -/
  xinuse : Word
  /-- XMODIFIED_BV (R31). -/
  xmodifiedBv : Word
  /-- XRSTOR_INFO (R32). -/
  xrstorInfo : XrstorInfo
  /-- Memory by physical address (R33, R56). -/
  mem : Memory
  /-- The address translation (R49, log 21). -/
  pages : List PageRange
  /-- The physical (base, size) ranges that are memory-mapped I/O (R50, log 22). -/
  ioRanges : List (Nat × Nat)
  /-- The configuration CFG, constant during a run (R4, log 3). -/
  cfg : Cfg
  /-- The model's own: how many free values have been drawn (log 40). -/
  free : Nat
  deriving DecidableEq, Repr

/-- The exceptions XRSTORS can raise (R120). -/
inductive ExcVector where
  | ud | nm | ss | gp | pf | ac
  deriving DecidableEq, Repr

/-- The record of a raised exception: vector, error code or none, the pc of the instruction, and for #PF the
faulting linear address (R132). -/
structure ExcRecord where
  vector : ExcVector
  errorCode : Option ErrorCode
  pc : Word
  address : Option Word
  deriving DecidableEq, Repr

/-- Why the machine stops with a fault. -/
inductive Fault where
  /-- Raised by a meaning or by the fetch when a condition of R121 to R130 holds. A raised exception is a terminal
  outcome of the step (R133, D11), carrying its record and the state it leaves (R132). Safe: a claim about a
  completing run says nothing of it. -/
  | exception (r : ExcRecord) (left : State)
  deriving DecidableEq, Repr

/-- Why the model gives a step no meaning. All are safe: no claim about a next state covers such a step. -/
inductive Refusal where
  /-- Raised by an arm of exec for an instruction without a meaning; no arm uses it now. Safe. -/
  | notModelled (mnemonic : String)
  /-- Raised by the meanings in VMX non-root operation (R82 step 0, R139, D19). Safe. -/
  | vmxNonRoot
  /-- Raised by the meanings with debug registers armed or EFLAGS.TF = 1 (R140). Safe. -/
  | debugArmed
  /-- Raised by the meanings where XCR0 or IA32_XSS breaks the launch premise (D25, U6). Safe. -/
  | xcrPremise
  /-- Raised by the meanings where the base of the operand's segment is no multiple of 64 (R46, D7; log 16). Safe. -/
  | segmentBase
  /-- Raised by the meanings and the fetch where a byte lies in memory-mapped I/O (R50, D9). Safe. -/
  | deviceMemory
  /-- Raised by the meanings for a term that has no encoding in the present mode (R3, R64: "N.E."); step never
  gives them one. Safe. -/
  | notEncodable
  /-- Raised by the fetch where the instruction's bytes cross the top of the address space or the code-segment
  limit (R12, D13). Safe. -/
  | fetchOutsideCode
  /-- Raised by the fetch where the bytes are no XRSTORS: the decoder's own word says which (R79). Safe. -/
  | notXrstors (why : DecodeError)
  deriving DecidableEq, Repr

/-- A segment register after reset: PRESUMED, the family's (log 4). -/
def Segment.afterReset : Segment :=
  { selector := 0, base := 0, limit := 0xFFFF, readable := true, expandDown := false, big := false }

/-- x87 state after power-up: PRESUMED, R34's general-knowledge row (log 4). -/
def X87.afterReset : X87 :=
  { fcw := 0x0040, fsw := 0, ftw := 0x5555, fop := 0, fip := 0, fcs := 0, fdp := 0, fds := 0,
    fpr := Vector.replicate 8 0 }

/-- SC[i] after reset: n(i) bytes of 00H, DESIGN CHOICE (log 5). -/
def extAfterReset (c : Cfg) : Vector (List Byte) 63 :=
  c.comps.foldl (fun v d => v.setIfInBounds d.id (List.replicate d.size 0)) (Vector.replicate 63 [])

/-- The machine right after reset: R34's table, with the DESIGN CHOICE values of log 5 where it gives none. -/
def State.reset : State where
  gpr := Vector.replicate 16 0
  rip := 0xFFF0
  rflags := 0x2
  cr0 := 0x60000010
  cr4 := 0
  xcr0 := 1
  ia32Xss := 0
  cpl := 0
  mode := .real
  inVmxNonRoot := false
  debugArmed := false
  segs :=
    { es := .afterReset
      cs := { Segment.afterReset with selector := 0xF000, base := 0xFFFF0000 }
      ss := .afterReset
      ds := .afterReset
      fs := .afterReset
      gs := .afterReset }
  x87 := .afterReset
  sse := { xmm := Vector.replicate 16 0, mxcsr := 0x1F80 }
  ext := extAfterReset .testConfig
  xinuse := 0
  xmodifiedBv := 0
  xrstorInfo := { cpl := 0, vmxnr := false, laxa := 0, compmask := 0 }
  mem := []
  pages := []
  ioRanges := []
  cfg := .testConfig
  free := 0

end Sys2Proof.Machine

namespace Sys2Proof

/-- CFG.LOAD_FAULT(i, bytes, state) of a part that has conditions of its own: opaque, the spec gives none (R103, U15;
log 31). -/
opaque Config.loadFault : Nat → List Byte → Machine.State → Bool

end Sys2Proof
end

