-- ==== Sys2Proof/Machine/Flags.lean ====
section
/-! DEFINITION. The single bits the instruction reads, the mode's privilege level and code context, and the x87 tag
word. XRSTORS computes no flag: "Flags Affected: None." (R13, R99). -/

namespace Sys2Proof.Machine

/-- CR0.TS, bit 3 (R16). -/
def cr0Ts (s : State) : Bool := s.cr0.getLsbD 3

/-- CR0.AM, bit 18 (R23). -/
def cr0Am (s : State) : Bool := s.cr0.getLsbD 18

/-- CR0.PG, bit 31 (R16). -/
def cr0Pg (s : State) : Bool := s.cr0.getLsbD 31

/-- CR4.OSXSAVE, bit 18 (R17). -/
def cr4Osxsave (s : State) : Bool := s.cr4.getLsbD 18

/-- EFLAGS.AC, bit 18 (R23). -/
def eflagsAc (s : State) : Bool := s.rflags.getLsbD 18

/-- EFLAGS.TF, single-stepping (R140); bit 8 is PRESUMED, the family's place (log 26). -/
def eflagsTf (s : State) : Bool := s.rflags.getLsbD 8

/-- The privilege level that holds: 0 in real-address mode, 3 in virtual-8086 mode, else the CPL field (R18). -/
def cplOf (s : State) : BitVec 2 :=
  match s.mode with
  | .real => 0
  | .virtual8086 => 3
  | _ => s.cpl

/-- ac_enabled := CR0.AM = 1 AND EFLAGS.AC = 1 AND CPL = 3 (R23). -/
def acEnabled (s : State) : Bool := cr0Am s && eflagsAc s && cplOf s == 3

/-- The code context decoding depends on (R64, R70). -/
def codeCtx (s : State) : CodeCtx where
  bits64 := s.mode == .bits64
  big :=
    match s.mode with
    | .protectedMode => s.segs.cs.big
    | .compatibility => s.segs.cs.big
    | _ => false

/-- The stack-top field TOP of a status word, bits 13:11 (R26). -/
def topOf (fsw : BitVec 16) : BitVec 3 := fsw.extractLsb' 11 3

/-- The tag of a data register that is not empty: 00 valid, 01 zero, 10 special (R94). The classes themselves are
PRESUMED, the family's (log 12): zero is exponent and significand 0, special is exponent 0 or 7FFFH or the integer
bit 0, all else is valid. -/
def classTag (v : BitVec 80) : BitVec 2 :=
  let exponent := v.extractLsb' 64 15
  let significand := v.extractLsb' 0 64
  if exponent = 0 ∧ significand = 0 then 1
  else if exponent = 0 ∨ exponent = 0x7FFF ∨ significand.getLsbD 63 = false then 2
  else 0

/-- The tag of physical register p from the abridged byte and its content (R94). -/
def tagFrom (abridged : Byte) (content : Nat → BitVec 80) (p : Nat) : BitVec 2 :=
  if abridged.getLsbD p then classTag (content p) else 3

/-- The 16-bit tag word: bit pair p is the tag of physical register p (R26). -/
def tagWord (tag : Nat → BitVec 2) : BitVec 16 :=
  tag 7 ++ tag 6 ++ tag 5 ++ tag 4 ++ tag 3 ++ tag 2 ++ tag 1 ++ tag 0

end Sys2Proof.Machine
end

