-- ==== Sys2Proof/Machine/Operands.lean ====
section
/-! DEFINITION. Register views, the instruction pointer, and the operand's segment, effective address and linear
address (R10 to R12, R48, R70 to R74). -/

namespace Sys2Proof.Machine

/-- General register k at 64 bits (R11). -/
def gprOf (s : State) (k : BitVec 4) : Word := s.gpr[k.toNat]'(k.isLt)

/-- EAX and EDX: the low halves of RAX and RDX (R10, R11). -/
def eaxOf (s : State) : BitVec 32 := (gprOf s 0).setWidth 32
def edxOf (s : State) : BitVec 32 := (gprOf s 2).setWidth 32

/-- EDX:EAX, the 64-bit instruction mask (R6, R10). -/
def instrMask (s : State) : Word := edxOf s ++ eaxOf s

/-- XMMj (R27). -/
def xmmOf (s : State) (j : Fin 16) : BitVec 128 := s.sse.xmm[j]

/-- Physical x87 register p (R26). -/
def fprOf (s : State) (p : Fin 8) : BitVec 80 := s.x87.fpr[p]

/-- ST(j): physical register (TOP + j) mod 8 (R94). -/
def stOf (s : State) (j : Nat) : BitVec 80 :=
  s.x87.fpr[((topOf s.x87.fsw).toNat + j) % 8]'(Nat.mod_lt _ (by decide))

/-- MMj: the low 64 bits of physical register j, whatever TOP is. R26 aliases ST0..ST7 with MM0..MM7 and R44 calls the
slot of ST(j) MMj's image; which physical register MMj is where TOP != 0 the spec leaves open, and the family's answer
is PRESUMED (log 41). -/
def mmOf (s : State) (j : Fin 8) : Word := (fprOf s j).setWidth 64

/-- SC[i] for i in 2..62, the component's byte string (R25). -/
def scOf (s : State) (i : Nat) : List Byte := (s.ext[i]?).getD []

/-- A segment register (R24). -/
def segOf (s : State) : SegReg → Segment
  | .es => s.segs.es
  | .cs => s.segs.cs
  | .ss => s.segs.ss
  | .ds => s.segs.ds
  | .fs => s.segs.fs
  | .gs => s.segs.gs

/-! ### The instruction pointer -/

/-- The width of the instruction pointer: RIP, EIP or IP (R12). -/
def ipWidth (s : State) : Nat :=
  match s.mode with
  | .bits64 => 64
  | .real => 16
  | .virtual8086 => 32
  | .protectedMode => if s.segs.cs.big then 32 else 16
  | .compatibility => if s.segs.cs.big then 32 else 16

/-- A value cut to the low `w` bits. -/
def lowBits (w : Nat) (v : Word) : Word := BitVec.ofNat 64 (v.toNat % 2 ^ w)

/-- pc: the instruction pointer at its width (R12). -/
def pcOf (s : State) : Word := lowBits (ipWidth s) s.rip

/-- pc + L at the instruction pointer's width (R12, R100). -/
def nextPc (s : State) (length : Nat) : Word := lowBits (ipWidth s) (pcOf s + BitVec.ofNat 64 length)

/-! ### Effective address -/

/-- The register named by a REX bit and three bits (R66, R71). -/
def regNumber (high : Bool) (low : BitVec 3) : BitVec 4 := BitVec.ofBool high ++ low

/-- REX.X and REX.B; 0 without REX (R66, R71). -/
def rexX (rex : Option Rex) : Bool := rex.any Rex.x
def rexB (rex : Option Rex) : Bool := rex.any Rex.b

/-- The register sum of a 16-bit form (R73); only its low 16 bits are used. -/
def base16Sum (s : State) : Base16 → Word
  | .bxSi => gprOf s 3 + gprOf s 6
  | .bxDi => gprOf s 3 + gprOf s 7
  | .bpSi => gprOf s 5 + gprOf s 6
  | .bpDi => gprOf s 5 + gprOf s 7
  | .si => gprOf s 6
  | .di => gprOf s 7
  | .bp => gprOf s 5
  | .bx => gprOf s 3

/-- The displacement, sign-extended; modulo 2^16 the sign extension of a disp16 changes nothing (R73). -/
def disp16Value : Disp16 → Word
  | .none => 0
  | .d8 v => v.signExtend 64
  | .d16 v => v.signExtend 64

def dispValue : Disp → Word
  | .none => 0
  | .d8 v => v.signExtend 64
  | .d32 v => v.signExtend 64

/-- Index * 2^scale; no index where X:index = 0100 (R72). -/
def scaledIndex (s : State) (rex : Option Rex) (scale : BitVec 2) (index : BitVec 3) : Word :=
  if regNumber (rexX rex) index = 4 then 0
  else gprOf s (regNumber (rexX rex) index) <<< scale.toNat

/-- The sum of the form, before it is taken modulo 2^A (R71, R72, R73). `next` is the address of the byte after the
instruction. -/
def addressSum (s : State) (rex : Option Rex) (next : Word) : Mem → Word
  | .addr16 b d => base16Sum s b + disp16Value d
  | .disp16 v => v.signExtend 64
  | .based rm d => gprOf s (regNumber (rexB rex) rm) + dispValue d
  | .sib scale index base d =>
      gprOf s (regNumber (rexB rex) base) + scaledIndex s rex scale index + dispValue d
  | .sibDisp32 scale index v => v.signExtend 64 + scaledIndex s rex scale index
  | .disp32 v => if s.mode = .bits64 then next + v.signExtend 64 else v.signExtend 64

/-- A, the address size in bits (R71). -/
def addrBits : AddrSize → Nat
  | .a16 => 16
  | .a32 => 32
  | .a64 => 64

/-- EA: the sum modulo 2^A (R71, R73), zero-extended (R70). -/
def effectiveAddress (s : State) (ps : List Prefix) (rex : Option Rex) (m : Mem) : Word :=
  lowBits (addrBits (addrSizeOf (codeCtx s) ps)) (addressSum s rex (nextPc s (instrLength ps rex m)) m)

/-! ### Segment and linear address -/

/-- The default segment: SS where the base register is rSP or rBP, DS otherwise (R74). -/
def defaultSeg (rex : Option Rex) : Mem → SegReg
  | .addr16 .bpSi _ => .ss
  | .addr16 .bpDi _ => .ss
  | .addr16 .bp _ => .ss
  | .addr16 _ _ => .ds
  | .disp16 _ => .ds
  | .based rm _ => if regNumber (rexB rex) rm = 4 ∨ regNumber (rexB rex) rm = 5 then .ss else .ds
  | .sib _ _ base _ => if regNumber (rexB rex) base = 4 ∨ regNumber (rexB rex) base = 5 then .ss else .ds
  | .sibDisp32 _ _ _ => .ds
  | .disp32 _ => .ds

/-- The operand's segment: the override that counts, else the default (R74). -/
def operandSeg (s : State) (ps : List Prefix) (rex : Option Rex) (m : Mem) : SegReg :=
  (segOverride (s.mode == .bits64) ps).getD (defaultSeg rex m)

/-- The segment base: in 64-bit mode 0 for CS, DS, ES and SS (R48). -/
def segBase (s : State) (r : SegReg) : Word :=
  if s.mode = .bits64 then
    match r with
    | .fs => s.segs.fs.base
    | .gs => s.segs.gs.base
    | _ => 0
  else (segOf s r).base

/-- Linear addresses are 64 bits wide in 64-bit mode and 32 bits otherwise (R32, R48). -/
def linearWrap (s : State) (a : Word) : Word := if s.mode = .bits64 then a else lowBits 32 a

/-- LAXA, the linear address of the operand's first byte (R48). -/
def linearAddress (s : State) (r : SegReg) (ea : Word) : Word := linearWrap s (segBase s r + ea)

/-- The linear address of the byte `k` after `la` (log 35). -/
def linearAt (s : State) (la : Word) (k : Nat) : Word := linearWrap s (la + BitVec.ofNat 64 k)

/-- What the shared procedure needs of an instruction: (seg, EA), LAXA, L and whether it has a LOCK prefix (R82). -/
structure Operand where
  seg : SegReg
  ea : Word
  laxa : Word
  length : Nat
  lock : Bool
  deriving DecidableEq, Repr

/-- Step 6 of R82: the operand of an instruction. -/
def operandOf (s : State) (ps : List Prefix) (rex : Option Rex) (m : Mem) : Operand where
  seg := operandSeg s ps rex m
  ea := effectiveAddress s ps rex m
  laxa := linearAddress s (operandSeg s ps rex m) (effectiveAddress s ps rex m)
  length := instrLength ps rex m
  lock := hasLock ps

end Sys2Proof.Machine
end

