-- ==== Sys2Proof/Machine/Ops.lean ====
section
/-! DEFINITION. The named operations: memory, translation, the operand's range checks, raising an exception, the
masks, the walk over the compacted area, and loading or initializing each kind of state component. -/

namespace Sys2Proof.Machine

/-! ### Memory by physical address -/

/-- What an unlisted byte reads as: DESIGN CHOICE, the spec leaves memory after reset unspecified (R34; log 6). -/
def unlistedByte : Byte := 0

/-- Reads one byte of physical memory. -/
def Memory.read : Memory → Nat → Byte
  | [], _ => unlistedByte
  | (a', b) :: t, a => if a = a' then b else Memory.read t a

/-- Puts a cell in front, or nothing where it would hold what an unlisted byte reads as. -/
def Memory.cons (a : Nat) (b : Byte) (t : Memory) : Memory :=
  if b = unlistedByte then t else (a, b) :: t

/-- Writes one byte of physical memory, keeping the canonical form. -/
def Memory.write : Memory → Nat → Byte → Memory
  | [], a, b => Memory.cons a b []
  | (a', b') :: t, a, b =>
    if a < a' then Memory.cons a b ((a', b') :: t)
    else if a = a' then Memory.cons a b t
    else (a', b') :: Memory.write t a b

/-- Writes the bytes of a list at ascending addresses from `a`. -/
def Memory.writeBytes : Memory → Nat → List Byte → Memory
  | m, _, [] => m
  | m, a, b :: t => Memory.writeBytes (Memory.write m a b) (a + 1) t

/-- The canonical form: addresses strictly rising, no cell holding what an unlisted byte reads as. -/
def Memory.wf : Memory → Bool
  | [] => true
  | (a, b) :: t => b != unlistedByte && t.all (fun c => decide (a < c.1)) && Memory.wf t

/-! ### Translation -/

/-- The answer of Translate(la, read, supervisor) (R49). -/
inductive Translation where
  | phys (p : Nat)
  | fault (code : ErrorCode)
  deriving DecidableEq, Repr

/-- Paging applies outside real-address mode: always in compatibility and 64-bit mode, and where CR0.PG = 1 (R16,
R49; log 21). -/
def pagingApplies (s : State) : Bool :=
  match s.mode with
  | .real => false
  | .compatibility => true
  | .bits64 => true
  | _ => cr0Pg s

/-- The linear range covers the address. -/
def PageRange.covers (r : PageRange) (la : Nat) : Bool := decide (r.base ≤ la ∧ la < r.base + r.size)

/-- Translate(la, read, supervisor): the first range that covers the address, the identity where none does
(R49, D21; log 21). -/
def translate (s : State) (la : Word) (supervisor : Bool) : Translation :=
  if pagingApplies s then
    match s.pages.find? (fun r => r.covers la.toNat) with
    | none => .phys la.toNat
    | some r =>
      match (if supervisor then r.supervisor else r.user) with
      | .mapped p => .phys (p + (la.toNat - r.base))
      | .fault code => .fault code
  else .phys la.toNat

/-- The physical address lies in memory-mapped I/O (R50; log 22). -/
def isIo (s : State) (p : Nat) : Bool := s.ioRanges.any fun r => decide (r.1 ≤ p ∧ p < r.1 + r.2)

/-- What reading one byte at a linear address gives. -/
inductive ByteRead where
  | byte (b : Byte)
  | pageFault (code : ErrorCode)
  | device
  deriving DecidableEq, Repr

/-- Reads the byte at a linear address. -/
def readLinear (s : State) (la : Word) (supervisor : Bool) : ByteRead :=
  match translate s la supervisor with
  | .fault code => .pageFault code
  | .phys p => if isIo s p then .device else .byte (Memory.read s.mem p)

/-- The byte `k` of the area at `la`, read as XRSTORS reads: at CPL 0, so as the supervisor (R49). -/
def areaRead (s : State) (la : Word) (k : Nat) : ByteRead := readLinear s (linearAt s la k) true

/-- The area as byte values. Where a byte cannot be read the value is free; no completing execution uses one
(R132; log 23). -/
def areaByte (s : State) (la : Word) (k : Nat) : Byte :=
  match areaRead s la k with
  | .byte b => b
  | _ => Config.freeByte s.free k

/-- le(bytes o .. o+n-1): the byte at the lowest address is the least significant (R8, R45). -/
def leNat (f : Nat → Byte) (o : Nat) : Nat → Nat
  | 0 => 0
  | n + 1 => (f o).toNat + 256 * leNat f (o + 1) n

/-- The w-bit field of n bytes at offset o. -/
def leField (w : Nat) (f : Nat → Byte) (o n : Nat) : BitVec w := BitVec.ofNat w (leNat f o n)

/-! ### Exceptions -/

/-- An exception with its error code, and for #PF the faulting linear address (R120, R132). -/
structure Exc where
  vector : ExcVector
  errorCode : Option ErrorCode
  address : Option Word
  deriving DecidableEq, Repr

/-- The vector number (R120). -/
def ExcVector.number : ExcVector → Nat
  | .ud => 6
  | .nm => 7
  | .ss => 12
  | .gp => 13
  | .pf => 14
  | .ac => 17

/-- #UD and #NM have no error code (R120). -/
def excUd : Exc := ⟨.ud, none, none⟩
def excNm : Exc := ⟨.nm, none, none⟩

/-- #GP(0); in real-address mode #GP without an error code (R120, R125). -/
def excGp (s : State) : Exc := ⟨.gp, if s.mode = .real then none else some 0, none⟩

/-- #SS(0) (R126), #AC(0) (R120, R128) and #PF(code) (R127). -/
def excSs : Exc := ⟨.ss, some 0, none⟩
def excAc : Exc := ⟨.ac, some 0, none⟩
def excPf (code : ErrorCode) (la : Word) : Exc := ⟨.pf, some code, some la⟩

/-- Taking an exception: `raise #X(e)` ends the instruction with the outcome record of R132, which holds the pc of the
instruction's first byte, and leaves the state `left`. It is a terminal outcome: nothing of delivery to a handler or
of the return from one is in the spec (R133, R134, D11; log 1). -/
def raise (s : State) (e : Exc) (left : State) : Host.Outcome State Fault Refusal :=
  .fault (.exception ⟨e.vector, e.errorCode, pcOf s, e.address⟩ left)

/-! ### Checks, the first that does not pass wins (R131) -/

/-- The result of one check. -/
inductive Check where
  | pass
  | fault (e : Exc)
  | refuse (r : Refusal)
  deriving DecidableEq, Repr

/-- The first check of the list that does not pass. -/
def Check.first : List Check → Check
  | [] => .pass
  | .pass :: t => Check.first t
  | .fault e :: _ => .fault e
  | .refuse r :: _ => .refuse r

/-- A condition that raises an exception. -/
def Check.faultIf (c : Bool) (e : Exc) : Check := if c then .fault e else .pass

/-- A condition under which the model gives no meaning. -/
def Check.refuseIf (c : Bool) (r : Refusal) : Check := if c then .refuse r else .pass

/-! ### The operand's range (R48, R57) -/

/-- Canonical: bits 63:47 all equal (48-bit linear addresses) or bits 63:56 (57-bit) (R48, U9). -/
def canonical (w : LinearWidth) (a : Word) : Bool :=
  match w with
  | .bits48 => a.extractLsb' 47 17 == 0 || a.extractLsb' 47 17 == BitVec.allOnes 17
  | .bits57 => a.extractLsb' 56 8 == 0 || a.extractLsb' 56 8 == BitVec.allOnes 8

/-- The offset lies inside the segment's limit (R48); the expand-down case is PRESUMED (log 19). -/
def Segment.inLimit (g : Segment) (offset : Nat) : Bool :=
  if g.expandDown then decide (g.limit.toNat < offset ∧ offset ≤ (if g.big then 0xFFFFFFFF else 0xFFFF))
  else decide (offset ≤ g.limit.toNat)

/-- A null selector: index 0 of the GDT (R48). -/
def Segment.isNull (g : Segment) : Bool := (g.selector &&& 0xFFFC) == 0

/-- The exception of an address outside its range: through SS #SS(0), else #GP(0); in real-address mode #GP for any
segment (R126, R131 rank 6). -/
def excOutside (s : State) (r : SegReg) : Exc :=
  if s.mode ≠ .real ∧ r = .ss then excSs else excGp s

/-- Step 7 of R82 for the offsets 0 .. len-1 of an operand: the canonical check of 64-bit mode, the 0..FFFFH check of
real-address mode, else the segment check (R48, R57; log 19). -/
def rangeCheck (s : State) (op : Operand) (len : Nat) : Check :=
  match s.mode with
  | .bits64 =>
    .faultIf (!(List.range len).all fun k => canonical s.cfg.linearWidth (linearAt s op.laxa k))
      (excOutside s op.seg)
  | .real => .faultIf (decide (0x10000 < op.ea.toNat + len)) (excOutside s op.seg)
  | .virtual8086 =>
    .faultIf (!(List.range len).all fun k => (segOf s op.seg).inLimit (op.ea.toNat + k)) (excOutside s op.seg)
  | _ =>
    .first
      [ .faultIf ((segOf s op.seg).isNull || !(segOf s op.seg).readable) (excGp s),
        .faultIf (!(List.range len).all fun k => (segOf s op.seg).inLimit (op.ea.toNat + k))
          (excOutside s op.seg) ]

/-- The bytes lo .. lo+len-1 of the area that raise a page fault, with their linear addresses and codes. -/
def pageFaults (s : State) (la : Word) (lo len : Nat) : List (ErrorCode × Word) :=
  (List.range len).filterMap fun k =>
    match areaRead s la (lo + k) with
    | .pageFault code => some (code, linearAt s la (lo + k))
    | _ => none

/-- Every byte lo .. lo+len-1 of the area can be read (R49, R50): else #PF for one of the bytes that fault, which one
is a free choice (log 18), or a refusal where a byte lies in memory-mapped I/O (R50; log 22). DESIGN CHOICE: the page
faults of the read come before its refusal, so a range that holds bytes of both kinds raises #PF, and the refusal
stands at the read's own rank, 8 for the header and 10 for the area, behind the causes of the ranks before it (the
spec orders #PF and the refusal nowhere; log 42). -/
def readCheck (s : State) (la : Word) (lo len : Nat) : Check :=
  match pageFaults s la lo len with
  | f :: t =>
    let r := (f :: t).getD (Config.freePick s.free % (t.length + 1)) f
    .fault (excPf r.1 r.2)
  | [] => .refuseIf ((List.range len).any fun k => areaRead s la (lo + k) == .device) .deviceMemory

/-! ### The masks (R83 to R85) -/

/-- The temporaries of one execution (R9). -/
structure Masks where
  rfbm : Word
  compmask : Word
  rstormask : Word
  format : Word
  restoreFeatures : Word
  toBeRestored : Word
  forceInit : Word
  toBeInitialized : Word
  deriving DecidableEq, Repr

/-- RFBM = (XCR0 OR IA32_XSS) AND EDX:EAX (R83). -/
def rfbmOf (s : State) : Word := (s.xcr0 ||| s.ia32Xss) &&& instrMask s

/-- XSTATE_BV and XCOMP_BV: header bytes 7:0 and 15:8, offsets 512 and 520 (R41). -/
def xstateBvOf (f : Nat → Byte) : Word := leField 64 f 512 8
def xcompBvOf (f : Nat → Byte) : Word := leField 64 f 520 8

/-- COMPMASK with bit 63 cleared (R84). -/
def formatOf (compmask : Word) : Word := compmask &&& 0x7FFFFFFFFFFFFFFF

/-- The masks of R83 to R85 for an area `f`. -/
def masksOf (s : State) (f : Nat → Byte) : Masks :=
  let rfbm := rfbmOf s
  let compmask := xcompBvOf f
  let rstormask := xstateBvOf f
  let format := formatOf compmask
  let restoreFeatures := format &&& rfbm
  let forceInit := rfbm &&& ~~~format
  { rfbm, compmask, rstormask, format, restoreFeatures, forceInit
    toBeRestored := restoreFeatures &&& rstormask
    toBeInitialized := (rfbm &&& ~~~rstormask) ||| forceInit }

/-! ### The header checks (R130) -/

/-- The mask XCOMP_BV[62:0] is tested against (R130, C1, D4). -/
def checkMaskOf (s : State) : Word :=
  match s.cfg.xcompCheckMask with
  | .xcr0OrXss => s.xcr0 ||| s.ia32Xss
  | .xcr0Only => s.xcr0

/-- H1: COMPMASK[63] = 0, the standard format (R42, R101). -/
def h1Fails (f : Nat → Byte) : Bool := !(xcompBvOf f).getLsbD 63

/-- H2: a bit of FORMAT outside the check mask. -/
def h2Fails (s : State) (f : Nat → Byte) : Bool := formatOf (xcompBvOf f) &&& ~~~checkMaskOf s != 0

/-- H3: a bit of XSTATE_BV outside XCOMP_BV, all 64 bits. -/
def h3Fails (f : Nat → Byte) : Bool := xstateBvOf f &&& ~~~xcompBvOf f != 0

/-- H4: some byte of hdr[16..63] is not 00H. -/
def h4Fails (f : Nat → Byte) : Bool := (List.range 48).any fun k => f (528 + k) != 0

/-- Some header check fails. -/
def headerFails (s : State) (f : Nat → Byte) : Bool := h1Fails f || h2Fails s f || h3Fails f || h4Fails f

/-! ### The walk over the compacted extended region (R43) -/

/-- The configuration of component i (R4). -/
def compCfg (c : Cfg) (i : Nat) : Option CompCfg := c.comps.find? fun d => d.id == i

/-- n(i); 0 where it is not defined (R22). -/
def compSize (c : Cfg) (i : Nat) : Nat := ((compCfg c i).map CompCfg.size).getD 0

/-- INIT(i) (R97). -/
def compInit (c : Cfg) (i : Nat) : List Byte := ((compCfg c i).map CompCfg.init).getD []

/-- The ranges of component i that belong to registers 8 and above (R104). -/
def compUpper (c : Cfg) (i : Nat) : List (Nat × Nat) := ((compCfg c i).map CompCfg.upper).getD []

/-- The offset moved to the next 64-byte boundary where ALIGN64(i) = 1 (R43, D15). -/
def alignFor (c : Cfg) (i off : Nat) : Nat :=
  if ((compCfg c i).map CompCfg.align64).getD false then (off + 63) / 64 * 64 else off

/-- NEXT_FEATURE_OFFSET after the walk has passed components 2 .. k+1 (R43, R89). -/
def nextFeatureOffset (c : Cfg) (format : Word) : Nat → Nat
  | 0 => 576
  | k + 1 =>
    if format.getLsbD (k + 2) then
      alignFor c (k + 2) (nextFeatureOffset c format k) + compSize c (k + 2)
    else nextFeatureOffset c format k

/-- OFFSET(i), for 2 <= i <= 62 with FORMAT[i] = 1 (R43). -/
def offsetOf (c : Cfg) (format : Word) (i : Nat) : Nat :=
  alignFor c i (nextFeatureOffset c format (i - 2))

/-- AREA_SIZE(FORMAT) (R43). -/
def areaSize (c : Cfg) (format : Word) : Nat := nextFeatureOffset c format 61

/-- The n(i) bytes of component i's slot. -/
def slotBytes (c : Cfg) (format : Word) (f : Nat → Byte) (i : Nat) : List Byte :=
  (List.range (compSize c i)).map fun k => f (offsetOf c format i + k)

/-! ### Component 0, x87 state (R87, R94, R96) -/

/-- A vector of eight, and of sixteen, given by index. -/
def vector8 {α : Type} (f : Nat → α) : Vector α 8 := #v[f 0, f 1, f 2, f 3, f 4, f 5, f 6, f 7]

def vector16 {α : Type} (f : Nat → α) : Vector α 16 :=
  #v[f 0, f 1, f 2, f 3, f 4, f 5, f 6, f 7, f 8, f 9, f 10, f 11, f 12, f 13, f 14, f 15]

/-- The 80-bit image of ST(j) at offset 32 + 16j (R44). -/
def stImage (f : Nat → Byte) (j : Nat) : BitVec 80 := leField 80 f (32 + 16 * j) 10

/-- The image that physical register p is loaded from: ST((p - TOP) mod 8), with TOP from the loaded FSW (R94). -/
def fprImage (f : Nat → Byte) (p : Nat) : BitVec 80 :=
  stImage f ((p + 8 - (topOf (leField 16 f 2 2)).toNat) % 8)

/-- Loads x87 state from the legacy region (R44, R94). With W = 1 FCS and FDS are free values, the two numbered from
`free` (U11; log 11). -/
def loadX87 (w : Bool) (free : Nat) (f : Nat → Byte) : X87 where
  fcw := leField 16 f 0 2
  fsw := leField 16 f 2 2
  ftw := tagWord (tagFrom (f 4) (fprImage f))
  fop := leField 11 f 6 2
  fip := if w then leField 64 f 8 8 else leField 64 f 8 4
  fcs := if w then Config.freeSelector free else leField 16 f 12 2
  fdp := if w then leField 64 f 16 8 else leField 64 f 16 4
  fds := if w then Config.freeSelector (free + 1) else leField 16 f 20 2
  fpr := vector8 (fprImage f)

/-- The initial x87 state (R96, D16). -/
def initX87 : X87 where
  fcw := 0x037F
  fsw := 0
  ftw := 0xFFFF
  fop := 0
  fip := 0
  fcs := 0
  fdp := 0
  fds := 0
  fpr := vector8 fun _ => 0

/-- Component 0 (R87). -/
def component0 (w : Bool) (m : Masks) (f : Nat → Byte) (s : State) : X87 :=
  if m.toBeRestored.getLsbD 0 then loadX87 w s.free f
  else if m.toBeInitialized.getLsbD 0 then initX87
  else s.x87

/-- The free values component 0 has drawn: FCS and FDS of a load with W = 1. -/
def component0Draws (w : Bool) (m : Masks) : Nat := if w && m.toBeRestored.getLsbD 0 then 2 else 0

/-! ### Component 1, SSE state (R88, R95, R104) -/

/-- XMMj takes part: all sixteen in 64-bit mode, XMM0..XMM7 outside it (R104, D22). -/
def xmmReached (s : State) (j : Nat) : Bool := s.mode == .bits64 || decide (j < 8)

/-- The image of XMMj at offset 160 + 16j (R44). -/
def xmmImage (f : Nat → Byte) (j : Nat) : BitVec 128 := leField 128 f (160 + 16 * j) 16

/-- The image of MXCSR at offset 24 (R44, R93). -/
def mxcsrImage (f : Nat → Byte) : BitVec 32 := leField 32 f 24 4

/-- The XMM registers with the reached ones replaced. -/
def xmmUpdate (s : State) (new : Nat → BitVec 128) : Vector (BitVec 128) 16 :=
  vector16 fun j => if xmmReached s j then new j else (s.sse.xmm[j]?).getD 0

/-- Loads SSE state from the legacy region (R95). -/
def loadSse (s : State) (f : Nat → Byte) : Sse := ⟨xmmUpdate s (xmmImage f), mxcsrImage f⟩

/-- Initializes SSE state: the XMM registers 0, MXCSR 1F80H (R88). -/
def initSse (s : State) : Sse := ⟨xmmUpdate s fun _ => 0, 0x1F80⟩

/-- Component 1 (R88). -/
def component1 (m : Masks) (f : Nat → Byte) (s : State) : Sse :=
  if m.toBeRestored.getLsbD 1 then loadSse s f
  else if m.toBeInitialized.getLsbD 1 then initSse s
  else s.sse

/-! ### Components 2..62 (R89, R97, R104) -/

/-- Byte k of component i belongs to registers 8 and above (R104). -/
def isUpperByte (c : Cfg) (i k : Nat) : Bool :=
  (compUpper c i).any fun r => decide (r.1 ≤ k ∧ k < r.1 + r.2)

/-- The new image of component i, less the bytes that R104 leaves alone outside 64-bit mode (log 30). -/
def extUpdate (s : State) (i : Nat) (old new : List Byte) : List Byte :=
  if s.mode = .bits64 then new
  else new.mapIdx fun k b => if isUpperByte s.cfg i k then old.getD k 0 else b

/-- One turn of the loop of R89 for component i, from its content `old`. -/
def extComponent (m : Masks) (f : Nat → Byte) (s : State) (i : Nat) (old : List Byte) : List Byte :=
  let restored :=
    if m.format.getLsbD i && m.toBeRestored.getLsbD i then
      extUpdate s i old (slotBytes s.cfg m.format f i)
    else old
  if m.toBeInitialized.getLsbD i then extUpdate s i restored (compInit s.cfg i) else restored

/-- Components 2..62, each on its own (R89). -/
def extAll (m : Masks) (f : Nat → Byte) (s : State) : Vector (List Byte) 63 :=
  s.ext.mapIdx fun i old => if i < 2 then old else extComponent m f s i old

/-! ### Tracking state (R30, R31, R32, R87 to R92) -/

/-- The component bits 62:0. -/
def componentBits : Word := 0x7FFFFFFFFFFFFFFF

/-- XINUSE: 1 for a component that is loaded, 0 for one that is initialized, bit 63 untouched (R30, R87 to R89). -/
def xinuseAfter (m : Masks) (x : Word) : Word :=
  (x ||| (m.toBeRestored &&& componentBits)) &&& ~~~(m.toBeInitialized &&& componentBits)

/-- XRSTOR_INFO <- (CPL, VMXNR, LAXA, COMPMASK) (R92). -/
def xrstorInfoOf (s : State) (laxa compmask : Word) : XrstorInfo := ⟨cplOf s, s.inVmxNonRoot, laxa, compmask⟩

end Sys2Proof.Machine
end

