-- ==== Sys2Proof/Machine/Xrstors.lean ====
section
/-! DEFINITION. XRSTORS and XRSTORS64 (R80, R81) over the shared procedure XRSTORS_exec(W) (R82). -/

namespace Sys2Proof.Machine

/-! ### Before step 1: what the model refuses -/

/-- The launch premise on XCR0 and IA32_XSS (D25, U6; log 25). -/
def xcrPremise (s : State) : Bool :=
  s.xcr0 &&& s.ia32Xss == 0 && s.xcr0 &&& ~~~s.cfg.supportedUser == 0 &&
    s.ia32Xss &&& ~~~s.cfg.supportedSuper == 0 && !s.xcr0.getLsbD 63 && !s.ia32Xss.getLsbD 63 &&
    s.xcr0.getLsbD 0

/-- The base of the operand's segment is no multiple of 64, so that linear and effective alignment could differ
(R46, D7; log 16). -/
def oddSegmentBase (s : State) (op : Operand) : Bool := (segBase s op.seg).extractLsb' 0 6 != 0

/-- Step 0 of R82 and the launches R140, D25 and D7 refuse. That the last three stand here, ahead of rank 1, is a
DESIGN CHOICE (log 2). -/
def launchChecks (s : State) (op : Operand) : List Check :=
  [ .refuseIf s.inVmxNonRoot .vmxNonRoot,
    .refuseIf (s.debugArmed || eflagsTf s) .debugArmed,
    .refuseIf (!xcrPremise s) .xcrPremise,
    .refuseIf (oddSegmentBase s op) .segmentBase ]

/-! ### Steps 1 to 8: ranks 1 to 7 of R131 -/

/-- LAXA[5:0] != 0 (R46). -/
def misaligned (op : Operand) : Bool := op.laxa.extractLsb' 0 6 != 0

/-- What a misaligned operand raises (R128, U1, U2). -/
def excMisaligned (s : State) : Exc :=
  if acEnabled s then
    match s.cfg.acBehaviour with
    | .gp => excGp s
    | .ac => excAc
    | .either => if Config.freeReportAc s.free then excAc else excGp s
  else excGp s

/-- What CPL > 0 raises: #GP(0), or the name R128 gives a misaligned operand with alignment checking enabled, where
forming LAXA would not itself fault. -/
def excPrivilege (s : State) (op : Operand) : Exc :=
  if acEnabled s && misaligned op && rangeCheck s op 576 == .pass then excMisaligned s else excGp s

/-- CPL > 0, not in real-address mode (R82 step 5, R136, R138). -/
def notPrivileged (s : State) : Bool := s.mode != .real && cplOf s != 0

/-- Ranks 1 to 7 of R131. -/
def earlyChecks (s : State) (op : Operand) : List Check :=
  [ .faultIf (!s.cfg.cpuidXsave || !s.cfg.cpuidXss) excUd,
    .faultIf (!cr4Osxsave s) excUd,
    .faultIf op.lock excUd,
    .faultIf (cr0Ts s) excNm,
    .faultIf (notPrivileged s) (excPrivilege s op),
    rangeCheck s op 576,
    .faultIf (misaligned op) (excMisaligned s) ]

/-! ### Steps 9 to 12: ranks 8 to 12 of R131 -/

/-- TO_BE_RESTORED[1] = 1 with a reserved bit of MXCSR set in its image (R93). -/
def mxcsrIllegal (s : State) (m : Masks) (f : Nat → Byte) : Bool :=
  m.toBeRestored.getLsbD 1 && (mxcsrImage f &&& ~~~s.cfg.mxcsrMask != 0)

/-- Some i in 2..62 with TO_BE_RESTORED[i] = 1 whose slot CFG.LOAD_FAULT rejects (R103). -/
def loadFaults (s : State) (m : Masks) (f : Nat → Byte) : Bool :=
  match s.cfg.loadFault with
  | .never => false
  | .part =>
    (List.range 63).any fun i =>
      decide (2 ≤ i) && m.toBeRestored.getLsbD i && Config.loadFault i (slotBytes s.cfg m.format f i) s

/-- The area of an operand as byte values, and the masks of one execution. -/
def areaOf (s : State) (op : Operand) : Nat → Byte := areaByte s op.laxa
def operandMasks (s : State) (op : Operand) : Masks := masksOf s (areaOf s op)

/-- AREA_SIZE(FORMAT) of the operand's area: the extent of the maximal read set (R50, D9). -/
def operandAreaSize (s : State) (op : Operand) : Nat := areaSize s.cfg (operandMasks s op).format

/-- Ranks 8 to 12 of R131. -/
def lateChecks (s : State) (op : Operand) : List Check :=
  [ readCheck s op.laxa 512 64,
    .faultIf (headerFails s (areaOf s op)) (excGp s),
    rangeCheck s op (operandAreaSize s op),
    readCheck s op.laxa 0 (operandAreaSize s op),
    .faultIf (mxcsrIllegal s (operandMasks s op) (areaOf s op)) (excGp s),
    .faultIf (loadFaults s (operandMasks s op) (areaOf s op)) (excGp s) ]

/-! ### Steps 13 to 18 -/

/-- The commit with given masks and area: components 0, 1 and 2..62, XINUSE, XMODIFIED_BV, XRSTOR_INFO and pc
(R87 to R92, R100). -/
def commitWith (w : Bool) (op : Operand) (m : Masks) (f : Nat → Byte) (s : State) : State :=
  { s with
    x87 := component0 w m f s
    sse := component1 m f s
    ext := extAll m f s
    xinuse := xinuseAfter m s.xinuse
    xmodifiedBv := ~~~m.rfbm
    xrstorInfo := xrstorInfoOf s op.laxa m.compmask
    rip := nextPc s op.length
    free := s.free + component0Draws w m }

/-- The state a completed execution gives. -/
def commit (w : Bool) (op : Operand) (s : State) : State :=
  commitWith w op (operandMasks s op) (areaOf s op) s

/-! ### What a fault of rank 8 or later leaves (R132) -/

/-- The bits of XINUSE that a partial fault has renewed: one free choice per bit (log 23). -/
def freeBits (free : Nat) : Word :=
  (List.range 64).foldl
    (fun acc i => if Config.freeItemIsNew free (64 + i) then acc ||| ((1 : Word) <<< i) else acc) 0

/-- The state a fault of rank 8 or later leaves: with FAULT_ATOMICITY = precise the state before; with partial each
component, each bit of XINUSE, XMODIFIED_BV and XRSTOR_INFO holds its old value or the one the completed instruction
would have given, a free choice per item (R132, U12; log 23). After rank 9, 11 or 12 no completed instruction exists for
these bytes; DESIGN CHOICE: `new` is then what the commit makes of them as they stand, so that MXCSR may be left with
reserved bits set (log 43). -/
def faultLeft (s new : State) : State :=
  match s.cfg.faultAtomicity with
  | .precise => s
  | .perItem =>
    { s with
      x87 := if Config.freeItemIsNew s.free 0 then new.x87 else s.x87
      sse := if Config.freeItemIsNew s.free 1 then new.sse else s.sse
      ext := s.ext.mapIdx fun i old => if Config.freeItemIsNew s.free i then (new.ext[i]?).getD old else old
      xinuse := (s.xinuse &&& ~~~freeBits s.free) ||| (new.xinuse &&& freeBits s.free)
      xmodifiedBv := if Config.freeItemIsNew s.free 128 then new.xmodifiedBv else s.xmodifiedBv
      xrstorInfo := if Config.freeItemIsNew s.free 129 then new.xrstorInfo else s.xrstorInfo
      free := s.free + 2 }

/-! ### The procedure and the two instructions -/

/-- XRSTORS_exec(W) (R82): the first check that does not pass ends the instruction, in the order of R131; past them
all it commits. No state is written before that (R132). What a partial fault of rank 8 or later leaves is formed with
`commit` on the area as it reads, be its header or image illegal (log 43). -/
def xrstorsExec (w : Bool) (op : Operand) (s : State) : Host.Outcome State Fault Refusal :=
  match Check.first (launchChecks s op ++ earlyChecks s op) with
  | .refuse r => .refused r
  | .fault e => raise s e s
  | .pass =>
    match Check.first (lateChecks s op) with
    | .refuse r => .refused r
    | .fault e => raise s e (faultLeft s (commit w op s))
    | .pass => .next (commit w op s)

/-- XRSTORS mem (R80): XRSTORS_exec(W = 0). A term with no encoding in the present mode is refused (R64). -/
def execXrstors (ps : List Prefix) (rex : Option Rex) (m : Mem) (s : State) : Host.Outcome State Fault Refusal :=
  if (Instr.xrstors ps rex m).wellFormed (codeCtx s) then xrstorsExec false (operandOf s ps rex m) s
  else .refused .notEncodable

/-- XRSTORS64 mem (R81): XRSTORS_exec(W = 1). It exists in 64-bit mode only (R3). -/
def execXrstors64 (ps : List Prefix) (rex : Rex) (m : Mem) (s : State) : Host.Outcome State Fault Refusal :=
  if (Instr.xrstors64 ps rex m).wellFormed (codeCtx s) then xrstorsExec true (operandOf s ps (some rex) m) s
  else .refused .notEncodable

end Sys2Proof.Machine
end

