-- ==== Sys2Proof/Machine/Dispatch.lean ====
section
/-! DEFINITION. One arm per instruction. -/

namespace Sys2Proof.Machine

def exec (i : Instr) (s : State) : Host.Outcome State Fault Refusal :=
  match i with
  | .xrstors ps rex m => Sys2Proof.Machine.execXrstors ps rex m s
  | .xrstors64 ps rex m => Sys2Proof.Machine.execXrstors64 ps rex m s

end Sys2Proof.Machine
end

