-- ==== Sys2Proof/Machine/Fetch.lean ====
section
/-! DEFINITION. Fetching an instruction's bytes, what a step does where they are no XRSTORS, and placing an
instruction where the fetch reads (R12, R45, R64, R67, R69, R79, R127, D13). -/

namespace Sys2Proof.Machine

/-- Why the fetch of a byte stops. -/
inductive FetchStop where
  /-- The byte lies past the top of the address space or the code-segment limit (R12, D13). -/
  | outside
  /-- The fetch page-faults (R127). -/
  | pageFault (code : ErrorCode) (la : Word)
  /-- The byte lies in memory-mapped I/O (log 22). -/
  | device
  deriving DecidableEq, Repr

/-- The linear address of instruction byte k: CS.base + pc + k, with CS.base = 0 in 64-bit mode (R48). -/
def fetchAddress (s : State) (k : Nat) : Word := linearAt s (segBase s .cs + pcOf s) k

/-- The size of the linear address space: 2^64 in 64-bit mode, 2^32 otherwise (R48, R56). -/
def linearSpace (s : State) : Nat := if s.mode = .bits64 then 2 ^ 64 else 2 ^ 32

/-- Byte k of the instruction is reached from its first byte without crossing the top of the instruction pointer's
range, the top of the linear address space (R12, R56, D13) or, outside 64-bit mode, the code-segment limit
(D13; log 27). -/
def fetchInside (s : State) (k : Nat) : Bool :=
  decide ((pcOf s).toNat + k < 2 ^ ipWidth s) && decide ((fetchAddress s 0).toNat + k < linearSpace s) &&
    (if s.mode = .bits64 then canonical s.cfg.linearWidth (fetchAddress s k)
     else decide ((pcOf s).toNat + k ≤ s.segs.cs.limit.toNat))

/-- A fetch is a user access at CPL 3 only (PRESUMED, log 21). -/
def fetchSupervisor (s : State) : Bool := cplOf s != 3

/-- Instruction byte k. -/
def fetchByte (s : State) (k : Nat) : Except FetchStop Byte :=
  if fetchInside s k then
    match readLinear s (fetchAddress s k) (fetchSupervisor s) with
    | .byte b => .ok b
    | .pageFault code => .error (.pageFault code (fetchAddress s k))
    | .device => .error .device
  else .error .outside

/-- Up to n instruction bytes from byte k on, and why the fetch stopped if it did. -/
def fetchFrom (s : State) : Nat → Nat → List Byte × Option FetchStop
  | 0, _ => ([], none)
  | n + 1, k =>
    match fetchByte s k with
    | .ok b => let r := fetchFrom s n (k + 1); (b :: r.1, r.2)
    | .error e => ([], some e)

/-- The bytes at pc, as many of the 15 an instruction may have as can be fetched. -/
def fetchWindow (s : State) : List Byte × Option FetchStop := fetchFrom s maxLength 0

/-- What a step does where the bytes at pc are no XRSTORS: #UD for the two unassigned forms (R67, R69), #GP(0) past 15
bytes (R64), what stopped the fetch where the bytes ran out, else a refusal by name (R79). DESIGN CHOICE: these answers
stand in every state, also in one whose launch would be refused (a debug register armed, EFLAGS.TF = 1, VMX non-root
operation, the premise on XCR0 and IA32_XSS); those refusals are tested for a decoded XRSTORS only (R140; log 44). -/
def notDecoded (s : State) (stop : Option FetchStop) (e : DecodeError) : Host.Outcome State Fault Refusal :=
  match e with
  | .truncated =>
    match stop with
    | some (.pageFault code la) => raise s (excPf code la) s
    | some .device => .refused .deviceMemory
    | some .outside => .refused .fetchOutsideCode
    | none => .refused .fetchOutsideCode
  | .tooLong => raise s (excGp s) s
  | .registerForm => raise s excUd s
  | .npViolated => raise s excUd s
  | .notXrstorsReg n => .refused (.notXrstors (.notXrstorsReg n))
  | .notXrstorsOpcode => .refused (.notXrstors .notXrstorsOpcode)

/-- Writes bytes where the fetch reads instruction bytes k, k+1, …; a byte whose address does not translate is left
out. -/
def placeBytes (s : State) : Nat → List Byte → Memory → Memory
  | _, [], m => m
  | k, b :: t, m =>
    match translate s (fetchAddress s k) (fetchSupervisor s) with
    | .phys p => placeBytes s (k + 1) t (Memory.write m p b)
    | .fault _ => placeBytes s (k + 1) t m

/-- The mode a table word is run in: the present one, or 64-bit mode where the bytes are an instruction only there,
since REX exists in 64-bit mode only (log 34). -/
def modeFor (s : State) (bytes : List Byte) : Mode :=
  match decode (codeCtx s) bytes with
  | .ok _ => s.mode
  | .error _ =>
    match decode ctx64 bytes with
    | .ok _ => .bits64
    | .error _ => s.mode

/-- The bytes of an instruction placed at pc. -/
def placeAtPc (s : State) (bytes : List Byte) : State := { s with mem := placeBytes s 0 bytes s.mem }

end Sys2Proof.Machine
end

