-- ==== Sys2Proof/Machine/Step.lean ====
section
/-! DEFINITION. One step: decode and execute the instruction at pc (D1, R156). -/

namespace Sys2Proof.Machine

/-- One step of the machine. -/
def step (s : State) : Host.Outcome State Fault Refusal :=
  match decode (codeCtx s) (fetchWindow s).1 with
  | .ok (i, _) => exec i s
  | .error e => notDecoded s (fetchWindow s).2 e

/-- `s` with the instruction of a table word stored where `step` fetches (log 7, log 34). -/
def State.withFetchWord (s : State) (nbits w : Nat) : State :=
  placeAtPc { s with mode := modeFor s (tableWindow nbits w) } (tableWindow nbits w)

end Sys2Proof.Machine
end

