-- ==== Sys2Proof/Machine/Operation.lean ====
section
/-! DEFINITION. The page's own Operation section (40_xrstors.md section 0) written line by line, with its running
NEXT_FEATURE_OFFSET and its bit-by-bit writes of XINUSE. The machine does not run it: statements compare the commit of
Machine/Xrstors.lean with it. It has no pc and no fault, as the page's pseudocode has none, and the page's walk has no
alignment line (R43). -/

namespace Sys2Proof.Machine

/-- `v[i] <- b`. -/
def setBit (v : Word) (i : Nat) (b : Bool) : Word :=
  if b then v ||| ((1 : Word) <<< i) else v &&& ~~~((1 : Word) <<< i)

/-- `SC[i] <- bytes` for i in 2..62. -/
def setComponent (s : State) (i : Nat) (bytes : List Byte) : State :=
  { s with ext := s.ext.setIfInBounds i bytes }

/-- `XINUSE[i] <- b`. -/
def setXinuse (s : State) (i : Nat) (b : Bool) : State := { s with xinuse := setBit s.xinuse i b }

/-- The page's lines for component 0. -/
def operation0 (w : Bool) (m : Masks) (f : Nat → Byte) (s : State) : State :=
  if m.toBeRestored.getLsbD 0 then setXinuse { s with x87 := loadX87 w s.free f } 0 true
  else if m.toBeInitialized.getLsbD 0 then setXinuse { s with x87 := initX87 } 0 false
  else s

/-- The page's lines for component 1: it loads "the XMM registers", and sets "all XMM registers" to 0. -/
def operation1 (m : Masks) (f : Nat → Byte) (s : State) : State :=
  if m.toBeRestored.getLsbD 1 then
    setXinuse { s with sse := ⟨vector16 (xmmImage f), mxcsrImage f⟩ } 1 true
  else if m.toBeInitialized.getLsbD 1 then
    setXinuse { s with sse := ⟨vector16 fun _ => 0, 0x1F80⟩ } 1 false
  else s

/-- One turn of the page's loop, with NEXT_FEATURE_OFFSET. -/
def operationTurn (m : Masks) (f : Nat → Byte) (i : Nat) (a : State × Nat) : State × Nat :=
  let s := a.1
  let off := a.2
  let n := compSize s.cfg i
  let loaded :=
    if m.format.getLsbD i then
      (if m.toBeRestored.getLsbD i then
          setXinuse (setComponent s i ((List.range n).map fun k => f (off + k))) i true
        else s,
        off + n)
    else (s, off)
  if m.toBeInitialized.getLsbD i then
    (setXinuse (setComponent loaded.1 i (compInit s.cfg i)) i false, loaded.2)
  else loaded

/-- The loop's first k turns, i = 2 .. k+1. -/
def operationLoop (m : Masks) (f : Nat → Byte) : Nat → State × Nat → State × Nat
  | 0, a => a
  | k + 1, a => operationTurn m f (k + 2) (operationLoop m f k a)

/-- The page's Operation for an area `f` whose first byte has the linear address `laxa`. -/
def operation (w : Bool) (laxa : Word) (f : Nat → Byte) (s : State) : State :=
  let m := masksOf s f
  let t := (operationLoop m f 61 (operation1 m f (operation0 w m f s), 576)).1
  { t with xmodifiedBv := ~~~m.rfbm, xrstorInfo := xrstorInfoOf s laxa m.compmask }

end Sys2Proof.Machine
end

