-- ==== Sys2Proof/Safety.lean ====
section
/-! DEFINITION. The terms claims are stated in: when a launch is legal, when an execution completes (R151), what a
fault record says (R132), the invariant, and what counts as a successful run (R156). -/

namespace Sys2Proof.Machine

/-- The operand of an instruction in a state (R82 step 6). -/
def instrOperand (s : State) (i : Instr) : Operand := operandOf s i.prefixes i.rex i.mem

/-- The masks of an execution of `i` (R83 to R85). -/
def instrMasks (s : State) (i : Instr) : Masks := operandMasks s (instrOperand s i)

/-- The area an execution of `i` reads, as byte values. -/
def instrArea (s : State) (i : Instr) : Nat → Byte := areaOf s (instrOperand s i)

/-! ### The operand's address as the tables of 30_encoding.md give it -/

/-- A, the address size in bits, by mode, CS's D bit and prefix 67 (R70). -/
def addressWidth (s : State) (ps : List Prefix) : Nat :=
  match s.mode with
  | .bits64 => if Prefix.addrSize ∈ ps then 32 else 64
  | .protectedMode | .compatibility =>
    if s.segs.cs.big = true then (if Prefix.addrSize ∈ ps then 16 else 32)
    else (if Prefix.addrSize ∈ ps then 32 else 16)
  | .real | .virtual8086 => if Prefix.addrSize ∈ ps then 32 else 16

/-- The sums of R71, R72 and R73 at width `w`, where `next` is the address of the byte after the instruction: registers
cut to `w` bits, displacements sign-extended to `w` bits, the sum modulo 2^w. -/
def addressForm (s : State) (rex : Option Rex) (next : Word) (w : Nat) (m : Mem) : BitVec w :=
  let reg (k : BitVec 4) : BitVec w := (gprOf s k).setWidth w
  let base (rm : BitVec 3) : BitVec w := reg (BitVec.ofBool (rexB rex) ++ rm)
  let index (scale : BitVec 2) (n : BitVec 3) : BitVec w :=
    if rexX rex = false ∧ n = 4 then 0 else reg (BitVec.ofBool (rexX rex) ++ n) <<< scale.toNat
  let wide : Disp → BitVec w
    | .none => 0
    | .d8 v => v.signExtend w
    | .d32 v => v.signExtend w
  let narrow : Disp16 → BitVec w
    | .none => 0
    | .d8 v => v.signExtend w
    | .d16 v => v.signExtend w
  match m with
  | .addr16 .bxSi d => reg 3 + reg 6 + narrow d
  | .addr16 .bxDi d => reg 3 + reg 7 + narrow d
  | .addr16 .bpSi d => reg 5 + reg 6 + narrow d
  | .addr16 .bpDi d => reg 5 + reg 7 + narrow d
  | .addr16 .si d => reg 6 + narrow d
  | .addr16 .di d => reg 7 + narrow d
  | .addr16 .bp d => reg 5 + narrow d
  | .addr16 .bx d => reg 3 + narrow d
  | .disp16 v => v.signExtend w
  | .based rm d => base rm + wide d
  | .sib scale n rm d => base rm + index scale n + wide d
  | .sibDisp32 scale n v => v.signExtend w + index scale n
  | .disp32 v => (if s.mode = .bits64 then next.setWidth w else 0) + v.signExtend w

/-! ### When an execution completes -/

/-- None of the launches that R82 step 0, R140, D25 and D7 refuse (logs 24, 26, 25 and 16). -/
structure Launched (s : State) (op : Operand) : Prop where
  notVmx : s.inVmxNonRoot = false
  notDebug : s.debugArmed = false
  notStep : eflagsTf s = false
  premise : xcrPremise s = true
  base : (segBase s op.seg).toNat % 64 = 0

/-- Ranks 1 to 4 of R131 do not hold: the instruction is present and enabled, has no LOCK prefix, and CR0.TS = 0
(R151 items 1, 2, 3, 6). -/
structure Enabled (s : State) (op : Operand) : Prop where
  xsave : s.cfg.cpuidXsave = true
  xss : s.cfg.cpuidXss = true
  osxsave : cr4Osxsave s = true
  noLock : op.lock = false
  notTs : cr0Ts s = false

/-- Offset `k` of the operand lies in its range: canonical, inside 0..FFFFH, or inside a usable segment's limit
(R48, R57). -/
def OffsetInRange (s : State) (op : Operand) (k : Nat) : Prop :=
  match s.mode with
  | .bits64 => canonical s.cfg.linearWidth (linearAt s op.laxa k) = true
  | .real => op.ea.toNat + k ≤ 0xFFFF
  | .virtual8086 => (segOf s op.seg).inLimit (op.ea.toNat + k) = true
  | _ =>
    (segOf s op.seg).isNull = false ∧ (segOf s op.seg).readable = true ∧
      (segOf s op.seg).inLimit (op.ea.toNat + k) = true

/-- Byte `k` of the area can be read (R49, R50). -/
def ByteReadable (s : State) (op : Operand) (k : Nat) : Prop := ∃ b, areaRead s op.laxa k = .byte b

/-- The four header checks of R130 pass (R151 item 8). -/
structure HeaderLegal (s : State) (f : Nat → Byte) : Prop where
  compacted : (xcompBvOf f).getLsbD 63 = true
  slotsEnabled : ∀ i < 63, (xcompBvOf f).getLsbD i = true → (checkMaskOf s).getLsbD i = true
  savedHaveSlots : ∀ i < 64, (xstateBvOf f).getLsbD i = true → (xcompBvOf f).getLsbD i = true
  reservedZero : ∀ k < 48, f (528 + k) = 0

/-- The preconditions of a completing execution (R151), with the hook of R103. -/
structure Ready (s : State) (op : Operand) : Prop where
  launched : Launched s op
  enabled : Enabled s op
  privileged : cplOf s = 0
  aligned : op.laxa.toNat % 64 = 0
  inRange : ∀ k < operandAreaSize s op, OffsetInRange s op k
  readable : ∀ k < operandAreaSize s op, ByteReadable s op k
  header : HeaderLegal s (areaOf s op)
  mxcsr : (operandMasks s op).toBeRestored.getLsbD 1 = true →
    mxcsrImage (areaOf s op) &&& ~~~s.cfg.mxcsrMask = 0
  content : s.cfg.loadFault = .never ∨
    ∀ i, 2 ≤ i → i < 63 → (operandMasks s op).toBeRestored.getLsbD i = true →
      Config.loadFault i (slotBytes s.cfg (operandMasks s op).format (areaOf s op) i) s = false

/-- The instruction is well formed in the state's mode and its preconditions hold. -/
def CanComplete (s : State) (i : Instr) : Prop :=
  i.wellFormed (codeCtx s) = true ∧ Ready s (instrOperand s i)

/-- The outcome of an exception raised in `s` without an address, leaving `s` (R132). -/
def faultsWith (s : State) (v : ExcVector) (code : Option ErrorCode) : Host.Outcome State Fault Refusal :=
  .fault (.exception ⟨v, code, pcOf s, none⟩ s)

/-- A well-formed configuration: user and supervisor components are disjoint and below bit 63 (R15), every component
i in 2..62 that is supported has its size and initial configuration and no other has (R4, R25, R97), and the initial
MXCSR has no reserved bit (R28, R88). -/
structure CfgWf (c : Cfg) : Prop where
  disjoint : c.supportedUser &&& c.supportedSuper = 0
  below63 : (c.supportedUser ||| c.supportedSuper).getLsbD 63 = false
  mxcsrInit : (0x1F80 : BitVec 32) &&& ~~~c.mxcsrMask = 0
  described : ∀ i, 2 ≤ i → i < 63 →
    (compCfg c i).isSome = (c.supportedUser ||| c.supportedSuper).getLsbD i
  initSize : ∀ d ∈ c.comps, d.init.length = d.size

/-- The invariant of the machine's states. -/
structure Inv (s : State) : Prop where
  cfg : CfgWf s.cfg
  memory : Memory.wf s.mem = true
  premise : xcrPremise s = true
  sizes : ∀ i, 2 ≤ i → i < 63 → (scOf s i).length = compSize s.cfg i
  mxcsr : s.sse.mxcsr &&& ~~~s.cfg.mxcsrMask = 0
  xinuse : s.xinuse &&& ~~~(s.cfg.supportedUser ||| s.cfg.supportedSuper) = 0
  infoCpl : s.xrstorInfo.cpl = 0

/-- `k` steps, stopping at the first fault or refusal. -/
def runSteps (k : Nat) (s : State) : Host.Outcome State Fault Refusal := core.run k s

/-- A run of `k` steps from `s` is successful with the end address `endPc` (R156): every step answers a next state and
pc is `endPc` after the last. A fault is never a success. -/
def SuccessfulRun (k : Nat) (s : State) (endPc : Word) : Prop :=
  ∃ t, runSteps k s = .next t ∧ pcOf t = endPc

end Sys2Proof.Machine
end

