-- ==== Sys2Proof/Laws/State.lean ====
section
/-! SUPPORT. One lemma per field per update of the state, so that no proof unfolds a record update. -/

namespace Sys2Proof.Machine

section Commit
variable (w : Bool) (op : Operand) (m : Masks) (f : Nat → Byte) (s : State)

@[simp] theorem commitWith_gpr : (commitWith w op m f s).gpr = s.gpr := rfl
@[simp] theorem commitWith_rip : (commitWith w op m f s).rip = nextPc s op.length := rfl
@[simp] theorem commitWith_rflags : (commitWith w op m f s).rflags = s.rflags := rfl
@[simp] theorem commitWith_cr0 : (commitWith w op m f s).cr0 = s.cr0 := rfl
@[simp] theorem commitWith_cr4 : (commitWith w op m f s).cr4 = s.cr4 := rfl
@[simp] theorem commitWith_xcr0 : (commitWith w op m f s).xcr0 = s.xcr0 := rfl
@[simp] theorem commitWith_ia32Xss : (commitWith w op m f s).ia32Xss = s.ia32Xss := rfl
@[simp] theorem commitWith_cpl : (commitWith w op m f s).cpl = s.cpl := rfl
@[simp] theorem commitWith_mode : (commitWith w op m f s).mode = s.mode := rfl
@[simp] theorem commitWith_inVmxNonRoot : (commitWith w op m f s).inVmxNonRoot = s.inVmxNonRoot := rfl
@[simp] theorem commitWith_debugArmed : (commitWith w op m f s).debugArmed = s.debugArmed := rfl
@[simp] theorem commitWith_segs : (commitWith w op m f s).segs = s.segs := rfl
@[simp] theorem commitWith_x87 : (commitWith w op m f s).x87 = component0 w m f s := rfl
@[simp] theorem commitWith_sse : (commitWith w op m f s).sse = component1 m f s := rfl
@[simp] theorem commitWith_ext : (commitWith w op m f s).ext = extAll m f s := rfl
@[simp] theorem commitWith_xinuse : (commitWith w op m f s).xinuse = xinuseAfter m s.xinuse := rfl
@[simp] theorem commitWith_xmodifiedBv : (commitWith w op m f s).xmodifiedBv = ~~~m.rfbm := rfl
@[simp] theorem commitWith_xrstorInfo : (commitWith w op m f s).xrstorInfo = xrstorInfoOf s op.laxa m.compmask := rfl
@[simp] theorem commitWith_mem : (commitWith w op m f s).mem = s.mem := rfl
@[simp] theorem commitWith_pages : (commitWith w op m f s).pages = s.pages := rfl
@[simp] theorem commitWith_ioRanges : (commitWith w op m f s).ioRanges = s.ioRanges := rfl
@[simp] theorem commitWith_cfg : (commitWith w op m f s).cfg = s.cfg := rfl
@[simp] theorem commitWith_free : (commitWith w op m f s).free = s.free + component0Draws w m := rfl

end Commit

section Place
variable (s : State) (bytes : List Byte)

@[simp] theorem placeAtPc_gpr : (placeAtPc s bytes).gpr = s.gpr := rfl
@[simp] theorem placeAtPc_rip : (placeAtPc s bytes).rip = s.rip := rfl
@[simp] theorem placeAtPc_rflags : (placeAtPc s bytes).rflags = s.rflags := rfl
@[simp] theorem placeAtPc_cr0 : (placeAtPc s bytes).cr0 = s.cr0 := rfl
@[simp] theorem placeAtPc_cr4 : (placeAtPc s bytes).cr4 = s.cr4 := rfl
@[simp] theorem placeAtPc_xcr0 : (placeAtPc s bytes).xcr0 = s.xcr0 := rfl
@[simp] theorem placeAtPc_ia32Xss : (placeAtPc s bytes).ia32Xss = s.ia32Xss := rfl
@[simp] theorem placeAtPc_cpl : (placeAtPc s bytes).cpl = s.cpl := rfl
@[simp] theorem placeAtPc_mode : (placeAtPc s bytes).mode = s.mode := rfl
@[simp] theorem placeAtPc_inVmxNonRoot : (placeAtPc s bytes).inVmxNonRoot = s.inVmxNonRoot := rfl
@[simp] theorem placeAtPc_debugArmed : (placeAtPc s bytes).debugArmed = s.debugArmed := rfl
@[simp] theorem placeAtPc_segs : (placeAtPc s bytes).segs = s.segs := rfl
@[simp] theorem placeAtPc_x87 : (placeAtPc s bytes).x87 = s.x87 := rfl
@[simp] theorem placeAtPc_sse : (placeAtPc s bytes).sse = s.sse := rfl
@[simp] theorem placeAtPc_ext : (placeAtPc s bytes).ext = s.ext := rfl
@[simp] theorem placeAtPc_xinuse : (placeAtPc s bytes).xinuse = s.xinuse := rfl
@[simp] theorem placeAtPc_xmodifiedBv : (placeAtPc s bytes).xmodifiedBv = s.xmodifiedBv := rfl
@[simp] theorem placeAtPc_xrstorInfo : (placeAtPc s bytes).xrstorInfo = s.xrstorInfo := rfl
@[simp] theorem placeAtPc_mem : (placeAtPc s bytes).mem = placeBytes s 0 bytes s.mem := rfl
@[simp] theorem placeAtPc_pages : (placeAtPc s bytes).pages = s.pages := rfl
@[simp] theorem placeAtPc_ioRanges : (placeAtPc s bytes).ioRanges = s.ioRanges := rfl
@[simp] theorem placeAtPc_cfg : (placeAtPc s bytes).cfg = s.cfg := rfl
@[simp] theorem placeAtPc_free : (placeAtPc s bytes).free = s.free := rfl

end Place

section Tracking
variable (s : State) (i : Nat) (b : Bool) (bytes : List Byte)

@[simp] theorem setXinuse_gpr : (setXinuse s i b).gpr = s.gpr := rfl
@[simp] theorem setXinuse_rip : (setXinuse s i b).rip = s.rip := rfl
@[simp] theorem setXinuse_rflags : (setXinuse s i b).rflags = s.rflags := rfl
@[simp] theorem setXinuse_cr0 : (setXinuse s i b).cr0 = s.cr0 := rfl
@[simp] theorem setXinuse_cr4 : (setXinuse s i b).cr4 = s.cr4 := rfl
@[simp] theorem setXinuse_xcr0 : (setXinuse s i b).xcr0 = s.xcr0 := rfl
@[simp] theorem setXinuse_ia32Xss : (setXinuse s i b).ia32Xss = s.ia32Xss := rfl
@[simp] theorem setXinuse_cpl : (setXinuse s i b).cpl = s.cpl := rfl
@[simp] theorem setXinuse_mode : (setXinuse s i b).mode = s.mode := rfl
@[simp] theorem setXinuse_inVmxNonRoot : (setXinuse s i b).inVmxNonRoot = s.inVmxNonRoot := rfl
@[simp] theorem setXinuse_debugArmed : (setXinuse s i b).debugArmed = s.debugArmed := rfl
@[simp] theorem setXinuse_segs : (setXinuse s i b).segs = s.segs := rfl
@[simp] theorem setXinuse_x87 : (setXinuse s i b).x87 = s.x87 := rfl
@[simp] theorem setXinuse_sse : (setXinuse s i b).sse = s.sse := rfl
@[simp] theorem setXinuse_ext : (setXinuse s i b).ext = s.ext := rfl
@[simp] theorem setXinuse_xinuse : (setXinuse s i b).xinuse = setBit s.xinuse i b := rfl
@[simp] theorem setXinuse_xmodifiedBv : (setXinuse s i b).xmodifiedBv = s.xmodifiedBv := rfl
@[simp] theorem setXinuse_xrstorInfo : (setXinuse s i b).xrstorInfo = s.xrstorInfo := rfl
@[simp] theorem setXinuse_mem : (setXinuse s i b).mem = s.mem := rfl
@[simp] theorem setXinuse_pages : (setXinuse s i b).pages = s.pages := rfl
@[simp] theorem setXinuse_ioRanges : (setXinuse s i b).ioRanges = s.ioRanges := rfl
@[simp] theorem setXinuse_cfg : (setXinuse s i b).cfg = s.cfg := rfl
@[simp] theorem setXinuse_free : (setXinuse s i b).free = s.free := rfl

@[simp] theorem setComponent_gpr : (setComponent s i bytes).gpr = s.gpr := rfl
@[simp] theorem setComponent_rip : (setComponent s i bytes).rip = s.rip := rfl
@[simp] theorem setComponent_rflags : (setComponent s i bytes).rflags = s.rflags := rfl
@[simp] theorem setComponent_cr0 : (setComponent s i bytes).cr0 = s.cr0 := rfl
@[simp] theorem setComponent_cr4 : (setComponent s i bytes).cr4 = s.cr4 := rfl
@[simp] theorem setComponent_xcr0 : (setComponent s i bytes).xcr0 = s.xcr0 := rfl
@[simp] theorem setComponent_ia32Xss : (setComponent s i bytes).ia32Xss = s.ia32Xss := rfl
@[simp] theorem setComponent_cpl : (setComponent s i bytes).cpl = s.cpl := rfl
@[simp] theorem setComponent_mode : (setComponent s i bytes).mode = s.mode := rfl
@[simp] theorem setComponent_inVmxNonRoot : (setComponent s i bytes).inVmxNonRoot = s.inVmxNonRoot := rfl
@[simp] theorem setComponent_debugArmed : (setComponent s i bytes).debugArmed = s.debugArmed := rfl
@[simp] theorem setComponent_segs : (setComponent s i bytes).segs = s.segs := rfl
@[simp] theorem setComponent_x87 : (setComponent s i bytes).x87 = s.x87 := rfl
@[simp] theorem setComponent_sse : (setComponent s i bytes).sse = s.sse := rfl
@[simp] theorem setComponent_ext : (setComponent s i bytes).ext = s.ext.setIfInBounds i bytes := rfl
@[simp] theorem setComponent_xinuse : (setComponent s i bytes).xinuse = s.xinuse := rfl
@[simp] theorem setComponent_xmodifiedBv : (setComponent s i bytes).xmodifiedBv = s.xmodifiedBv := rfl
@[simp] theorem setComponent_xrstorInfo : (setComponent s i bytes).xrstorInfo = s.xrstorInfo := rfl
@[simp] theorem setComponent_mem : (setComponent s i bytes).mem = s.mem := rfl
@[simp] theorem setComponent_pages : (setComponent s i bytes).pages = s.pages := rfl
@[simp] theorem setComponent_ioRanges : (setComponent s i bytes).ioRanges = s.ioRanges := rfl
@[simp] theorem setComponent_cfg : (setComponent s i bytes).cfg = s.cfg := rfl
@[simp] theorem setComponent_free : (setComponent s i bytes).free = s.free := rfl

end Tracking

section FaultLeft
variable (s new : State)

/-- A precise fault leaves the state it found (R132). -/
theorem faultLeft_precise (h : s.cfg.faultAtomicity = .precise) : faultLeft s new = s := by
  simp [faultLeft, h]

@[simp] theorem faultLeft_gpr : (faultLeft s new).gpr = s.gpr := by
  unfold faultLeft; split <;> rfl
@[simp] theorem faultLeft_rip : (faultLeft s new).rip = s.rip := by
  unfold faultLeft; split <;> rfl
@[simp] theorem faultLeft_rflags : (faultLeft s new).rflags = s.rflags := by
  unfold faultLeft; split <;> rfl
@[simp] theorem faultLeft_cr0 : (faultLeft s new).cr0 = s.cr0 := by
  unfold faultLeft; split <;> rfl
@[simp] theorem faultLeft_cr4 : (faultLeft s new).cr4 = s.cr4 := by
  unfold faultLeft; split <;> rfl
@[simp] theorem faultLeft_xcr0 : (faultLeft s new).xcr0 = s.xcr0 := by
  unfold faultLeft; split <;> rfl
@[simp] theorem faultLeft_ia32Xss : (faultLeft s new).ia32Xss = s.ia32Xss := by
  unfold faultLeft; split <;> rfl
@[simp] theorem faultLeft_cpl : (faultLeft s new).cpl = s.cpl := by
  unfold faultLeft; split <;> rfl
@[simp] theorem faultLeft_mode : (faultLeft s new).mode = s.mode := by
  unfold faultLeft; split <;> rfl
@[simp] theorem faultLeft_inVmxNonRoot : (faultLeft s new).inVmxNonRoot = s.inVmxNonRoot := by
  unfold faultLeft; split <;> rfl
@[simp] theorem faultLeft_debugArmed : (faultLeft s new).debugArmed = s.debugArmed := by
  unfold faultLeft; split <;> rfl
@[simp] theorem faultLeft_segs : (faultLeft s new).segs = s.segs := by
  unfold faultLeft; split <;> rfl
@[simp] theorem faultLeft_mem : (faultLeft s new).mem = s.mem := by
  unfold faultLeft; split <;> rfl
@[simp] theorem faultLeft_pages : (faultLeft s new).pages = s.pages := by
  unfold faultLeft; split <;> rfl
@[simp] theorem faultLeft_ioRanges : (faultLeft s new).ioRanges = s.ioRanges := by
  unfold faultLeft; split <;> rfl
@[simp] theorem faultLeft_cfg : (faultLeft s new).cfg = s.cfg := by
  unfold faultLeft; split <;> rfl

end FaultLeft

/-! The views of unchanged fields. -/

section Views
variable (w : Bool) (op : Operand) (m : Masks) (f : Nat → Byte) (s : State)

@[simp] theorem commitWith_gprOf (k : BitVec 4) : gprOf (commitWith w op m f s) k = gprOf s k := by
  rfl
@[simp] theorem commitWith_segOf (r : SegReg) : segOf (commitWith w op m f s) r = segOf s r := by
  cases r <;> rfl
@[simp] theorem commitWith_cplOf : cplOf (commitWith w op m f s) = cplOf s := rfl
@[simp] theorem commitWith_codeCtx : codeCtx (commitWith w op m f s) = codeCtx s := rfl
@[simp] theorem commitWith_ipWidth : ipWidth (commitWith w op m f s) = ipWidth s := rfl

end Views

end Sys2Proof.Machine
end

