-- ==== Sys2Proof/Laws/Checks.lean ====
section
/-! SUPPORT. What each check and the shared procedure can answer, said once. -/

namespace Sys2Proof.Machine

@[simp] theorem Check.faultIf_eq_pass (c : Bool) (e : Exc) : Check.faultIf c e = .pass ↔ c = false := by
  cases c <;> simp [Check.faultIf]

@[simp] theorem Check.refuseIf_eq_pass (c : Bool) (r : Refusal) : Check.refuseIf c r = .pass ↔ c = false := by
  cases c <;> simp [Check.refuseIf]

@[simp] theorem Check.faultIf_eq_fault (c : Bool) (e e' : Exc) :
    Check.faultIf c e = .fault e' ↔ c = true ∧ e = e' := by
  cases c <;> simp [Check.faultIf]

@[simp] theorem Check.refuseIf_ne_fault (c : Bool) (r : Refusal) (e : Exc) :
    Check.refuseIf c r ≠ .fault e := by
  cases c <;> simp [Check.refuseIf]

@[simp] theorem Check.faultIf_ne_refuse (c : Bool) (e : Exc) (r : Refusal) :
    Check.faultIf c e ≠ .refuse r := by
  cases c <;> simp [Check.faultIf]

@[simp] theorem Check.refuseIf_eq_refuse (c : Bool) (r r' : Refusal) :
    Check.refuseIf c r = .refuse r' ↔ c = true ∧ r = r' := by
  cases c <;> simp [Check.refuseIf]

@[simp] theorem Check.first_nil : Check.first [] = .pass := rfl

/-- A check that passes hands over to the next. -/
theorem Check.first_cons_pass {c : Check} (h : c = .pass) (t : List Check) :
    Check.first (c :: t) = Check.first t := by subst h; rfl

/-- A list of checks passes exactly when each of them does. -/
theorem Check.first_eq_pass {l : List Check} : Check.first l = .pass ↔ ∀ c ∈ l, c = .pass := by
  induction l with
  | nil => simp
  | cons c t ih => cases c <;> simp [Check.first, ih]

/-- Checks in a row: those behind count only where those in front pass. -/
theorem Check.first_append (l l' : List Check) :
    Check.first (l ++ l') = if Check.first l = .pass then Check.first l' else Check.first l := by
  induction l with
  | nil => simp
  | cons c t ih =>
    cases c
    · exact ih
    · rfl
    · rfl

/-- A fault reported by a list of checks is the fault of one of them. -/
theorem Check.mem_of_first_eq_fault {l : List Check} {e : Exc} (h : Check.first l = .fault e) : .fault e ∈ l := by
  induction l with
  | nil => simp at h
  | cons c t ih => cases c <;> simp_all [Check.first]

/-- A refusal reported by a list of checks is the refusal of one of them. -/
theorem Check.mem_of_first_eq_refuse {l : List Check} {r : Refusal} (h : Check.first l = .refuse r) :
    .refuse r ∈ l := by
  induction l with
  | nil => simp at h
  | cons c t ih => cases c <;> simp_all [Check.first]

/-- What the procedure answers when it answers a next state: every check passed, and it committed. -/
theorem xrstorsExec_eq_next {w : Bool} {op : Operand} {s t : State} :
    xrstorsExec w op s = .next t ↔
      Check.first (launchChecks s op ++ earlyChecks s op) = .pass ∧ Check.first (lateChecks s op) = .pass ∧
        t = commit w op s := by
  unfold xrstorsExec
  split
  · rename_i h; simp [h]
  · rename_i h; simp [h, raise]
  · rename_i h
    split
    · rename_i h'; simp [h, h']
    · rename_i h'; simp [h, h', raise]
    · rename_i h'; simp [h, h', eq_comm]

/-- What the procedure answers when it faults: the first early check that does not pass, leaving the state as it
was; or, all early checks passing, the first late one, leaving `faultLeft`. -/
theorem xrstorsExec_eq_fault {w : Bool} {op : Operand} {s left : State} {r : ExcRecord} :
    xrstorsExec w op s = .fault (.exception r left) ↔
      ∃ e, r = ⟨e.vector, e.errorCode, pcOf s, e.address⟩ ∧
        ((Check.first (launchChecks s op ++ earlyChecks s op) = .fault e ∧ left = s) ∨
          (Check.first (launchChecks s op ++ earlyChecks s op) = .pass ∧
            Check.first (lateChecks s op) = .fault e ∧ left = faultLeft s (commit w op s))) := by
  unfold xrstorsExec
  split
  · simp_all
  · rename_i e he
    simp only [raise, Host.Outcome.fault.injEq, Fault.exception.injEq, he, Check.fault.injEq]
    constructor
    · rintro ⟨rfl, rfl⟩; exact ⟨e, rfl, .inl ⟨rfl, rfl⟩⟩
    · rintro ⟨e', rfl, h | h⟩
      · obtain ⟨rfl, rfl⟩ := h; exact ⟨rfl, rfl⟩
      · exact absurd h.1 (by simp)
  · rename_i hp
    split
    · simp_all
    · rename_i e he
      simp only [raise, Host.Outcome.fault.injEq, Fault.exception.injEq, hp, he, Check.fault.injEq]
      constructor
      · rintro ⟨rfl, rfl⟩; exact ⟨e, rfl, .inr ⟨trivial, rfl, rfl⟩⟩
      · rintro ⟨e', rfl, h | h⟩
        · exact absurd h.1 (by simp)
        · obtain ⟨-, rfl, rfl⟩ := h; exact ⟨rfl, rfl⟩
    · simp_all

/-- What the procedure answers when it refuses: the first check of either list that does not pass is a refusal. -/
theorem xrstorsExec_eq_refused {w : Bool} {op : Operand} {s : State} {r : Refusal} :
    xrstorsExec w op s = .refused r ↔
      Check.first (launchChecks s op ++ earlyChecks s op) = .refuse r ∨
        (Check.first (launchChecks s op ++ earlyChecks s op) = .pass ∧
          Check.first (lateChecks s op) = .refuse r) := by
  unfold xrstorsExec raise
  split
  · rename_i h; simp [h]
  · rename_i h; simp [h]
  · rename_i h
    split <;> rename_i h' <;> simp [h, h']

/-- The two meanings are the shared procedure on well-formed terms (R80, R81). -/
theorem exec_of_wellFormed {i : Instr} {s : State} (h : i.wellFormed (codeCtx s) = true) :
    exec i s = xrstorsExec i.w (instrOperand s i) s := by
  cases i <;> simp only [exec, execXrstors, execXrstors64, h] <;> rfl

/-- A term with no encoding in the present mode is refused. -/
theorem exec_of_not_wellFormed {i : Instr} {s : State} (h : i.wellFormed (codeCtx s) = false) :
    exec i s = .refused .notEncodable := by
  cases i <;> simp only [exec, execXrstors, execXrstors64, h] <;> rfl

/-- What an instruction answers when it answers a next state. -/
theorem exec_eq_next {i : Instr} {s t : State} :
    exec i s = .next t ↔
      i.wellFormed (codeCtx s) = true ∧
        Check.first (launchChecks s (instrOperand s i) ++ earlyChecks s (instrOperand s i)) = .pass ∧
        Check.first (lateChecks s (instrOperand s i)) = .pass ∧ t = commit i.w (instrOperand s i) s := by
  cases h : i.wellFormed (codeCtx s)
  · simp [exec_of_not_wellFormed h]
  · simp [exec_of_wellFormed h, xrstorsExec_eq_next]

/-- No byte page-faults exactly when the page-fault list is empty. -/
theorem pageFaults_eq_nil {s : State} {la : Word} {lo len : Nat} :
    pageFaults s la lo len = [] ↔ ∀ k < len, ∀ code, areaRead s la (lo + k) ≠ .pageFault code := by
  simp only [pageFaults, List.filterMap_eq_nil_iff, List.mem_range]
  refine forall₂_congr fun k _ => ?_
  cases areaRead s la (lo + k) <;> simp

/-- Every page fault of the list is one byte's, with its linear address and code. -/
theorem mem_pageFaults {s : State} {la : Word} {lo len : Nat} {f : ErrorCode × Word}
    (h : f ∈ pageFaults s la lo len) :
    ∃ k < len, areaRead s la (lo + k) = .pageFault f.1 ∧ f.2 = linearAt s la (lo + k) := by
  simp only [pageFaults, List.mem_filterMap, List.mem_range] at h
  obtain ⟨k, hk, h⟩ := h
  refine ⟨k, hk, ?_⟩
  cases hr : areaRead s la (lo + k) <;> simp [hr] at h
  subst h; exact ⟨rfl, rfl⟩

/-- The read check passes exactly when every byte of the range can be read. -/
theorem readCheck_eq_pass {s : State} {la : Word} {lo len : Nat} :
    readCheck s la lo len = .pass ↔ ∀ k < len, ∃ b, areaRead s la (lo + k) = .byte b := by
  unfold readCheck
  split
  · rename_i f t h
    simp only [reduceCtorEq, false_iff]
    intro hb
    obtain ⟨k, hk, hr, -⟩ := mem_pageFaults (f := f) (h ▸ List.mem_cons_self)
    obtain ⟨b, hb⟩ := hb k hk
    simp [hb] at hr
  · rename_i h
    simp only [Check.refuseIf_eq_pass, List.any_eq_false, List.mem_range, beq_iff_eq]
    refine forall₂_congr fun k hk => ?_
    have hn := pageFaults_eq_nil.1 h k hk
    cases hr : areaRead s la (lo + k) <;> simp_all

/-- A page fault the read check reports is one byte's of the range, with its linear address and code. -/
theorem readCheck_eq_fault {s : State} {la : Word} {lo len : Nat} {e : Exc}
    (h : readCheck s la lo len = .fault e) :
    ∃ k < len, ∃ code, areaRead s la (lo + k) = .pageFault code ∧ e = excPf code (linearAt s la (lo + k)) := by
  unfold readCheck at h
  split at h
  · rename_i f t hl
    simp only [Check.fault.injEq] at h
    have hm : (f :: t).getD (Config.freePick s.free % (t.length + 1)) f ∈ pageFaults s la lo len := by
      rw [hl, List.getD_eq_getElem _ _ (by simpa using Nat.mod_lt _ (Nat.succ_pos _))]
      exact List.getElem_mem _
    obtain ⟨k, hk, hr, ha⟩ := mem_pageFaults hm
    exact ⟨k, hk, _, hr, by rw [← h, ha]⟩
  · simp at h

/-- A refusal of the read check: no byte of the range page-faults and one lies in memory-mapped I/O (R50; log 42). -/
theorem readCheck_eq_refuse {s : State} {la : Word} {lo len : Nat} {r : Refusal} :
    readCheck s la lo len = .refuse r ↔
      (∀ k < len, ∀ code, areaRead s la (lo + k) ≠ .pageFault code) ∧
        (∃ k < len, areaRead s la (lo + k) = .device) ∧ r = .deviceMemory := by
  rw [← pageFaults_eq_nil]
  unfold readCheck
  split
  · rename_i h; simp [h]
  · rename_i h
    simp only [Check.refuseIf_eq_refuse, List.any_eq_true, List.mem_range, beq_iff_eq, h, true_and,
      @eq_comm _ Refusal.deviceMemory]

/-- The range check refuses nothing. -/
theorem rangeCheck_ne_refuse (s : State) (op : Operand) (len : Nat) (r : Refusal) :
    rangeCheck s op len ≠ .refuse r := by
  have h : ∀ c c' e e', Check.first [.faultIf c e, .faultIf c' e'] ≠ .refuse r := by
    intro c c' e e'; cases c <;> cases c' <;> simp [Check.first, Check.faultIf]
  unfold rangeCheck
  cases s.mode <;> first | exact Check.faultIf_ne_refuse _ _ _ | exact h _ _ _ _

/-- The range check passes exactly when every offset lies in the operand's range. -/
theorem rangeCheck_eq_pass {s : State} {op : Operand} {len : Nat} (hl : 0 < len) :
    rangeCheck s op len = .pass ↔ ∀ k < len, OffsetInRange s op k := by
  unfold rangeCheck OffsetInRange
  cases s.mode <;>
    simp only [Check.first_eq_pass, List.mem_cons, List.not_mem_nil, or_false, forall_eq_or_imp, forall_eq,
      Check.faultIf_eq_pass, Bool.not_eq_false', List.all_eq_true, List.mem_range, decide_eq_false_iff_not,
      Bool.or_eq_false_iff]
  · constructor
    · intro h k hk; omega
    · intro h; have := h (len - 1) (by omega); omega
  all_goals
    constructor
    · rintro ⟨⟨h1, h2⟩, h3⟩ k hk; exact ⟨h1, h2, h3 k hk⟩
    · intro h; exact ⟨⟨(h 0 hl).1, (h 0 hl).2.1⟩, fun k hk => (h k hk).2.2⟩

end Sys2Proof.Machine
end

