-- ==== Sys2Proof/Laws/Memory.lean ====
section
/-! SUPPORT. Memory: a read after a write, and the canonical form that every memory operation keeps. -/

namespace Sys2Proof.Machine

theorem Memory.wf_nil : Memory.wf [] = true := rfl

theorem Memory.wf_cons_iff (a : Nat) (b : Byte) (t : Memory) :
    Memory.wf ((a, b) :: t) = true ↔ b ≠ unlistedByte ∧ (∀ c ∈ t, a < c.1) ∧ Memory.wf t = true := by
  simp [Memory.wf, and_assoc]

/-- Putting a cell in front of cells with higher addresses keeps the canonical form. -/
theorem Memory.wf_cons {a : Nat} {b : Byte} {t : Memory} (ht : Memory.wf t = true) (hl : ∀ c ∈ t, a < c.1) :
    Memory.wf (Memory.cons a b t) = true := by
  unfold Memory.cons
  split
  · exact ht
  · rename_i h; exact (Memory.wf_cons_iff a b t).2 ⟨h, hl, ht⟩

theorem Memory.mem_cons {a : Nat} {b : Byte} {t : Memory} {c : Host.Cell} (h : c ∈ Memory.cons a b t) :
    c = (a, b) ∨ c ∈ t := by
  unfold Memory.cons at h
  split at h
  · exact .inr h
  · simpa using h

/-- A cell of the written memory is the written one or an old one. -/
theorem Memory.mem_write {m : Memory} {a : Nat} {b : Byte} {c : Host.Cell} (h : c ∈ Memory.write m a b) :
    c = (a, b) ∨ c ∈ m := by
  induction m with
  | nil => simpa using Memory.mem_cons h
  | cons d t ih =>
    obtain ⟨a', b'⟩ := d
    simp only [Memory.write] at h
    split at h
    · exact Memory.mem_cons h
    · split at h
      · rcases Memory.mem_cons h with h | h
        · exact .inl h
        · exact .inr (List.mem_cons_of_mem _ h)
      · rcases List.mem_cons.1 h with h | h
        · exact .inr (h ▸ List.mem_cons_self)
        · rcases ih h with h | h
          · exact .inl h
          · exact .inr (List.mem_cons_of_mem _ h)

/-- A write keeps the canonical form. -/
theorem Memory.wf_write {m : Memory} (h : Memory.wf m = true) (a : Nat) (b : Byte) :
    Memory.wf (Memory.write m a b) = true := by
  induction m with
  | nil => exact Memory.wf_cons rfl (by simp)
  | cons d t ih =>
    obtain ⟨a', b'⟩ := d
    obtain ⟨hb, hl, ht⟩ := (Memory.wf_cons_iff a' b' t).1 h
    simp only [Memory.write]
    split
    · rename_i ha
      refine Memory.wf_cons h fun c hc => ?_
      rcases List.mem_cons.1 hc with rfl | hc
      · exact ha
      · exact lt_trans ha (hl c hc)
    · split
      · rename_i ha; subst ha; exact Memory.wf_cons ht hl
      · rename_i h1 h2
        refine (Memory.wf_cons_iff a' b' _).2 ⟨hb, fun c hc => ?_, ih ht⟩
        rcases Memory.mem_write hc with rfl | hc
        · simp only; omega
        · exact hl c hc

/-- Writing a list of bytes keeps the canonical form. -/
theorem Memory.wf_writeBytes {m : Memory} (h : Memory.wf m = true) (a : Nat) (bs : List Byte) :
    Memory.wf (Memory.writeBytes m a bs) = true := by
  induction bs generalizing m a with
  | nil => exact h
  | cons b t ih => exact ih (Memory.wf_write h a b) (a + 1)

/-- Placing instruction bytes keeps the canonical form. -/
theorem placeBytes_wf (s : State) (k : Nat) (bs : List Byte) {m : Memory} (h : Memory.wf m = true) :
    Memory.wf (placeBytes s k bs m) = true := by
  induction bs generalizing m k with
  | nil => exact h
  | cons b t ih =>
    simp only [placeBytes]
    split
    · exact ih _ (Memory.wf_write h _ _)
    · exact ih _ h

theorem withFetchWord_wf {s : State} (h : Memory.wf s.mem = true) (nbits w : Nat) :
    Memory.wf (s.withFetchWord nbits w).mem = true := placeBytes_wf _ _ _ h

theorem reset_mem_wf : Memory.wf State.reset.mem = true := rfl

/-- An address below every listed one reads as unlisted. -/
theorem Memory.read_of_lt {t : Memory} {a : Nat} (h : ∀ c ∈ t, a < c.1) : Memory.read t a = unlistedByte := by
  induction t with
  | nil => rfl
  | cons c t ih =>
    obtain ⟨a', b'⟩ := c
    have := h (a', b') List.mem_cons_self
    simp only [Memory.read]
    rw [if_neg (by simp only at this; omega)]
    exact ih fun c hc => h c (List.mem_cons_of_mem _ hc)

theorem Memory.read_cons {a a' : Nat} {b : Byte} {t : Memory} (h : ∀ c ∈ t, a < c.1) :
    Memory.read (Memory.cons a b t) a' = if a' = a then b else Memory.read t a' := by
  unfold Memory.cons
  split
  · rename_i hb
    split
    · rename_i ha; subst ha; rw [Memory.read_of_lt h, hb]
    · rfl
  · rfl

/-- A read after a write gives the byte written, and every other address reads as before. -/
theorem Memory.read_write {m : Memory} (h : Memory.wf m = true) (a a' : Nat) (b : Byte) :
    Memory.read (Memory.write m a b) a' = if a' = a then b else Memory.read m a' := by
  induction m with
  | nil => exact Memory.read_cons (by simp)
  | cons d t ih =>
    obtain ⟨c, b'⟩ := d
    obtain ⟨-, hl, ht⟩ := (Memory.wf_cons_iff c b' t).1 h
    simp only [Memory.write]
    split
    · rename_i ha
      refine Memory.read_cons fun x hx => ?_
      rcases List.mem_cons.1 hx with rfl | hx
      · exact ha
      · exact lt_trans ha (hl x hx)
    · split
      · rename_i ha
        subst ha
        rw [Memory.read_cons hl]
        simp only [Memory.read]
        split <;> rfl
      · rename_i h1 h2
        simp only [Memory.read, ih ht]
        split
        · rename_i h3; rw [if_neg (by omega)]
        · rfl

/-- Bytes placed where the fetch reads consecutive physical addresses are read there, and no other address changes. -/
theorem placeBytes_read (s : State) (base : Nat) (bs : List Byte) (k : Nat) {m : Memory} (hw : Memory.wf m = true)
    (ht : ∀ j, k ≤ j → j < k + bs.length →
      translate s (fetchAddress s j) (fetchSupervisor s) = .phys (base + j)) (a : Nat) :
    Memory.read (placeBytes s k bs m) a =
      if base + k ≤ a ∧ a < base + k + bs.length then bs.getD (a - base - k) 0 else Memory.read m a := by
  induction bs generalizing k m with
  | nil => simp [placeBytes]
  | cons b t ih =>
    simp only [List.length_cons] at ht
    simp only [placeBytes, ht k (by omega) (by omega)]
    rw [ih (k + 1) (Memory.wf_write hw _ _) (fun j h1 h2 => ht j (by omega) (by omega)), Memory.read_write hw]
    simp only [List.length_cons]
    by_cases h : a = base + k
    · subst h; rw [if_neg (by omega), if_pos rfl, if_pos (by omega)]; simp
    · by_cases h2 : base + k ≤ a ∧ a < base + k + (t.length + 1)
      · rw [if_pos (by omega), if_pos h2, show a - base - k = (a - base - (k + 1)) + 1 by omega]; simp
      · rw [if_neg (by omega), if_neg h, if_neg h2]

end Sys2Proof.Machine
end

