-- ==== Sys2Proof/Laws/PerInstr.lean ====
section
/-! SUPPORT. Families of statements about instructions as syntax, one lemma per constructor (LAWS.json). -/

namespace Sys2Proof.Laws

theorem length_bytes16 (v : BitVec 16) : (bytes16 v).length = 2 := rfl

theorem length_bytes32 (v : BitVec 32) : (bytes32 v).length = 4 := rfl

theorem length_disp16 (d : Disp16) : d.bytes.length = d.size := by cases d <;> rfl

theorem length_disp (d : Disp) : d.bytes.length = d.size := by cases d <;> rfl

/-- ModRM, SIB and displacement bytes together are one more than the bytes after ModRM (R75). -/
theorem length_encodeMem (m : Mem) : (encodeMem m).length = m.tailLength + 1 := by
  cases m
  all_goals
    simp only [encodeMem, Mem.tailLength, List.length_cons, length_disp16, length_disp, length_bytes16, length_bytes32]
    try omega

/-- The encoding of an instruction has the length R75 gives it. -/
def EncodeLength.Statement (i : Instr) : Prop := (encode i).length = i.length

theorem EncodeLength.xrstors (ps : List Prefix) (rex : Option Rex) (m : Mem) :
    EncodeLength.Statement (.xrstors ps rex m) := by
  unfold EncodeLength.Statement
  cases rex <;>
    simp [encode, Instr.length, instrLength, Instr.rexBytes, Instr.prefixes, Instr.rex, Instr.mem,
      length_encodeMem] <;> omega

theorem EncodeLength.xrstors64 (ps : List Prefix) (rex : Rex) (m : Mem) :
    EncodeLength.Statement (.xrstors64 ps rex m) := by
  unfold EncodeLength.Statement
  simp [encode, Instr.length, instrLength, Instr.rexBytes, Instr.prefixes, Instr.rex, Instr.mem, length_encodeMem]
  omega

end Sys2Proof.Laws
end

