-- ==== Sys2Proof/Certificates/Slice0/Obligations.lean ====
section
/-! DEFINITION. The statements for the provers. `CanComplete s i` (Safety.lean) is R151's list of preconditions on the
state and the operand alone; `instrArea s i` is the area as bytes by offset (R40). A statement that answers
`∃ t, exec i s = .next t ∧ …` for every `i` speaks of both constructors of Instr. -/

open Sys2Proof Sys2Proof.Machine

/-! ### Decoding and encoding -/

/-- Words of spec/95 section 2.1 (E1, E2, E4, E5, E12, E23, E26) decode to the instructions they stand for
(R71 to R74, R78). -/
def Obligations.SpecWordsDecode : Prop :=
  decode ctx64 [0x0F, 0xC7, 0x1F] = .ok (.xrstors [] none (.based 7 .none), []) ∧
  decode ctx64 [0x48, 0x0F, 0xC7, 0x1F] = .ok (.xrstors64 [] ⟨false, false, false⟩ (.based 7 .none), []) ∧
  decode ctx64 [0x0F, 0xC7, 0x5D, 0x40] = .ok (.xrstors [] none (.based 5 (.d8 0x40)), []) ∧
  decode ctx64 [0x0F, 0xC7, 0x1C, 0x24] = .ok (.xrstors [] none (.sib 0 4 4 .none), []) ∧
  decode ctx64 [0x0F, 0xC7, 0x9C, 0x8B, 0x00, 0xFC, 0x00, 0x00] =
    .ok (.xrstors [] none (.sib 2 1 3 (.d32 0xFC00)), []) ∧
  decode ctx64 [0x48, 0x64, 0x0F, 0xC7, 0x1F] =
    .ok (.xrstors [.rexIgnored 8, .seg .fs] none (.based 7 .none), []) ∧
  decode ctxReal [0x0F, 0xC7, 0x1E, 0x00, 0x40] = .ok (.xrstors [] none (.disp16 0x4000), [])

/-- Decode and encode agree, one way: every well-formed instruction, with any bytes after it, decodes to itself. -/
def Obligations.EncodeThenDecodeGivesTheInstruction : Prop :=
  ∀ (c : CodeCtx) (i : Instr) (tail : List Byte), i.wellFormed c = true →
    decode c (encode i ++ tail) = .ok (i, tail)

/-- Decode and encode agree, the other way: what the decoder accepts is the encoding of a well-formed instruction, so
no accepted bit is dropped. -/
def Obligations.DecodedBytesAreTheEncoding : Prop :=
  ∀ (c : CodeCtx) (bytes : List Byte) (i : Instr) (rest : List Byte), decode c bytes = .ok (i, rest) →
    encode i ++ rest = bytes ∧ i.wellFormed c = true

/-- R65, R75, R78: an accepted instruction has 3 to 15 bytes, XRSTORS64 at least 4, and after its prefixes and REX the
bytes 0F C7 and a ModRM byte with (m AND 38H) = 18H and (m AND C0H) != C0H. -/
def Obligations.AcceptedBytesMatchTheTablePattern : Prop :=
  ∀ (c : CodeCtx) (bytes : List Byte) (i : Instr) (rest : List Byte), decode c bytes = .ok (i, rest) →
    (3 ≤ i.length ∧ i.length ≤ 15) ∧ (i.w = true → 4 ≤ i.length) ∧
    ∃ m : Byte, ∃ tail : List Byte,
      bytes = i.prefixes.map encodePrefix ++ i.rexBytes ++ 0x0F :: 0xC7 :: m :: tail ∧
      m &&& 0x38 = 0x18 ∧ m &&& 0xC0 ≠ 0xC0

/-- R67, R69, R79: 0F C7 /3 with mod = 11, or behind 66, F2 or F3, is invalid, and 0F C7 /n with n other than 3 is
refused by name. -/
def Obligations.UnassignedFormsAreNotXrstors : Prop :=
  ∀ (c : CodeCtx) (m : Byte) (tail : List Byte),
    (m &&& 0x38 ≠ 0x18 → decode c (0x0F :: 0xC7 :: m :: tail) = .error (.notXrstorsReg (fieldMid m))) ∧
    (m &&& 0x38 = 0x18 → m &&& 0xC0 = 0xC0 → decode c (0x0F :: 0xC7 :: m :: tail) = .error .registerForm) ∧
    (∀ p : Byte, p = 0x66 ∨ p = 0xF2 ∨ p = 0xF3 → m &&& 0x38 = 0x18 →
      decode c (p :: 0x0F :: 0xC7 :: m :: tail) = .error .npViolated)

/-- R3, R64: outside 64-bit mode no REX byte is read, so XRSTORS64 is never decoded there. -/
def Obligations.NoRexOutside64BitMode : Prop :=
  ∀ (c : CodeCtx) (bytes : List Byte) (i : Instr) (rest : List Byte), c.bits64 = false →
    decode c bytes = .ok (i, rest) → ∃ ps m, i = .xrstors ps none m ∧ ∀ w, .rexIgnored w ∉ ps

/-! ### Operand and address -/

/-- R70 to R73, for every operand form, displacement, prefix list and mode: the effective address is the form's sum at
the address size A, with each register cut to A bits and the sum taken modulo 2^A, zero-extended. `addressWidth` is
R70's A, and `addressForm` is the table of R71, R72 and R73 (the tables are the spec's general knowledge; log 37). -/
def Obligations.EffectiveAddressForms : Prop :=
  ∀ (s : State) (ps : List Prefix) (rex : Option Rex) (m : Mem),
    effectiveAddress s ps rex m =
      (addressForm s rex (s.rip + BitVec.ofNat 64 (instrLength ps rex m)) (addressWidth s ps) m).setWidth 64

/-- R74, R64: with no override the segment is SS for a base of rSP or rBP and for the 16-bit forms with BP, and DS for
every other form; a prefix that is no override changes nothing; the last override replaces the segment, but in 64-bit
mode one of CS, SS, DS or ES is ignored (log 28). -/
def Obligations.OperandSegmentSelection : Prop :=
  ∀ s : State,
    (∀ rex rm d, operandSeg s [] rex (.based rm d) =
      if (rm = 4 ∨ rm = 5) ∧ rexB rex = false then .ss else .ds) ∧
    (∀ rex sc ix b d, operandSeg s [] rex (.sib sc ix b d) =
      if (b = 4 ∨ b = 5) ∧ rexB rex = false then .ss else .ds) ∧
    (∀ rex b d, operandSeg s [] rex (.addr16 b d) =
      if b = .bpSi ∨ b = .bpDi ∨ b = .bp then .ss else .ds) ∧
    (∀ rex sc ix v, operandSeg s [] rex (.sibDisp32 sc ix v) = .ds) ∧
    (∀ rex v, operandSeg s [] rex (.disp32 v) = .ds) ∧
    (∀ rex v, operandSeg s [] rex (.disp16 v) = .ds) ∧
    (∀ ps p rex m, (∀ r, p ≠ .seg r) → operandSeg s (ps ++ [p]) rex m = operandSeg s ps rex m) ∧
    (∀ ps r rex m, s.mode ≠ .bits64 → operandSeg s (ps ++ [.seg r]) rex m = r) ∧
    (∀ ps r rex m, s.mode = .bits64 →
      operandSeg s (ps ++ [.seg r]) rex m = if r = .fs ∨ r = .gs then r else operandSeg s ps rex m)

/-- R48, R40, R49, R50: what LAXA is, and which byte of memory the area's byte k is. LAXA is segment base plus effective
address modulo 2^32 outside 64-bit mode; in 64-bit mode the base is FS.base or GS.base for FS and GS and 0 for the other
segments. Byte k lies at the linear address LAXA + k (wrapping, log 35), and it is the byte of memory at the physical
address this translates to for a supervisor read, if that is no memory-mapped I/O (logs 21 and 22). R41: the header's
two fields are bytes 512..519 (XSTATE_BV) and 520..527 (XCOMP_BV), the lowest byte least significant (D3, log 9; D2, log 8).
AREA_SIZE is R43's for XCOMP_BV with bit 63 cleared. -/
def Obligations.LinearAddressAndAreaBytes : Prop :=
  (∀ (i : Instr) (s : State),
    let op := instrOperand s i
    op.seg = operandSeg s i.prefixes i.rex i.mem ∧ op.ea = effectiveAddress s i.prefixes i.rex i.mem ∧
    (s.mode ≠ .bits64 → op.laxa.toNat = ((segOf s op.seg).base.toNat + op.ea.toNat) % 2 ^ 32) ∧
    (s.mode = .bits64 → op.seg = .fs ∨ op.seg = .gs → op.laxa = (segOf s op.seg).base + op.ea) ∧
    (s.mode = .bits64 → op.seg ≠ .fs → op.seg ≠ .gs → op.laxa = op.ea) ∧
    ∀ k : Nat,
      let a : Word :=
        if s.mode = .bits64 then op.laxa + BitVec.ofNat 64 k else BitVec.ofNat 64 ((op.laxa.toNat + k) % 2 ^ 32)
      (∀ p, Machine.translate s a true = .phys p → isIo s p = false →
        areaRead s op.laxa k = .byte (Memory.read s.mem p) ∧ instrArea s i k = Memory.read s.mem p) ∧
      (∀ p, Machine.translate s a true = .phys p → isIo s p = true → areaRead s op.laxa k = .device) ∧
      (∀ code, Machine.translate s a true = .fault code → areaRead s op.laxa k = .pageFault code)) ∧
  (∀ f : Nat → Byte,
    xstateBvOf f = f 519 ++ f 518 ++ f 517 ++ f 516 ++ f 515 ++ f 514 ++ f 513 ++ f 512 ∧
    xcompBvOf f = f 527 ++ f 526 ++ f 525 ++ f 524 ++ f 523 ++ f 522 ++ f 521 ++ f 520) ∧
  ∀ (i : Instr) (s : State), operandAreaSize s (instrOperand s i) =
    areaSize s.cfg (xcompBvOf (instrArea s i) &&& 0x7FFFFFFFFFFFFFFF)

/-! ### The masks and the area -/

/-- R84, R85 bit by bit, for every header: COMPMASK is XCOMP_BV and RSTORMASK is XSTATE_BV, all 64 bits, FORMAT is
COMPMASK with bit 63 cleared, and the four working masks. -/
def Obligations.MasksBitByBit : Prop :=
  ∀ (s : State) (f : Nat → Byte),
    (masksOf s f).compmask = xcompBvOf f ∧ (masksOf s f).rstormask = xstateBvOf f ∧
    ∀ i < 64,
      (masksOf s f).format.getLsbD i = ((xcompBvOf f).getLsbD i && decide (i ≠ 63)) ∧
      (masksOf s f).restoreFeatures.getLsbD i = ((masksOf s f).format.getLsbD i && (rfbmOf s).getLsbD i) ∧
      (masksOf s f).toBeRestored.getLsbD i =
        ((rfbmOf s).getLsbD i && (masksOf s f).format.getLsbD i && (xstateBvOf f).getLsbD i) ∧
      (masksOf s f).forceInit.getLsbD i = ((rfbmOf s).getLsbD i && !(masksOf s f).format.getLsbD i) ∧
      (masksOf s f).toBeInitialized.getLsbD i =
        ((rfbmOf s).getLsbD i && (!(xstateBvOf f).getLsbD i || !(masksOf s f).format.getLsbD i))

/-- R86 (a) to (d): no component is both loaded and initialized, every requested one of 0..62 is either, and past
the header checks a component is initialized exactly when it is requested and not saved. -/
def Obligations.MaskFacts : Prop :=
  ∀ (s : State) (f : Nat → Byte),
    (masksOf s f).toBeRestored &&& (masksOf s f).toBeInitialized = 0 ∧
    (∀ i < 63, ((masksOf s f).toBeRestored ||| (masksOf s f).toBeInitialized).getLsbD i = (rfbmOf s).getLsbD i) ∧
    (masksOf s f).toBeRestored.getLsbD 63 = false ∧
    (masksOf s f).toBeInitialized.getLsbD 63 = (rfbmOf s).getLsbD 63 ∧
    (HeaderLegal s f → ∀ i < 63,
      (masksOf s f).toBeInitialized.getLsbD i = ((rfbmOf s).getLsbD i && !(xstateBvOf f).getLsbD i) ∧
      (masksOf s f).toBeRestored.getLsbD i = ((rfbmOf s).getLsbD i && (xstateBvOf f).getLsbD i))

/-- R43: with ALIGN64 = 0 everywhere OFFSET(i) is 576 plus the sizes of the slots in front of it (the page's own walk;
log 14). -/
def Obligations.PageWalkOffsets : Prop :=
  ∀ (c : Cfg) (format : Word), (∀ d ∈ c.comps, d.align64 = false) →
    (∀ i, 2 ≤ i → i ≤ 62 →
      offsetOf c format i =
        576 + (((List.range i).filter fun j => 2 ≤ j && format.getLsbD j).map (compSize c)).sum) ∧
    areaSize c format =
      576 + (((List.range 63).filter fun j => 2 ≤ j && format.getLsbD j).map (compSize c)).sum

/-- R43, with and without alignment: slots lie behind the header and inside the area, do not overlap and rise with i.
The first slot's place is 576 and a later one's is the end of the slot in front of it: an unaligned slot starts exactly
there, one with ALIGN64(i) = 1 at the first multiple of 64 at or after it. The area ends with its last slot, and at 576
where there is none (ALIGN64: log 14). -/
def Obligations.SlotsAreDisjointAndInside : Prop :=
  ∀ (c : Cfg) (format : Word),
    ((∀ i, 2 ≤ i → i ≤ 62 → format.getLsbD i = false) → areaSize c format = 576) ∧
    ∀ i, 2 ≤ i → i ≤ 62 → format.getLsbD i = true →
      576 ≤ offsetOf c format i ∧ offsetOf c format i + compSize c i ≤ areaSize c format ∧
      (∀ j, i < j → j ≤ 62 → format.getLsbD j = true →
        offsetOf c format i + compSize c i ≤ offsetOf c format j) ∧
      (∀ place,
        ((∀ j, 2 ≤ j → j < i → format.getLsbD j = false) ∧ place = 576 ∨
          ∃ j, 2 ≤ j ∧ j < i ∧ format.getLsbD j = true ∧
            (∀ k, j < k → k < i → format.getLsbD k = false) ∧ place = offsetOf c format j + compSize c j) →
        if ((compCfg c i).map CompCfg.align64).getD false = true then
          offsetOf c format i % 64 = 0 ∧ place ≤ offsetOf c format i ∧
            ∀ x, x % 64 = 0 → place ≤ x → offsetOf c format i ≤ x
        else offsetOf c format i = place) ∧
      ((∀ k, i < k → k ≤ 62 → format.getLsbD k = false) →
        areaSize c format = offsetOf c format i + compSize c i)

/-! ### A completed execution -/

/-- R80, R82, R100, R151: XRSTORS, in every operand form and every mode but virtual-8086 (there R151's preconditions
cannot hold, R137), answers a next state whenever R151's preconditions hold, with pc moved by the length of its encoding
(R100; that pc is as wide as `ipWidth` says and wraps at that width is the model's choice, log 27). -/
def Obligations.XrstorsCompletesWhenReady : Prop :=
  ∀ (ps : List Prefix) (rex : Option Rex) (m : Mem) (s : State), CanComplete s (.xrstors ps rex m) →
    ∃ t, exec (.xrstors ps rex m) s = .next t ∧
      pcOf t = lowBits (ipWidth s) (pcOf s + BitVec.ofNat 64 (encode (.xrstors ps rex m)).length) ∧
      t.xrstorInfo = ⟨0, false, (instrOperand s (.xrstors ps rex m)).laxa,
        xcompBvOf (instrArea s (.xrstors ps rex m))⟩

/-- R81, R82, R100, R151: the same of XRSTORS64, which can complete in 64-bit mode only (that rip + L wraps at 2^64 is
the model's choice, log 27). -/
def Obligations.Xrstors64CompletesWhenReady : Prop :=
  ∀ (ps : List Prefix) (rex : Rex) (m : Mem) (s : State), CanComplete s (.xrstors64 ps rex m) →
    s.mode = .bits64 ∧
    ∃ t, exec (.xrstors64 ps rex m) s = .next t ∧
      t.rip = s.rip + BitVec.ofNat 64 (encode (.xrstors64 ps rex m)).length ∧
      t.xrstorInfo = ⟨0, false, (instrOperand s (.xrstors64 ps rex m)).laxa,
        xcompBvOf (instrArea s (.xrstors64 ps rex m))⟩

/-- R151 both ways: an instruction completes exactly where every cause of R121 to R130 and of R103 and every refusal is
absent. The refusals it proves necessary are the spec's decisions and the model's choices: an encoding in the present
mode (log 36), not in VMX non-root operation (D19, log 24), no armed debug register and TF = 0 (R140, log 26), the
premise on XCR0 and IA32_XSS (D25, log 25), a segment base that is a multiple of 64 (D7, log 16) and no byte of the area
in memory-mapped I/O (R50, log 22). Of the faults, #GP(0) for a null or an unreadable segment in protected and
compatibility mode, which R48 gives as general knowledge, and the bounds of an expand-down segment, which no rule gives,
are the family's, PRESUMED (log 19). -/
def Obligations.CompletesExactlyWhenReady : Prop :=
  ∀ (i : Instr) (s : State), (∃ t, exec i s = .next t) ↔ CanComplete s i

/-- R83, R91: XMODIFIED_BV becomes NOT RFBM, all 64 bits, with RFBM = (XCR0 OR IA32_XSS) AND EDX:EAX. -/
def Obligations.XmodifiedBecomesNotRfbm : Prop :=
  ∀ (i : Instr) (s : State), CanComplete s i →
    ∃ t, exec i s = .next t ∧
      t.xmodifiedBv = ~~~((s.xcr0 ||| s.ia32Xss) &&& ((gprOf s 2).setWidth 32 ++ (gprOf s 0).setWidth 32))

/-- R90: a component with RFBM[i] = 0 is not updated: neither SC[i] nor XINUSE[i] changes, for every i in 0..62. -/
def Obligations.UnselectedComponentsAreNotUpdated : Prop :=
  ∀ (i : Instr) (s : State), CanComplete s i →
    ∃ t, exec i s = .next t ∧
      ((rfbmOf s).getLsbD 0 = false → t.x87 = s.x87) ∧
      ((rfbmOf s).getLsbD 1 = false → t.sse = s.sse) ∧
      (∀ c, 2 ≤ c → c < 63 → (rfbmOf s).getLsbD c = false → scOf t c = scOf s c) ∧
      (∀ c < 63, (rfbmOf s).getLsbD c = false → t.xinuse.getLsbD c = s.xinuse.getLsbD c)

/-- R30, R102: XINUSE[i] becomes XSTATE_BV[i] for a selected component, and bit 63 keeps its value (D24). -/
def Obligations.XinuseTracksLoadAndInit : Prop :=
  ∀ (i : Instr) (s : State), CanComplete s i →
    ∃ t, exec i s = .next t ∧ t.xinuse.getLsbD 63 = s.xinuse.getLsbD 63 ∧
      ∀ c < 63, (rfbmOf s).getLsbD c = true →
        t.xinuse.getLsbD c = (xstateBvOf (instrArea s i)).getLsbD c

/-- R35, R13, R99, R51: a completed execution leaves every general register, flag, control and system register, segment
register, the mode, the configuration, the translation and every byte of memory as they were. -/
def Obligations.FrameOfACompletedExecution : Prop :=
  ∀ (i : Instr) (s : State), CanComplete s i →
    ∃ t, exec i s = .next t ∧
      (∀ k, gprOf t k = gprOf s k) ∧ t.rflags = s.rflags ∧ t.cr0 = s.cr0 ∧ t.cr4 = s.cr4 ∧ t.xcr0 = s.xcr0 ∧
      t.ia32Xss = s.ia32Xss ∧ t.cpl = s.cpl ∧ t.mode = s.mode ∧ t.inVmxNonRoot = s.inVmxNonRoot ∧
      t.debugArmed = s.debugArmed ∧ (∀ r, segOf t r = segOf s r) ∧ t.pages = s.pages ∧
      t.ioRanges = s.ioRanges ∧ t.cfg = s.cfg ∧
      (∀ a, Memory.read t.mem a = Memory.read s.mem a) ∧
      (∀ la supervisor, readLinear t la supervisor = readLinear s la supervisor)

/-- R99: "Flags Affected: None.": no bit of EFLAGS (RFLAGS) changes, whether the instruction completes or faults. -/
def Obligations.NoFlagChanges : Prop :=
  ∀ (i : Instr) (s : State),
    (CanComplete s i → ∃ t, exec i s = .next t ∧ ∀ b < 64, t.rflags.getLsbD b = s.rflags.getLsbD b) ∧
    (∀ r left, exec i s = .fault (.exception r left) → ∀ b < 64, left.rflags.getLsbD b = s.rflags.getLsbD b)

/-! ### Component 0 -/

/-- R94, R44: what XRSTORS loads into the x87 control registers, byte by byte from the legacy region (W = 0; the layout
is the spec's decision D17, log 10). -/
def Obligations.X87LoadByXrstors : Prop :=
  ∀ (ps : List Prefix) (rex : Option Rex) (m : Mem) (s : State), CanComplete s (.xrstors ps rex m) →
    let f := instrArea s (.xrstors ps rex m)
    (rfbmOf s).getLsbD 0 = true → (xstateBvOf f).getLsbD 0 = true →
    ∃ t, exec (.xrstors ps rex m) s = .next t ∧
      t.x87.fcw = f 1 ++ f 0 ∧ t.x87.fsw = f 3 ++ f 2 ∧ t.x87.fop = (f 7 ++ f 6).setWidth 11 ∧
      t.x87.fip = (f 11 ++ f 10 ++ f 9 ++ f 8).setWidth 64 ∧ t.x87.fcs = f 13 ++ f 12 ∧
      t.x87.fdp = (f 19 ++ f 18 ++ f 17 ++ f 16).setWidth 64 ∧ t.x87.fds = f 21 ++ f 20

/-- R94, R44: the same of XRSTORS64 (W = 1), which reads FIP and FDP as 64-bit fields; nothing is said of FCS and FDS,
which are any value (U11; D17, logs 10 and 11). -/
def Obligations.X87LoadByXrstors64 : Prop :=
  ∀ (ps : List Prefix) (rex : Rex) (m : Mem) (s : State), CanComplete s (.xrstors64 ps rex m) →
    let f := instrArea s (.xrstors64 ps rex m)
    (rfbmOf s).getLsbD 0 = true → (xstateBvOf f).getLsbD 0 = true →
    ∃ t, exec (.xrstors64 ps rex m) s = .next t ∧
      t.x87.fcw = f 1 ++ f 0 ∧ t.x87.fsw = f 3 ++ f 2 ∧ t.x87.fop = (f 7 ++ f 6).setWidth 11 ∧
      t.x87.fip = f 15 ++ f 14 ++ f 13 ++ f 12 ++ f 11 ++ f 10 ++ f 9 ++ f 8 ∧
      t.x87.fdp = f 23 ++ f 22 ++ f 21 ++ f 20 ++ f 19 ++ f 18 ++ f 17 ++ f 16

/-- R94, R44, R26: after a load the j-th register from the top of the x87 stack holds the ten bytes at 32 + 16j, MMj is
the low half of physical register j whatever TOP is (PRESUMED, log 41), and the tag of physical register p is empty (11)
exactly where bit p of the abridged byte is 0 (D17, log 10). The tag of a register that is not empty says what the
register holds: zero (01), special (10) or valid (00); what makes it which is the family's, PRESUMED (log 12). -/
def Obligations.X87StackAndTagsAfterLoad : Prop :=
  ∀ (i : Instr) (s : State), CanComplete s i →
    let f := instrArea s i
    (rfbmOf s).getLsbD 0 = true → (xstateBvOf f).getLsbD 0 = true →
    ∃ t, exec i s = .next t ∧
      (∀ j < 8, ∀ b < 10, (stOf t j).extractLsb' (8 * b) 8 = f (32 + 16 * j + b)) ∧
      (∀ j : Fin 8, mmOf t j = (fprOf t j).extractLsb' 0 64) ∧
      (∀ p < 8, (t.x87.ftw.extractLsb' (2 * p) 2 = 3 ↔ (f 4).getLsbD p = false)) ∧
      (∀ p : Fin 8, (f 4).getLsbD p = true →
        t.x87.ftw.extractLsb' (2 * p.val) 2 =
          if (fprOf t p).extractLsb' 0 79 = 0 then 1
          else if (fprOf t p).extractLsb' 64 15 = 0 ∨ (fprOf t p).extractLsb' 64 15 = 0x7FFF ∨
            (fprOf t p).getLsbD 63 = false then 2
          else 0)

/-- R87, R96: a selected component 0 that is not saved gets the initial x87 state, whose values are the spec's
decision D16 (log 13). -/
def Obligations.X87InitialState : Prop :=
  ∀ (i : Instr) (s : State), CanComplete s i → (rfbmOf s).getLsbD 0 = true →
    (xstateBvOf (instrArea s i)).getLsbD 0 = false →
    ∃ t, exec i s = .next t ∧
      t.x87.fcw = 0x037F ∧ t.x87.fsw = 0 ∧ t.x87.ftw = 0xFFFF ∧ t.x87.fop = 0 ∧ t.x87.fip = 0 ∧
      t.x87.fcs = 0 ∧ t.x87.fdp = 0 ∧ t.x87.fds = 0 ∧ (∀ j < 8, stOf t j = 0)

/-! ### Component 1 -/

/-- R88, R95, R104: a selected and saved component 1 is loaded, MXCSR from offset 24 and XMMj from 160 + 16j: all
sixteen in 64-bit mode, XMM0..XMM7 outside it, where XMM8..XMM15 keep their values (offsets D17, log 10; D22, log 30). -/
def Obligations.SseLoad : Prop :=
  ∀ (i : Instr) (s : State), CanComplete s i →
    let f := instrArea s i
    (rfbmOf s).getLsbD 1 = true → (xstateBvOf f).getLsbD 1 = true →
    ∃ t, exec i s = .next t ∧ t.sse.mxcsr = f 27 ++ f 26 ++ f 25 ++ f 24 ∧
      (∀ j : Fin 16, (s.mode = .bits64 ∨ j.val < 8) →
        ∀ b < 16, (xmmOf t j).extractLsb' (8 * b) 8 = f (160 + 16 * j.val + b)) ∧
      (∀ j : Fin 16, s.mode ≠ .bits64 → 8 ≤ j.val → xmmOf t j = xmmOf s j)

/-- R88, R104: a selected component 1 that is not saved is initialized: MXCSR 1F80H and the XMM registers 0, less
XMM8..XMM15 outside 64-bit mode (D22, log 30). -/
def Obligations.SseInitialState : Prop :=
  ∀ (i : Instr) (s : State), CanComplete s i → (rfbmOf s).getLsbD 1 = true →
    (xstateBvOf (instrArea s i)).getLsbD 1 = false →
    ∃ t, exec i s = .next t ∧ t.sse.mxcsr = 0x1F80 ∧
      (∀ j : Fin 16, (s.mode = .bits64 ∨ j.val < 8) → xmmOf t j = 0) ∧
      (∀ j : Fin 16, s.mode ≠ .bits64 → 8 ≤ j.val → xmmOf t j = xmmOf s j)

/-! ### Components 2..62 -/

/-- R89, R97 in 64-bit mode: a selected and saved component holds its slot's n(i) bytes, a selected one that is not
saved holds INIT(i). -/
def Obligations.ExtendedComponentsIn64BitMode : Prop :=
  ∀ (i : Instr) (s : State), CanComplete s i → s.mode = .bits64 →
    let f := instrArea s i
    ∃ t, exec i s = .next t ∧ ∀ c, 2 ≤ c → c < 63 → (rfbmOf s).getLsbD c = true →
      ((xstateBvOf f).getLsbD c = true →
        (scOf t c).length = compSize s.cfg c ∧
        ∀ k < compSize s.cfg c,
          (scOf t c).getD k 0 = f (offsetOf s.cfg (xcompBvOf f &&& 0x7FFFFFFFFFFFFFFF) c + k)) ∧
      ((xstateBvOf f).getLsbD c = false → scOf t c = compInit s.cfg c)

/-- R89, R97, R104 outside 64-bit mode: the same of the bytes that do not belong to registers 8 and above, and those
that do keep their values (which bytes those are is CFG's; log 30). -/
def Obligations.ExtendedComponentsOutside64BitMode : Prop :=
  ∀ (i : Instr) (s : State), CanComplete s i → s.mode ≠ .bits64 → CfgWf s.cfg →
    let f := instrArea s i
    ∃ t, exec i s = .next t ∧ ∀ c, 2 ≤ c → c < 63 → (rfbmOf s).getLsbD c = true →
      (scOf t c).length = compSize s.cfg c ∧
      ∀ k < compSize s.cfg c,
        (isUpperByte s.cfg c k = true → (scOf t c).getD k 0 = (scOf s c).getD k 0) ∧
        (isUpperByte s.cfg c k = false →
          (scOf t c).getD k 0 =
            if (xstateBvOf f).getLsbD c then
              f (offsetOf s.cfg (xcompBvOf f &&& 0x7FFFFFFFFFFFFFFF) c + k)
            else (compInit s.cfg c).getD k 0)

/-! ### Whole-instruction results -/

/-- The page's Operation: in 64-bit mode, with no component aligned, the state a completed execution gives is the one
the page's pseudocode gives line by line (40_xrstors.md section 0), with pc moved (R100; that rip + L wraps at 2^64 is
the model's choice, log 27) and the model's own counter of free values at some value n, of which nothing is said. -/
def Obligations.ExecutionRefinesThePagesOperation : Prop :=
  ∀ (i : Instr) (s : State), CanComplete s i → s.mode = .bits64 → (∀ d ∈ s.cfg.comps, d.align64 = false) →
    ∃ n, exec i s = .next
      { operation i.w (instrOperand s i).laxa (instrArea s i) s with
        rip := s.rip + BitVec.ofNat 64 i.length
        free := n }

/-- R105, R81: XRSTORS64, and XRSTORS with the same prefixes, operand and REX bits but W = 0 (so of the same length).
Where component 0 is not loaded they answer the same, be it a next state, a fault or a refusal. Where it is, they differ in
component 0 alone: one completes where the other does, with the same state less FIP, FCS, FDP and FDS, raises the same
exception where the other does, and is refused where the other is (D17, log 10; `free` is the model's own counter). -/
def Obligations.FormsAgreeWithoutX87Load : Prop :=
  ∀ (ps : List Prefix) (r : Rex) (m : Mem) (s : State), s.mode = .bits64 →
    ((instrMasks s (.xrstors64 ps r m)).toBeRestored.getLsbD 0 = false →
      exec (.xrstors64 ps r m) s = exec (.xrstors ps (some r) m) s) ∧
    (∀ t, exec (.xrstors64 ps r m) s = .next t →
      ∃ fip fcs fdp fds n, exec (.xrstors ps (some r) m) s =
        .next { t with x87 := { t.x87 with fip := fip, fcs := fcs, fdp := fdp, fds := fds }, free := n }) ∧
    (∀ rec left, exec (.xrstors64 ps r m) s = .fault (.exception rec left) →
      ∃ x n, exec (.xrstors ps (some r) m) s = .fault (.exception rec { left with x87 := x, free := n })) ∧
    (∀ why, exec (.xrstors64 ps r m) s = .refused why → exec (.xrstors ps (some r) m) s = .refused why)

/-- R10: bits 63:32 of RAX and RDX take part in no mask: two states that differ only there, and whose operands are the
same, complete alike. -/
def Obligations.UpperHalvesOfRaxRdxAreIgnored : Prop :=
  ∀ (i : Instr) (s t : State) (g : Vector Word 16),
    (gprOf { s with gpr := g } 0).setWidth 32 = (gprOf s 0).setWidth 32 →
    (gprOf { s with gpr := g } 2).setWidth 32 = (gprOf s 2).setWidth 32 →
    instrOperand { s with gpr := g } i = instrOperand s i → s.cfg.loadFault = .never →
    exec i s = .next t → exec i { s with gpr := g } = .next { t with gpr := g }

/-- R30, R31, R32, R153: XRSTORS never reads XINUSE, XMODIFIED_BV or XRSTOR_INFO: whatever they held, it completes with
the same state, less the XINUSE bits it does not write. -/
def Obligations.TrackingStateIsNotRead : Prop :=
  ∀ (i : Instr) (s t : State) (x y : Word) (info : XrstorInfo), s.cfg.loadFault = .never →
    exec i s = .next t →
    ∃ z, exec i { s with xinuse := x, xmodifiedBv := y, xrstorInfo := info } = .next { t with xinuse := z } ∧
      ∀ c < 64, z.getLsbD c =
        if (rfbmOf s).getLsbD c && decide (c < 63) then t.xinuse.getLsbD c else x.getLsbD c

/-! ### Exceptions of ranks 1 to 7 -/

/-- R121, R68: #UD, identical in all five modes, when a CPUID bit is 0, CR4.OSXSAVE is 0 or LOCK is used. -/
def Obligations.UndefinedOpcodeCauses : Prop :=
  ∀ (i : Instr) (s : State), i.wellFormed (codeCtx s) = true → Launched s (instrOperand s i) →
    (s.cfg.cpuidXsave = false ∨ s.cfg.cpuidXss = false ∨ s.cr4.getLsbD 18 = false ∨ .lock ∈ i.prefixes) →
    exec i s = faultsWith s .ud none

/-- R122: #NM, identical in all five modes, when CR0.TS[bit 3] = 1 and no cause of #UD holds (R131). -/
def Obligations.DeviceNotAvailableWhenTaskSwitched : Prop :=
  ∀ (i : Instr) (s : State), i.wellFormed (codeCtx s) = true → Launched s (instrOperand s i) →
    s.cfg.cpuidXsave = true → s.cfg.cpuidXss = true → s.cr4.getLsbD 18 = true → .lock ∉ i.prefixes →
    s.cr0.getLsbD 3 = true → exec i s = faultsWith s .nm none

/-- R136, R123, R124: at CPL 1, 2 or 3 (in virtual-8086 mode the CPL is 3, R18, log 32), outside real-address mode and with
alignment checking off (R23: CR0 bit 18 or EFLAGS bit 18 clear, or CPL not 3), #GP(0). -/
def Obligations.NotPrivilegedRaisesGp : Prop :=
  ∀ (i : Instr) (s : State), i.wellFormed (codeCtx s) = true → Launched s (instrOperand s i) →
    Enabled s (instrOperand s i) →
    s.mode ≠ .real → (s.mode = .virtual8086 ∨ s.cpl ≠ 0) →
    (s.cr0.getLsbD 18 = false ∨ s.rflags.getLsbD 18 = false ∨ s.mode ≠ .virtual8086 ∧ s.cpl ≠ 3) →
    exec i s = faultsWith s .gp (some 0)

/-- R128, R47, R23: with alignment checking enabled, which is CR0.AM (bit 18) = 1, EFLAGS.AC (bit 18) = 1 and CPL = 3 (in
virtual-8086 mode the CPL is 3, R18, log 32), the fault is #GP(0), but for a misaligned operand whose address is in range
#AC(0) with AC_BEHAVIOUR = ac, and one of the two with either (D8, log 17; R23 is general knowledge, log 37). -/
def Obligations.AlignmentCheckNamesTheFault : Prop :=
  ∀ (i : Instr) (s : State), i.wellFormed (codeCtx s) = true → Launched s (instrOperand s i) →
    Enabled s (instrOperand s i) →
    s.cr0.getLsbD 18 = true → s.rflags.getLsbD 18 = true →
    (s.mode = .virtual8086 ∨ s.mode ≠ .real ∧ s.cpl = 3) →
    ((s.cfg.acBehaviour = .gp ∨ (instrOperand s i).laxa.toNat % 64 = 0 ∨
        (∃ k < 576, ¬ OffsetInRange s (instrOperand s i) k)) →
      exec i s = faultsWith s .gp (some 0)) ∧
    ((instrOperand s i).laxa.toNat % 64 ≠ 0 → (∀ k < 576, OffsetInRange s (instrOperand s i) k) →
      (s.cfg.acBehaviour = .ac → exec i s = faultsWith s .ac (some 0)) ∧
      (s.cfg.acBehaviour = .either →
        exec i s = faultsWith s .ac (some 0) ∨ exec i s = faultsWith s .gp (some 0)))

/-- R137: in virtual-8086 mode XRSTORS never completes: #UD or #NM if their causes hold, else #GP(0) where alignment
checking is off (R23: the CPL is 3, so CR0 bit 18 or EFLAGS bit 18 is clear). -/
def Obligations.NeverCompletesInVirtual8086Mode : Prop :=
  ∀ (i : Instr) (s : State), s.mode = .virtual8086 →
    (∀ t, exec i s ≠ .next t) ∧
    (i.wellFormed (codeCtx s) = true → Launched s (instrOperand s i) →
    Enabled s (instrOperand s i) → (s.cr0.getLsbD 18 = false ∨ s.rflags.getLsbD 18 = false) →
      exec i s = faultsWith s .gp (some 0))

/-- R48, R124, R126: in 64-bit mode offset k of the area is in range exactly where bits 63:47 of its linear address (bits
63:56 with 57-bit linear addresses; U9, log 20) are all equal. An offset 0..575 of which they are not raises #SS(0)
through SS, #GP(0) through another segment. -/
def Obligations.NonCanonicalAddressFaults : Prop :=
  ∀ (i : Instr) (s : State), s.mode = .bits64 →
    let lowest := if s.cfg.linearWidth = .bits48 then 47 else 56
    let address (k : Nat) : Word := (instrOperand s i).laxa + BitVec.ofNat 64 k
    (∀ k, OffsetInRange s (instrOperand s i) k ↔
      ∀ b, lowest ≤ b → b < 64 → (address k).getLsbD b = (address k).getLsbD 63) ∧
    (i.wellFormed (codeCtx s) = true → Launched s (instrOperand s i) → Enabled s (instrOperand s i) → s.cpl = 0 →
      (∃ k < 576, ∃ b, lowest ≤ b ∧ b < 64 ∧ (address k).getLsbD b ≠ (address k).getLsbD 63) →
      exec i s = faultsWith s (if (instrOperand s i).seg = .ss then .ss else .gp) (some 0))

/-- R48, R123, R126: in protected and compatibility mode, with a usable segment, an offset 0..575 outside its limit
raises #SS(0) through SS, #GP(0) through another segment; a null or unreadable segment raises #GP(0), which is the
model's (log 19). -/
def Obligations.SegmentLimitFaults : Prop :=
  ∀ (i : Instr) (s : State), i.wellFormed (codeCtx s) = true → Launched s (instrOperand s i) →
    Enabled s (instrOperand s i) →
    (s.mode = .protectedMode ∨ s.mode = .compatibility) → s.cpl = 0 →
    let g := segOf s (instrOperand s i).seg
    (g.isNull = true ∨ g.readable = false → exec i s = faultsWith s .gp (some 0)) ∧
    (g.isNull = false → g.readable = true → g.expandDown = false →
      g.limit.toNat < (instrOperand s i).ea.toNat + 575 →
      exec i s = faultsWith s (if (instrOperand s i).seg = .ss then .ss else .gp) (some 0))

/-- R57, R125, ahead of the header: in real-address mode an operand whose first 576 bytes reach past FFFFH raises #GP
without an error code, through any segment (the rest of the area: AreaOutsideItsRangeFaults). -/
def Obligations.RealModeExtentFaults : Prop :=
  ∀ (i : Instr) (s : State), i.wellFormed (codeCtx s) = true → Launched s (instrOperand s i) →
    Enabled s (instrOperand s i) →
    s.mode = .real → 0xFFFF < (instrOperand s i).ea.toNat + 575 → exec i s = faultsWith s .gp none

/-- R46: an operand in range whose linear address is no multiple of 64 raises #GP(0), in real-address mode #GP (that the
linear address is tested is D7, log 16). -/
def Obligations.MisalignedOperandFaults : Prop :=
  ∀ (i : Instr) (s : State), i.wellFormed (codeCtx s) = true → Launched s (instrOperand s i) →
    Enabled s (instrOperand s i) →
    cplOf s = 0 → (∀ k < 576, OffsetInRange s (instrOperand s i) k) →
    (instrOperand s i).laxa.toNat % 64 ≠ 0 →
    exec i s = faultsWith s .gp (if s.mode = .real then none else some 0)

/-! ### Exceptions of ranks 8 to 12 -/

/-- R127, R49, R50: a page fault on the header raises #PF with the code and the linear address of one of the bytes that
fault (which one is free, log 18), and a precise fault leaves the state as it was (D6, log 23). Where no header byte
page-faults and one lies in memory-mapped I/O the instruction is refused (log 22; that #PF comes first is log 42). -/
def Obligations.UnreadableHeader : Prop :=
  ∀ (i : Instr) (s : State), i.wellFormed (codeCtx s) = true → Launched s (instrOperand s i) →
    Enabled s (instrOperand s i) → cplOf s = 0 → (∀ k < 576, OffsetInRange s (instrOperand s i) k) →
    (instrOperand s i).laxa.toNat % 64 = 0 →
    (s.cfg.faultAtomicity = .precise →
      (∃ k, 512 ≤ k ∧ k < 576 ∧ ∃ code, areaRead s (instrOperand s i).laxa k = .pageFault code) →
      ∃ k code, 512 ≤ k ∧ k < 576 ∧ areaRead s (instrOperand s i).laxa k = .pageFault code ∧
        exec i s = .fault (.exception
          ⟨.pf, some code, pcOf s, some (linearAt s (instrOperand s i).laxa k)⟩ s)) ∧
    ((∀ k, 512 ≤ k → k < 576 → ∀ code, areaRead s (instrOperand s i).laxa k ≠ .pageFault code) →
      (∃ k, 512 ≤ k ∧ k < 576 ∧ areaRead s (instrOperand s i).laxa k = .device) →
      exec i s = .refused .deviceMemory)

/-- R130: with the header readable, each of H1 to H4 raises #GP(0) (real-address mode: #GP), whatever EDX:EAX holds,
and a precise fault writes nothing (the mask of H2 is D4, log 15; D6, log 23). -/
def Obligations.IllegalHeaderFaults : Prop :=
  ∀ (i : Instr) (s : State), i.wellFormed (codeCtx s) = true → Launched s (instrOperand s i) →
    Enabled s (instrOperand s i) →
    cplOf s = 0 → (∀ k < 576, OffsetInRange s (instrOperand s i) k) → (instrOperand s i).laxa.toNat % 64 = 0 →
    (∀ k, 512 ≤ k → k < 576 → ByteReadable s (instrOperand s i) k) → s.cfg.faultAtomicity = .precise →
    let f := instrArea s i
    ((xcompBvOf f).getLsbD 63 = false ∨
      (∃ c < 63, (xcompBvOf f).getLsbD c = true ∧ (checkMaskOf s).getLsbD c = false) ∨
      (∃ c < 64, (xstateBvOf f).getLsbD c = true ∧ (xcompBvOf f).getLsbD c = false) ∨
      (∃ k < 48, f (528 + k) ≠ 0)) →
    exec i s = faultsWith s .gp (if s.mode = .real then none else some 0)

/-- R130, C1, D4 (log 15), bit by bit: with XCOMP_CHECK_MASK = xcr0_or_xss, D4's default, the check mask is XCR0 OR
IA32_XSS, and with xcr0_only it is XCR0 alone. There no execution completes on an area with a slot for a component enabled
in IA32_XSS (one that XCR0 enables too is a refused launch, D25, log 25). -/
def Obligations.LiteralCheckMaskForbidsSupervisorSlots : Prop :=
  (∀ (s : State), ∀ c < 64,
    (s.cfg.xcompCheckMask = .xcr0OrXss → (checkMaskOf s).getLsbD c = (s.xcr0.getLsbD c || s.ia32Xss.getLsbD c)) ∧
    (s.cfg.xcompCheckMask = .xcr0Only → (checkMaskOf s).getLsbD c = s.xcr0.getLsbD c)) ∧
  ∀ (i : Instr) (s : State) (c : Nat), c < 63 → s.cfg.xcompCheckMask = .xcr0Only →
    (xcompBvOf (instrArea s i)).getLsbD c = true → s.ia32Xss.getLsbD c = true → ∀ t, exec i s ≠ .next t

/-- R131 rank 10, R57, R48: with a legal header and offsets 0..575 in range, an area of which a later offset is not
raises #SS(0) through SS and #GP(0) through another segment; in real-address mode #GP through any segment, so
wherever EA + AREA_SIZE(FORMAT) - 1 > FFFFH (the extent is D9's; a precise fault: D6, log 23). -/
def Obligations.AreaOutsideItsRangeFaults : Prop :=
  ∀ (i : Instr) (s : State), i.wellFormed (codeCtx s) = true → Launched s (instrOperand s i) →
    Enabled s (instrOperand s i) → cplOf s = 0 → (∀ k < 576, OffsetInRange s (instrOperand s i) k) →
    (instrOperand s i).laxa.toNat % 64 = 0 → (∀ k, 512 ≤ k → k < 576 → ByteReadable s (instrOperand s i) k) →
    HeaderLegal s (instrArea s i) → s.cfg.faultAtomicity = .precise →
    ((∃ k < operandAreaSize s (instrOperand s i), ¬ OffsetInRange s (instrOperand s i) k) →
      exec i s =
        if s.mode = .real then faultsWith s .gp none
        else faultsWith s (if (instrOperand s i).seg = .ss then .ss else .gp) (some 0)) ∧
    (s.mode = .real → 0xFFFF < (instrOperand s i).ea.toNat + operandAreaSize s (instrOperand s i) - 1 →
      exec i s = faultsWith s .gp none)

/-- R50, D9, R131 rank 10, the maximal read set: with a legal header and the area in range, a byte that page-faults
raises #PF, whether or not its component is requested (log 18); where none does and one lies in memory-mapped I/O the
instruction is refused (log 22; that #PF comes first is log 42). -/
def Obligations.UnreadableArea : Prop :=
  ∀ (i : Instr) (s : State), i.wellFormed (codeCtx s) = true → Launched s (instrOperand s i) →
    Enabled s (instrOperand s i) → cplOf s = 0 → (instrOperand s i).laxa.toNat % 64 = 0 →
    (∀ k < operandAreaSize s (instrOperand s i), OffsetInRange s (instrOperand s i) k) →
    (∀ k, 512 ≤ k → k < 576 → ByteReadable s (instrOperand s i) k) → HeaderLegal s (instrArea s i) →
    (s.cfg.faultAtomicity = .precise →
      (∃ k < operandAreaSize s (instrOperand s i), ∃ code,
        areaRead s (instrOperand s i).laxa k = .pageFault code) →
      ∃ k code, k < operandAreaSize s (instrOperand s i) ∧
        areaRead s (instrOperand s i).laxa k = .pageFault code ∧
        exec i s = .fault (.exception
          ⟨.pf, some code, pcOf s, some (linearAt s (instrOperand s i).laxa k)⟩ s)) ∧
    ((∀ k < operandAreaSize s (instrOperand s i), ∀ code,
        areaRead s (instrOperand s i).laxa k ≠ .pageFault code) →
      (∃ k < operandAreaSize s (instrOperand s i), areaRead s (instrOperand s i).laxa k = .device) →
      exec i s = .refused .deviceMemory)

/-- R93, R103, R131 ranks 11 and 12, with all before them in order: an MXCSR image with a reserved bit raises #GP(0)
(real-address mode: #GP) where SSE state is loaded and only there; so does CFG.LOAD_FAULT true of the slot of a loaded
component 2..62 (the part's own predicate, log 31); with neither the instruction completes (precise: D6, log 23). -/
def Obligations.MxcsrAndContentFaults : Prop :=
  ∀ (i : Instr) (s : State), i.wellFormed (codeCtx s) = true → Launched s (instrOperand s i) →
    Enabled s (instrOperand s i) → cplOf s = 0 → (instrOperand s i).laxa.toNat % 64 = 0 →
    (∀ k < operandAreaSize s (instrOperand s i), OffsetInRange s (instrOperand s i) k) →
    (∀ k < operandAreaSize s (instrOperand s i), ByteReadable s (instrOperand s i) k) →
    HeaderLegal s (instrArea s i) → s.cfg.faultAtomicity = .precise →
    let f := instrArea s i
    let stops : Prop :=
      ((rfbmOf s).getLsbD 1 = true ∧ (xstateBvOf f).getLsbD 1 = true ∧
        (f 27 ++ f 26 ++ f 25 ++ f 24) &&& ~~~s.cfg.mxcsrMask ≠ 0) ∨
      (s.cfg.loadFault = .part ∧ ∃ c, 2 ≤ c ∧ c < 63 ∧ (rfbmOf s).getLsbD c = true ∧
        (xstateBvOf f).getLsbD c = true ∧
        Config.loadFault c (slotBytes s.cfg (xcompBvOf f &&& 0x7FFFFFFFFFFFFFFF) f c) s = true)
    (stops → exec i s = faultsWith s .gp (if s.mode = .real then none else some 0)) ∧
    (¬ stops → ∃ t, exec i s = .next t)

/-! ### What a fault says and leaves -/

/-- R132: under FAULT_ATOMICITY = precise a faulting instruction writes nothing, and the record holds the pc of the
instruction (the spec's decision D6; logs 1 and 23). -/
def Obligations.PreciseFaultsWriteNothing : Prop :=
  ∀ (i : Instr) (s : State) (r : ExcRecord) (left : State), s.cfg.faultAtomicity = .precise →
    exec i s = .fault (.exception r left) → left = s ∧ r.pc = pcOf s

/-- R132: under FAULT_ATOMICITY = partial registers, flags, memory, pc and unselected components are unchanged, and
every other item holds its old value or its new one (the spec's decision D6; log 23). The new value is what `commit`,
steps 13 to 17, makes of the header and the area as they read; where rank 8 or 10 could not read a byte it is formed with
a free byte (log 23). After a fault of rank 9, 11 or 12, or of rank 10 on a range, no completed instruction exists for
these bytes, and that commit then gives the new values is the model's choice (log 43). -/
def Obligations.PartialFaultsLeaveOldOrNewItems : Prop :=
  ∀ (i : Instr) (s : State) (r : ExcRecord) (left : State), s.cfg.faultAtomicity = .perItem →
    exec i s = .fault (.exception r left) →
    let new := commit i.w (instrOperand s i) s
    left.gpr = s.gpr ∧ left.rip = s.rip ∧ left.rflags = s.rflags ∧ left.mem = s.mem ∧ left.cr0 = s.cr0 ∧
    left.cr4 = s.cr4 ∧ left.xcr0 = s.xcr0 ∧ left.ia32Xss = s.ia32Xss ∧ left.mode = s.mode ∧
    (left.x87 = s.x87 ∨ (rfbmOf s).getLsbD 0 = true ∧ left.x87 = new.x87) ∧
    (left.sse = s.sse ∨ (rfbmOf s).getLsbD 1 = true ∧ left.sse = new.sse) ∧
    (∀ c, 2 ≤ c → c < 63 →
      scOf left c = scOf s c ∨ (rfbmOf s).getLsbD c = true ∧ scOf left c = scOf new c) ∧
    (∀ c < 64, left.xinuse.getLsbD c = s.xinuse.getLsbD c ∨
      (rfbmOf s).getLsbD c = true ∧ left.xinuse.getLsbD c = new.xinuse.getLsbD c) ∧
    (left.xmodifiedBv = s.xmodifiedBv ∨ left.xmodifiedBv = ~~~rfbmOf s) ∧
    (left.xrstorInfo = s.xrstorInfo ∨ left.xrstorInfo = new.xrstorInfo)

/-- R120, R125, R132: the record of a fault: #UD and #NM have no error code, #SS and #AC have 0, #GP has 0 but none in
real-address mode, #PF alone has an address, and real-address mode raises #UD, #NM and #GP only (the error codes are
the spec's general knowledge; log 37). -/
def Obligations.FaultRecordsHaveTheirShape : Prop :=
  ∀ (i : Instr) (s : State) (r : ExcRecord) (left : State), exec i s = .fault (.exception r left) →
    (r.vector = .ud ∨ r.vector = .nm → r.errorCode = none) ∧
    (r.vector = .ss ∨ r.vector = .ac → r.errorCode = some 0) ∧
    (r.vector = .gp → r.errorCode = if s.mode = .real then none else some 0) ∧
    (r.vector = .pf → r.errorCode.isSome = true) ∧
    (r.address.isSome = true ↔ r.vector = .pf) ∧
    (s.mode = .real → r.vector = .ud ∨ r.vector = .nm ∨ r.vector = .gp)

/-- Every launch the model refuses, ahead of every fault and in this order: a term with no encoding in the present mode
(R3, log 36), VMX non-root operation (R82 step 0, R139, D19; log 24), an armed debug register or EFLAGS.TF = 1 (R140;
log 26, which also presumes TF's bit 8), XCR0 and IA32_XSS outside the premise of D25 (log 25), and an operand segment
base that is no multiple of 64 (R46, D7; log 16). The order, and that they precede the faults, is log 2's. -/
def Obligations.RefusedLaunches : Prop :=
  ∀ (i : Instr) (s : State),
    (i.wellFormed (codeCtx s) = false → exec i s = .refused .notEncodable) ∧
    (i.wellFormed (codeCtx s) = true →
      if s.inVmxNonRoot = true then exec i s = .refused .vmxNonRoot
      else if s.debugArmed = true ∨ s.rflags.getLsbD 8 = true then exec i s = .refused .debugArmed
      else if s.xcr0 &&& s.ia32Xss ≠ 0 ∨ s.xcr0 &&& ~~~s.cfg.supportedUser ≠ 0 ∨
          s.ia32Xss &&& ~~~s.cfg.supportedSuper ≠ 0 ∨ s.xcr0.getLsbD 63 = true ∨ s.ia32Xss.getLsbD 63 = true ∨
          s.xcr0.getLsbD 0 = false then exec i s = .refused .xcrPremise
      else (segBase s (instrOperand s i).seg).toNat % 64 ≠ 0 → exec i s = .refused .segmentBase)

/-! ### The step -/

/-- A step runs the decoded instruction: where the bytes at pc decode to `i`, the step is `exec i`, and `i` is well
formed, so exec never refuses it as not encodable. -/
def Obligations.StepRunsTheDecodedInstruction : Prop :=
  ∀ (s : State) (i : Instr) (rest : List Byte), decode (codeCtx s) (fetchWindow s).1 = .ok (i, rest) →
    step s = exec i s ∧ i.wellFormed (codeCtx s) = true ∧ exec i s ≠ .refused .notEncodable

/-- R64, R75: where the bytes at pc are the encoding of a well-formed instruction and can be fetched, the step is that
instruction, whatever follows it, be it unreadable. -/
def Obligations.BytesAtPcRunTheirInstruction : Prop :=
  ∀ (s : State) (i : Instr), i.wellFormed (codeCtx s) = true →
    (∀ k < i.length, fetchByte s k = .ok ((encode i).getD k 0)) → step s = exec i s

/-- R67, R69, R64, R79: a step at bytes that are no XRSTORS: #UD for the two unassigned forms, #GP(0) past 15 bytes,
a refusal by name for another opcode; nothing is written (D20, log 29). R127, D13: where the first n bytes can be
fetched and do not end the instruction, the byte n is needed: past the top of the instruction pointer's range or of the
linear address space, past the code-segment limit or at a non-canonical address the step is refused, else a page fault
on it raises #PF, and memory-mapped I/O is refused (logs 22 and 27; the fetch's privilege is log 21's). That all this
holds in states whose launches are refused too, a debug register armed or TF = 1 among them, is the model's choice
(R140, log 44). -/
def Obligations.StepAtOtherBytes : Prop :=
  (∀ (s : State) (e : DecodeError), decode (codeCtx s) (fetchWindow s).1 = .error e →
    ((e = .registerForm ∨ e = .npViolated) → step s = faultsWith s .ud none) ∧
    (e = .tooLong → step s = faultsWith s .gp (if s.mode = .real then none else some 0)) ∧
    ((e = .notXrstorsOpcode ∨ ∃ n, e = .notXrstorsReg n) → step s = .refused (.notXrstors e))) ∧
  ∀ (s : State) (bytes : List Byte), (∀ k < bytes.length, fetchByte s k = .ok (bytes.getD k 0)) →
    decode (codeCtx s) bytes = .error .truncated →
    let n := bytes.length
    let a := fetchAddress s n
    if 2 ^ ipWidth s ≤ (pcOf s).toNat + n ∨ linearSpace s ≤ (fetchAddress s 0).toNat + n ∨
        (s.mode ≠ .bits64 ∧ s.segs.cs.limit.toNat < (pcOf s).toNat + n) ∨
        (s.mode = .bits64 ∧ canonical s.cfg.linearWidth a = false) then step s = .refused .fetchOutsideCode
    else
      (∀ code, Machine.translate s a (cplOf s != 3) = .fault code →
        step s = .fault (.exception ⟨.pf, some code, pcOf s, some a⟩ s)) ∧
      (∀ p, Machine.translate s a (cplOf s != 3) = .phys p → isIo s p = true → step s = .refused .deviceMemory)

/-- A table word placed at pc after reset is the instruction the next step decodes and runs (the model's own placing:
logs 7 and 34). -/
def Obligations.TableWordsRunAfterReset : Prop :=
  ∀ (nbits w : Nat) (i : Instr), decodeTableWord nbits w = some i →
    let s := State.reset.withFetchWord nbits w
    (∃ rest, decode (codeCtx s) (fetchWindow s).1 = .ok (i, rest)) ∧ step s = exec i s

/-- Every step keeps the invariant: memory canonical, component sizes n(i), no reserved bit in MXCSR, XINUSE inside the
supported components, XRSTOR_INFO.CPL 0, the configuration and the premise on XCR0 and IA32_XSS (D25, log 25). -/
def Obligations.StepKeepsTheInvariant : Prop :=
  ∀ s t : State, Inv s → step s = .next t → Inv t

/-- The state after reset meets the invariant; its values are R34's general-knowledge ones and the model's choices
(logs 3, 4, 5, 6). -/
def Obligations.ResetMeetsTheInvariant : Prop := Inv State.reset

/-- R150, R34: after reset CR4.OSXSAVE = 0, so XRSTORS raises #UD; the reset values are general knowledge (log 4). -/
def Obligations.XrstorsRaisesUdAfterReset : Prop :=
  ∀ (ps : List Prefix) (m : Mem), (Instr.xrstors ps none m).wellFormed ctxReal = true →
    exec (.xrstors ps none m) State.reset = faultsWith State.reset .ud none

/-- R51, R54, R100: an execution never modifies code: in 64-bit mode the bytes fetched after a completed step are the
bytes that followed the instruction before it. -/
def Obligations.NextFetchReadsTheBytesThatFollowed : Prop :=
  ∀ (s t : State) (i : Instr) (rest : List Byte), s.mode = .bits64 →
    decode (codeCtx s) (fetchWindow s).1 = .ok (i, rest) → step s = .next t →
    ∀ k, (s.rip.toNat + i.length + k < 2 ^ 64) → fetchByte t k = fetchByte s (i.length + k)
end

