-- ==== Sys2Proof/Laws/Area.lean ====
section
/-! SUPPORT. Fields of the area by byte, the cut of an address to its width, and the walk over the slots. -/

namespace Sys2Proof.Machine

/-! ### Little-endian fields -/

theorem leNat_lt (f : Nat → Byte) (o n : Nat) : leNat f o n < 256 ^ n := by
  induction n generalizing o with
  | zero => simp [leNat]
  | succ n ih =>
    have h1 := ih (o + 1)
    have h2 := (f o).isLt
    simp only [leNat, pow_succ]
    omega

theorem leNat_div_pow (f : Nat → Byte) (o n b : Nat) (h : b ≤ n) :
    leNat f o n / 256 ^ b = leNat f (o + b) (n - b) := by
  induction b generalizing o n with
  | zero => simp
  | succ b ih =>
    obtain ⟨n, rfl⟩ : ∃ m, n = m + 1 := ⟨n - 1, by omega⟩
    have h2 := (f o).isLt
    rw [pow_succ', ← Nat.div_div_eq_div_mul]
    have : leNat f o (n + 1) / 256 = leNat f (o + 1) n := by simp only [leNat]; omega
    rw [this, ih (o + 1) n (by omega)]
    congr 1 <;> omega

/-- Byte b of a field is the byte at its offset plus b (R45). -/
theorem leField_byte {w n b : Nat} (f : Nat → Byte) (o : Nat) (hb : b < n) (hw : 8 * b + 8 ≤ w) :
    (leField w f o n).extractLsb' (8 * b) 8 = f (o + b) := by
  apply BitVec.eq_of_toNat_eq
  have h8 : (2 : Nat) ^ (8 * b) = 256 ^ b := by rw [pow_mul]; norm_num
  simp only [leField, BitVec.extractLsb'_toNat, BitVec.toNat_ofNat, Nat.shiftRight_eq_div_pow]
  obtain ⟨r, hr⟩ : ∃ r, 2 ^ w = 256 ^ b * (2 ^ 8 * 2 ^ r) :=
    ⟨w - (8 * b + 8), by rw [← h8, ← pow_add, ← pow_add]; congr 1; omega⟩
  have hmod : leNat f o n % 2 ^ w / 256 ^ b % 2 ^ 8 = leNat f o n / 256 ^ b % 2 ^ 8 := by
    rw [hr, Nat.mod_mul_right_div_self, Nat.mod_mul_right_mod]
  rw [h8, hmod, leNat_div_pow f o n b (by omega)]
  obtain ⟨m, hm⟩ : ∃ m, n - b = m + 1 := ⟨n - b - 1, by omega⟩
  have := (f (o + b)).isLt
  rw [hm]
  simp only [leNat]
  omega

/-- Fields of two and of four bytes as concatenations, the byte at the highest offset first. -/
theorem leField_16 (f : Nat → Byte) (o : Nat) : leField 16 f o 2 = f (o + 1) ++ f o := by
  apply BitVec.eq_of_toNat_eq
  have h0 := (f o).isLt
  have h1 := (f (o + 1)).isLt
  simp only [leField, leNat, BitVec.toNat_ofNat, BitVec.toNat_append, Nat.shiftLeft_eq]
  rw [← Nat.shiftLeft_eq, ← Nat.shiftLeft_add_eq_or_of_lt h0, Nat.shiftLeft_eq]
  omega

theorem leField_32 (f : Nat → Byte) (o : Nat) :
    leField 32 f o 4 = f (o + 3) ++ f (o + 2) ++ f (o + 1) ++ f o := by
  apply BitVec.eq_of_toNat_eq
  have h0 := (f o).isLt
  have h1 := (f (o + 1)).isLt
  have h2 := (f (o + 2)).isLt
  have h3 := (f (o + 3)).isLt
  have e2 : o + 1 + 1 = o + 2 := rfl
  have e3 : o + 2 + 1 = o + 3 := rfl
  simp only [leField, leNat, BitVec.toNat_ofNat, BitVec.toNat_append, e2, e3]
  rw [← Nat.shiftLeft_add_eq_or_of_lt h2, ← Nat.shiftLeft_add_eq_or_of_lt h1,
    ← Nat.shiftLeft_add_eq_or_of_lt h0]
  simp only [Nat.shiftLeft_eq]
  omega

/-- A field of eight bytes, and one of four in a 64-bit register, as concatenations. -/
theorem leField_64 (f : Nat → Byte) (o : Nat) :
    leField 64 f o 8 =
      f (o + 7) ++ f (o + 6) ++ f (o + 5) ++ f (o + 4) ++ f (o + 3) ++ f (o + 2) ++ f (o + 1) ++ f o := by
  apply BitVec.eq_of_getLsbD_eq
  intro j hj
  obtain ⟨b, r, rfl, hr⟩ : ∃ b r, j = 8 * b + r ∧ r < 8 := ⟨j / 8, j % 8, by omega, by omega⟩
  have e := congrArg (fun v => v.getLsbD r) (leField_byte (w := 64) f o (b := b) (n := 8) (by omega) (by omega))
  simp [hr] at e
  rw [e]
  have : b = 0 ∨ b = 1 ∨ b = 2 ∨ b = 3 ∨ b = 4 ∨ b = 5 ∨ b = 6 ∨ b = 7 := by omega
  rcases this with rfl | rfl | rfl | rfl | rfl | rfl | rfl | rfl <;> simp only [BitVec.getLsbD_append]
  all_goals
    repeat' (split <;> try omega)
    rw [← BitVec.getLsbD_eq_getElem]
    congr 1
    omega

theorem leField_64_4 (f : Nat → Byte) (o : Nat) :
    leField 64 f o 4 = (f (o + 3) ++ f (o + 2) ++ f (o + 1) ++ f o).setWidth 64 := by
  rw [← leField_32 f o]
  apply BitVec.eq_of_toNat_eq
  have := leNat_lt f o 4
  simp [leField]
  omega

/-- Bit pair p of the tag word is the tag of physical register p (R26). -/
theorem tagWord_pair (g : Nat → BitVec 2) {p : Nat} (hp : p < 8) : (tagWord g).extractLsb' (2 * p) 2 = g p := by
  have : p = 0 ∨ p = 1 ∨ p = 2 ∨ p = 3 ∨ p = 4 ∨ p = 5 ∨ p = 6 ∨ p = 7 := by omega
  rcases this with rfl | rfl | rfl | rfl | rfl | rfl | rfl | rfl
  all_goals
    apply BitVec.eq_of_getLsbD_eq
    intro j hj
    rw [BitVec.getLsbD_extractLsb']
    simp only [tagWord, BitVec.getLsbD_append, hj, decide_true, Bool.true_and]
    repeat' (split <;> try omega)
    congr 1
    try omega

/-! ### Cutting an address to its width -/

theorem lowBits_toNat (w : Nat) (hw : w ≤ 64) (v : Word) : (lowBits w v).toNat = v.toNat % 2 ^ w := by
  simp only [lowBits, BitVec.toNat_ofNat]
  exact Nat.mod_eq_of_lt (lt_of_lt_of_le (Nat.mod_lt _ (by positivity)) (Nat.pow_le_pow_right (by omega) hw))

@[simp] theorem lowBits_64 (v : Word) : lowBits 64 v = v := by
  apply BitVec.eq_of_toNat_eq
  rw [lowBits_toNat 64 (by omega)]
  exact Nat.mod_eq_of_lt v.isLt

/-- A cut to w bits is a truncation and a zero extension. -/
theorem lowBits_eq_setWidth (w : Nat) (hw : w ≤ 64) (v : Word) : lowBits w v = (v.setWidth w).setWidth 64 := by
  apply BitVec.eq_of_toNat_eq
  rw [lowBits_toNat w hw, BitVec.toNat_setWidth, BitVec.toNat_setWidth]
  exact (Nat.mod_eq_of_lt (lt_of_lt_of_le (Nat.mod_lt _ (by positivity)) (Nat.pow_le_pow_right (by omega) hw))).symm

@[simp] theorem lowBits_lowBits (w : Nat) (hw : w ≤ 64) (v : Word) : lowBits w (lowBits w v) = lowBits w v := by
  apply BitVec.eq_of_toNat_eq
  rw [lowBits_toNat w hw, lowBits_toNat w hw, Nat.mod_mod]

theorem ipWidth_le (s : State) : ipWidth s ≤ 64 := by
  unfold ipWidth; split <;> (try split) <;> omega

/-! ### The walk -/

theorem le_alignFor (c : Cfg) (i off : Nat) : off ≤ alignFor c i off := by
  unfold alignFor; split <;> omega

/-- The walk's offset never falls (R43). -/
theorem nextFeatureOffset_mono (c : Cfg) (format : Word) {j k : Nat} (h : j ≤ k) :
    nextFeatureOffset c format j ≤ nextFeatureOffset c format k := by
  induction h with
  | refl => exact le_refl _
  | step _ ih =>
    refine le_trans ih ?_
    simp only [nextFeatureOffset]
    split
    · exact le_trans (le_alignFor c _ _) (Nat.le_add_right _ _)
    · exact le_refl _

/-- The area is never shorter than legacy region and header (R40). -/
theorem le_areaSize (c : Cfg) (format : Word) : 576 ≤ areaSize c format :=
  nextFeatureOffset_mono c format (Nat.zero_le 61)

/-! ### The commit, component by component -/

/-- Bit c of XINUSE after the commit (R30, D24). -/
theorem xinuseAfter_bit (m : Masks) (x : Word) {c : Nat} (hc : c < 64) :
    (xinuseAfter m x).getLsbD c =
      ((x.getLsbD c || (m.toBeRestored.getLsbD c && decide (c ≠ 63))) &&
        !(m.toBeInitialized.getLsbD c && decide (c ≠ 63))) := by
  have : componentBits.getLsbD c = decide (c ≠ 63) := by revert c; decide
  simp only [xinuseAfter, BitVec.getLsbD_and, BitVec.getLsbD_or, BitVec.getLsbD_not, this, hc, decide_true,
    Bool.true_and]

/-- Component c in 2..62 after the commit (R89). -/
theorem scOf_commitWith (w : Bool) (op : Operand) (m : Masks) (f : Nat → Byte) (s : State) {c : Nat} (h2 : 2 ≤ c)
    (hc : c < 63) : scOf (commitWith w op m f s) c = extComponent m f s c (scOf s c) := by
  simp only [scOf, commitWith_ext, extAll, Vector.getElem?_mapIdx, if_neg (show ¬ c < 2 by omega)]
  rw [Vector.getElem?_eq_getElem hc]; rfl

/-! ### Vectors given by index -/

@[simp] theorem vector8_getElem {α : Type} (f : Nat → α) (i : Nat) (h : i < 8) : (vector8 f)[i] = f i := by
  rcases i with _ | _ | _ | _ | _ | _ | _ | _ | i <;> first | rfl | omega

@[simp] theorem vector16_getElem {α : Type} (f : Nat → α) (i : Nat) (h : i < 16) : (vector16 f)[i] = f i := by
  rcases i with _ | _ | _ | _ | _ | _ | _ | _ | _ | _ | _ | _ | _ | _ | _ | _ | i <;> first | rfl | omega

end Sys2Proof.Machine
end

