-- ==== Sys2Proof/Laws/Fetch.lean ====
section
/-! SUPPORT. What the fetch of an instruction's bytes gives, said once. -/

namespace Sys2Proof.Machine

/-- Bytes that can be fetched from `k` on stand at the front of what is fetched. -/
theorem fetchFrom_prefix {s : State} {n k : Nat} {bs : List Byte} (hn : bs.length ≤ n)
    (h : ∀ j < bs.length, fetchByte s (k + j) = .ok (bs.getD j 0)) : ∃ r, (fetchFrom s n k).1 = bs ++ r := by
  induction bs generalizing n k with
  | nil => exact ⟨_, rfl⟩
  | cons b t ih =>
    obtain ⟨m, rfl⟩ : ∃ m, n = m + 1 := ⟨n - 1, by simp at hn; omega⟩
    have h0 : fetchByte s k = .ok b := by simpa using h 0 (by simp)
    obtain ⟨r, hr⟩ := ih (n := m) (k := k + 1) (by simpa using hn) fun j hj => by
      simpa [Nat.add_assoc, Nat.add_comm 1] using h (j + 1) (by simpa using hj)
    exact ⟨r, by simp [fetchFrom, h0, hr]⟩

/-- Where byte `k + bs.length` is the first that cannot be fetched, the fetch gives `bs` and why it stopped. -/
theorem fetchFrom_stop {s : State} {n k : Nat} {bs : List Byte} {e : FetchStop} (hn : bs.length < n)
    (h : ∀ j < bs.length, fetchByte s (k + j) = .ok (bs.getD j 0))
    (he : fetchByte s (k + bs.length) = .error e) : fetchFrom s n k = (bs, some e) := by
  induction bs generalizing n k with
  | nil =>
    obtain ⟨m, rfl⟩ : ∃ m, n = m + 1 := ⟨n - 1, by simp at hn; omega⟩
    simp only [List.length_nil, Nat.add_zero] at he
    simp only [fetchFrom, he]
  | cons b t ih =>
    obtain ⟨m, rfl⟩ : ∃ m, n = m + 1 := ⟨n - 1, by simp at hn; omega⟩
    have h0 : fetchByte s k = .ok b := by simpa using h 0 (by simp)
    have := ih (n := m) (k := k + 1) (by simpa using hn)
      (fun j hj => by simpa [Nat.add_assoc, Nat.add_comm 1] using h (j + 1) (by simpa using hj))
      (by simpa [Nat.add_assoc, Nat.add_comm 1] using he)
    simp only [fetchFrom, h0, this]

/-- No more bytes are fetched than are asked for. -/
theorem length_fetchFrom_le (s : State) (n k : Nat) : (fetchFrom s n k).1.length ≤ n := by
  induction n generalizing k with
  | zero => simp [fetchFrom]
  | succ n ih =>
    simp only [fetchFrom]
    split
    · simpa using ih (k + 1)
    · simp

end Sys2Proof.Machine
end

