-- ==== Sys2Proof/Laws/Ready.lean ====
section
/-! SUPPORT. When the checks of XRSTORS_exec pass, in the terms of Safety.lean, and what is left of them once some are
known to pass. -/

namespace Sys2Proof.Machine

/-- Bits 5:0 of an address are 0 exactly when it is a multiple of 64. -/
theorem low6_eq_zero (v : Word) : v.extractLsb' 0 6 = 0 ↔ v.toNat % 64 = 0 := by
  rw [← BitVec.toNat_inj]; simp [BitVec.extractLsb'_toNat]

/-- A field that reaches up to bit 63 is all zeros or all ones exactly where each of its bits is bit 63. -/
theorem topField_uniform (a : Word) {l n : Nat} (hl : l + n = 64) (hn : 0 < n) :
    (a.extractLsb' l n = 0 ∨ a.extractLsb' l n = BitVec.allOnes n) ↔
      ∀ b, l ≤ b → b < 64 → a.getLsbD b = a.getLsbD 63 := by
  have bit (v : BitVec n) (h : a.extractLsb' l n = v) (b : Nat) (h1 : l ≤ b) (h2 : b < 64) :
      a.getLsbD b = v.getLsbD (b - l) := by
    rw [← h, BitVec.getLsbD_extractLsb', show l + (b - l) = b by omega]
    simp [show b - l < n by omega]
  constructor
  · rintro (h | h) b h1 h2 <;> rw [bit _ h b h1 h2, bit _ h 63 (by omega) (by omega)]
    · simp
    · simp [show b - l < n by omega, show 63 - l < n by omega]
  · intro h
    cases h63 : a.getLsbD 63
    · refine .inl (BitVec.eq_of_getLsbD_eq fun k hk => ?_)
      rw [BitVec.getLsbD_extractLsb', h (l + k) (by omega) (by omega), h63]; simp
    · refine .inr (BitVec.eq_of_getLsbD_eq fun k hk => ?_)
      rw [BitVec.getLsbD_extractLsb', h (l + k) (by omega) (by omega), h63]; simp [hk]

/-- What canonical means, bit by bit (R48). -/
theorem canonical_eq_true (w : LinearWidth) (a : Word) :
    canonical w a = true ↔
      ∀ b, (if w = .bits48 then 47 else 56) ≤ b → b < 64 → a.getLsbD b = a.getLsbD 63 := by
  cases w <;> simp only [canonical, Bool.or_eq_true, beq_iff_eq]
  · exact topField_uniform a (l := 47) rfl (by omega)
  · exact topField_uniform a (l := 56) rfl (by omega)

/-- LAXA[5:0] = 0 says that LAXA is a multiple of 64 (R46). -/
theorem misaligned_eq_false (op : Operand) : misaligned op = false ↔ op.laxa.toNat % 64 = 0 := by
  unfold misaligned
  rw [bne_eq_false_iff_eq, low6_eq_zero]

/-- The privilege check passes exactly at CPL 0; in real-address mode CPL is 0 (R136, R138). -/
theorem notPrivileged_eq_false (s : State) : notPrivileged s = false ↔ cplOf s = 0 := by
  unfold notPrivileged cplOf
  cases s.mode <;> simp

/-- `a AND NOT b = 0` bit by bit. -/
theorem and_not_eq_zero (a b : Word) :
    a &&& ~~~b = 0 ↔ ∀ i < 64, a.getLsbD i = true → b.getLsbD i = true := by
  constructor
  · intro h i hi ha
    have := congrArg (fun v => v.getLsbD i) h
    simpa [hi, ha] using this
  · intro h
    apply BitVec.eq_of_getLsbD_eq
    intro i hi
    have hb := h i hi
    rw [BitVec.getLsbD_and, BitVec.getLsbD_not]
    cases ha : a.getLsbD i
    · simp
    · rw [hb ha]; simp

/-- The bits of FORMAT (R84). -/
theorem formatOf_bit (v : Word) {i : Nat} (hi : i < 64) :
    (formatOf v).getLsbD i = (v.getLsbD i && decide (i ≠ 63)) := by
  simp only [formatOf, BitVec.getLsbD_and]
  congr 1
  revert i; decide

/-- H1 to H4 pass exactly when the header is legal (R130). -/
theorem headerFails_eq_false (s : State) (f : Nat → Byte) : headerFails s f = false ↔ HeaderLegal s f := by
  simp only [headerFails, Bool.or_eq_false_iff, h1Fails, h2Fails, h3Fails, h4Fails, bne_eq_false_iff_eq,
    and_not_eq_zero, Bool.not_eq_false', List.any_eq_false, List.mem_range, bne_iff_ne, ne_eq, not_not]
  constructor
  · rintro ⟨⟨⟨h1, h2⟩, h3⟩, h4⟩
    refine ⟨h1, fun i hi hx => h2 i (by omega) ?_, h3, h4⟩
    rw [formatOf_bit _ (by omega), hx]
    simp only [Bool.true_and, decide_eq_true_eq]; omega
  · intro h
    refine ⟨⟨⟨h.compacted, fun i hi hx => ?_⟩, h.savedHaveSlots⟩, h.reservedZero⟩
    rw [formatOf_bit _ hi, Bool.and_eq_true, decide_eq_true_eq] at hx
    exact h.slotsEnabled i (by omega) hx.1

/-- The operand's segment base is no ground for a refusal exactly when it is a multiple of 64 (D7). -/
theorem oddSegmentBase_eq_false (s : State) (op : Operand) :
    oddSegmentBase s op = false ↔ (segBase s op.seg).toNat % 64 = 0 := by
  unfold oddSegmentBase
  rw [bne_eq_false_iff_eq, low6_eq_zero]

/-- The launch checks pass exactly where nothing refuses the launch. -/
theorem first_launchChecks_eq_pass {s : State} {op : Operand} :
    Check.first (launchChecks s op) = .pass ↔ Launched s op := by
  rw [Check.first_eq_pass]
  simp only [launchChecks, List.mem_cons, List.not_mem_nil, or_false, forall_eq_or_imp, forall_eq,
    Check.refuseIf_eq_pass, Bool.or_eq_false_iff, Bool.not_eq_false', oddSegmentBase_eq_false]
  exact ⟨fun ⟨a, ⟨b, c⟩, d, e⟩ => ⟨a, b, c, d, e⟩, fun ⟨a, b, c, d, e⟩ => ⟨a, ⟨b, c⟩, d, e⟩⟩

/-- Launch checks that pass leave the checks behind them. -/
theorem first_launchChecks_append {s : State} {op : Operand} (h : Launched s op) (l : List Check) :
    Check.first (launchChecks s op ++ l) = Check.first l := by
  rw [Check.first_append, if_pos (first_launchChecks_eq_pass.2 h)]

/-- With ranks 1 to 4 passed, ranks 5 to 7 are left (R131). -/
theorem first_earlyChecks_of_enabled {s : State} {op : Operand} (h : Enabled s op) :
    Check.first (earlyChecks s op) =
      Check.first
        [ .faultIf (notPrivileged s) (excPrivilege s op), rangeCheck s op 576,
          .faultIf (misaligned op) (excMisaligned s) ] := by
  unfold earlyChecks
  simp only [h.xsave, h.xss, h.osxsave, h.noLock, h.notTs]
  rfl

/-- Ranks 1 to 7 all pass, and the launch is none that is refused. -/
theorem first_early_eq_pass {s : State} {op : Operand} :
    Check.first (launchChecks s op ++ earlyChecks s op) = .pass ↔
      Launched s op ∧ Enabled s op ∧ cplOf s = 0 ∧ (∀ k < 576, OffsetInRange s op k) ∧ op.laxa.toNat % 64 = 0 := by
  rw [Check.first_append, ite_eq_iff, first_launchChecks_eq_pass, Check.first_eq_pass]
  simp only [earlyChecks, List.mem_cons, List.not_mem_nil,
    or_false, forall_eq_or_imp, forall_eq, Check.faultIf_eq_pass,
    rangeCheck_eq_pass (show 0 < 576 by omega), misaligned_eq_false, notPrivileged_eq_false,
    Bool.or_eq_false_iff, Bool.not_eq_false']
  constructor
  · rintro (⟨hl, ⟨e, f⟩, g, h, i, j, k, l⟩ | ⟨hl, hp⟩)
    · exact ⟨hl, ⟨e, f, g, h, i⟩, j, k, l⟩
    · exact absurd hp hl
  · rintro ⟨hl, ⟨e, f, g, h, i⟩, j, k, l⟩
    exact .inl ⟨hl, ⟨e, f⟩, g, h, i, j, k, l⟩

/-- The header can be read exactly when each of its 64 bytes can (R41). -/
theorem readCheck_header {s : State} {op : Operand} :
    readCheck s op.laxa 512 64 = .pass ↔ ∀ k, 512 ≤ k → k < 576 → ByteReadable s op k := by
  rw [readCheck_eq_pass]
  constructor
  · intro h k h1 h2
    have := h (k - 512) (by omega)
    rwa [show 512 + (k - 512) = k by omega] at this
  · intro h k hk; exact h (512 + k) (by omega) (by omega)

/-- Ranks 8 to 12 all pass. -/
theorem first_late_eq_pass {s : State} {op : Operand} :
    Check.first (lateChecks s op) = .pass ↔
      (∀ k, 512 ≤ k → k < 576 → ByteReadable s op k) ∧ HeaderLegal s (areaOf s op) ∧
        (∀ k < operandAreaSize s op, OffsetInRange s op k) ∧
        (∀ k < operandAreaSize s op, ByteReadable s op k) ∧
        mxcsrIllegal s (operandMasks s op) (areaOf s op) = false ∧
        loadFaults s (operandMasks s op) (areaOf s op) = false := by
  have hs : 0 < operandAreaSize s op := lt_of_lt_of_le (by omega) (le_areaSize _ _)
  rw [Check.first_eq_pass, ← readCheck_header]
  simp only [lateChecks, List.mem_cons, List.not_mem_nil, or_false, forall_eq_or_imp, forall_eq,
    Check.faultIf_eq_pass, rangeCheck_eq_pass hs, headerFails_eq_false, readCheck_eq_pass, Nat.zero_add]
  rfl

end Sys2Proof.Machine
end

