-- ==== Sys2Proof/Tests/Slice0.lean ====
section
/-! SUPPORT. Tests of the model against spec/95_test_vectors.md, the smoke test of WellFormed, and for every statement
with hypotheses a witness: a concrete state and operands that meet all of them. -/

namespace Sys2Proof.Tests

open Sys2Proof.Machine

-- One theorem at a time: many kernel evaluations in flight need more threads than the sandbox has memory for.
set_option Elab.async false

/-! ### Small states -/

/-- A flat segment (spec/95 section 0). -/
def flat : Segment :=
  { selector := 8, base := 0, limit := 0xFFFFFFFF, readable := true, expandDown := false, big := true }

/-- The base state S0 of spec/95 section 0 with the registers of its section 2.1. -/
def base : State :=
  { State.reset with
    mode := .bits64, cr0 := 0x80000011, cr4 := 0x40000, xcr0 := 7, ia32Xss := 0x100, rip := 0x400000
    segs := ⟨flat, flat, flat, flat, { flat with base := 0x1000000 }, flat⟩
    gpr := #v[0, 0x100, 0, 0x80000, 0x40000, 0x30000, 0x1FFC0, 0x10000, 0x50000, 0, 0, 0, 0x60000, 0x70000, 0, 0] }

/-- Bytes from numbers. -/
def bytes (l : List Nat) : List Byte := l.map (BitVec.ofNat 8)

/-- `s` with bytes stored from physical address `a` on. -/
def store (s : State) (a : Nat) (l : List Nat) : State := { s with mem := Memory.writeBytes s.mem a (bytes l) }

/-- `s` with general register `k` changed. -/
def setGpr (s : State) (k : Nat) (v : Word) : State := { s with gpr := s.gpr.setIfInBounds k v }

/-- Eight bytes of a number, lowest first. -/
def le8 (v : Nat) : List Nat := (List.range 8).map fun k => v / 256 ^ k % 256

/-- `s` with EDX:EAX = e and the header XSTATE_BV, XCOMP_BV of an area at `a`. -/
def withArea (s : State) (a e xs xc : Nat) : State :=
  store (setGpr (setGpr s 0 (BitVec.ofNat 64 (e % 2 ^ 32))) 2 (BitVec.ofNat 64 (e / 2 ^ 32))) (a + 512)
    (le8 xs ++ le8 xc)

/-- `s` with the bytes of an instruction at pc. -/
def withCode (s : State) (l : List Nat) : State := placeAtPc s (bytes l)

/-- EDX:EAX = FFFFFFFF_FFFFFFFFH. -/
def all : Nat := 2 ^ 64 - 1

/-- A state of spec/95 section 2.2: the area at 0x10000, RDI pointing to it, `0F C7 1F` at pc. -/
def vec (e xs xc : Nat) : State := withCode (withArea base 0x10000 e xs xc) [0x0F, 0xC7, 0x1F]

/-- Vector V1. -/
def v1 : State := vec all 0x103 0x8000000000000107

/-- Vector V4: nothing is requested. -/
def v4 : State := vec 0 0x103 0x8000000000000107

/-- A request of everything with nothing saved and no slot (V11). -/
def v11 : State := vec all 0 0x8000000000000000

/-- Real-address mode, DS = 1000H, BX pointing to the area (F27, F28). -/
def real (bx e xs xc : Nat) : State :=
  setGpr
    (withArea
      { base with
        mode := .real, cr0 := 0x10, rip := 0x100
        segs :=
          { base.segs with
            cs := { flat with base := 0x2000, limit := 0xFFFF, big := false }
            ds := { flat with selector := 0x1000, base := 0x10000, limit := 0xFFFF } } }
      (0x10000 + bx) e xs xc)
    3 (BitVec.ofNat 64 bx)

/-- 32-bit protected mode or compatibility mode, EBX = 0x10000, with a DS of the given limit (F30). -/
def prot (mode : Mode) (limit : BitVec 32) (e xs xc : Nat) : State :=
  setGpr
    (withArea { base with mode := mode, segs := { base.segs with ds := { flat with limit := limit } } }
      0x10000 e xs xc)
    3 0x10000

/-- `XRSTORS [rdi]`, `XRSTORS64 [rdi]`, `XRSTORS [rbp]` with a zero displacement, `XRSTORS [ebx]`, and the 16-bit
`XRSTORS [bx]`. -/
def rdi : Instr := .xrstors [] none (.based 7 .none)
def rdi64 : Instr := .xrstors64 [] ⟨false, false, false⟩ (.based 7 .none)
def rbp : Instr := .xrstors [] none (.based 5 (.d8 0))
def ebx : Instr := .xrstors [] none (.based 3 .none)
def bx16 : Instr := .xrstors [] none (.addr16 .bx .none)

/-- The code context of 32-bit code. -/
def ctx32 : CodeCtx := ⟨false, true⟩

/-! ### WellFormed: one ill-formed term per check -/

theorem test_wf_refuses_xrstors64_outside_64bit_mode :
    formExists ctx32 rdi64 = false ∧ rdi64.wellFormed ctx32 = false := by decide

theorem test_wf_refuses_rex_outside_64bit_mode :
    rexAllowed ctx32 [] (some ⟨false, false, false⟩) = false ∧
      (Instr.xrstors [] (some ⟨false, false, false⟩) (.based 7 .none)).wellFormed ctx32 = false := by decide

theorem test_wf_refuses_ignored_rex_outside_64bit_mode :
    rexAllowed ctx32 [.rexIgnored 8, .seg .fs] none = false ∧
      (Instr.xrstors [.rexIgnored 8, .seg .fs] none (.based 7 .none)).wellFormed ctx32 = false := by decide

theorem test_wf_refuses_ignored_rex_before_the_opcode :
    ignoredRexFollowed [.rexIgnored 8] none = false ∧
      (Instr.xrstors [.rexIgnored 8] none (.based 7 .none)).wellFormed ctx64 = false := by decide

theorem test_wf_refuses_16bit_form_at_64bit_addresses :
    Mem.fitsSize .a64 (.addr16 .bx .none) = false ∧ bx16.wellFormed ctx64 = false := by decide

theorem test_wf_refuses_32bit_form_at_16bit_addresses :
    Mem.fitsSize .a16 (.based 7 .none) = false ∧ rdi.wellFormed ctxReal = false := by decide

theorem test_wf_refuses_bp_without_displacement :
    Mem.fieldsOk (.addr16 .bp .none) = false ∧
      (Instr.xrstors [] none (.addr16 .bp .none)).wellFormed ctxReal = false := by decide

theorem test_wf_refuses_rm_100_as_a_base :
    Mem.fieldsOk (.based 4 (.d8 0)) = false ∧
      (Instr.xrstors [] none (.based 4 (.d8 0))).wellFormed ctx64 = false := by decide

theorem test_wf_refuses_rm_101_without_displacement :
    Mem.fieldsOk (.based 5 .none) = false ∧
      (Instr.xrstors [] none (.based 5 .none)).wellFormed ctx64 = false := by decide

theorem test_wf_refuses_sib_base_101_without_displacement :
    Mem.fieldsOk (.sib 0 0 5 .none) = false ∧
      (Instr.xrstors [] none (.sib 0 0 5 .none)).wellFormed ctx64 = false := by decide

theorem test_wf_refuses_16_bytes :
    (Instr.xrstors (List.replicate 13 (.seg .ds)) none (.based 7 .none)).wellFormed ctx64 = false ∧
      (Instr.xrstors (List.replicate 12 (.seg .ds)) none (.based 7 .none)).wellFormed ctx64 = true := by decide

/-! ### Decoding: words written out from the spec's encoding -/

/-- `0F C7 /3` bit by bit: ModRM = mod 00, reg 011, rm 111; REX = 0100 W R X B (R65, R66; E1, E2). -/
theorem test_decode_bits :
    decode ctx64 [0b00001111, 0b11000111, 0b00011111] = .ok (rdi, []) ∧
      decode ctx64 [0b01001000, 0b00001111, 0b11000111, 0b00011111] = .ok (rdi64, []) := by decide

/-- E6, E22: REX.B extends rm, REX.R is ignored. -/
theorem test_decode_rex_b_and_r :
    decode ctx64 (bytes [0x49, 0x0F, 0xC7, 0x18]) = .ok (.xrstors64 [] ⟨false, false, true⟩ (.based 0 .none), []) ∧
      decode ctx64 (bytes [0x4C, 0x0F, 0xC7, 0x1F]) = .ok (.xrstors64 [] ⟨true, false, false⟩ (.based 7 .none), []) := by
  decide

/-- E9, and the SIB form without a base (R72). -/
theorem test_decode_disp32 :
    decode ctx64 (bytes [0x0F, 0xC7, 0x1D, 0x00, 0x10, 0, 0]) = .ok (.xrstors [] none (.disp32 0x1000), []) ∧
      decode ctx64 (bytes [0x0F, 0xC7, 0x1C, 0x8D, 0x78, 0x56, 0x34, 0x12]) =
        .ok (.xrstors [] none (.sibDisp32 2 1 0x12345678), []) := by decide

/-- E25, and a 16-bit form with disp8: rm 010 is BP + SI (R73). -/
theorem test_decode_16bit :
    decode ctxReal (bytes [0x0F, 0xC7, 0x1F]) = .ok (bx16, []) ∧
      decode ctxReal (bytes [0x0F, 0xC7, 0x5A, 0xC0]) = .ok (.xrstors [] none (.addr16 .bpSi (.d8 0xC0)), []) := by
  decide

/-- E17, E18, E19, E20: no XRSTORS. -/
theorem test_decode_refuses :
    decode ctx64 (bytes [0x66, 0x0F, 0xC7, 0x1F]) = .error .npViolated ∧
      decode ctx64 (bytes [0xF3, 0x0F, 0xC7, 0x1F]) = .error .npViolated ∧
      decode ctx64 (bytes [0x0F, 0xC7, 0xDF]) = .error .registerForm ∧
      decode ctx64 (bytes [0x0F, 0xC7, 0x27]) = .error (.notXrstorsReg 4) ∧
      decode ctx64 (bytes [0x0F, 0xC7, 0x2F]) = .error (.notXrstorsReg 5) := by decide

/-- R64: fifteen bytes are an instruction, sixteen are too long; E27: 48H is no prefix outside 64-bit mode. -/
theorem test_decode_length_and_mode :
    (decode ctx64 (bytes (List.replicate 12 0x3E ++ [0x0F, 0xC7, 0x1F]))).isOk = true ∧
      decode ctx64 (bytes (List.replicate 13 0x3E ++ [0x0F, 0xC7, 0x1F])) = .error .tooLong ∧
      decode ctx32 (bytes [0x48, 0x0F, 0xC7, 0x1F]) = .error .notXrstorsOpcode := by decide

/-- The table's words: XRSTORS's three bytes, and XRSTORS64's with its REX byte in front (log 34). -/
theorem test_table_words :
    decodeTableWord 24 0x0FC718 = some (.xrstors [] none (.addr16 .bxSi .none)) ∧
      decodeTableWord 32 0x480FC718 = some (.xrstors64 [] ⟨false, false, false⟩ (.based 0 .none)) := by decide

/-! ### Addresses and the walk (spec/95 sections 2.1 and 2.3) -/

/-- E12 and E13, E14 and E23 through FS, E25 in real-address mode (DS * 16 + BX). -/
theorem test_linear_addresses :
    (instrOperand base (.xrstors [] none (.sib 2 1 3 (.d32 0xFC00)))).laxa = 0x90000 ∧
      (instrOperand base (.xrstors [.addrSize] none (.based 7 .none))).laxa = 0x10000 ∧
      (instrOperand base (.xrstors [.seg .fs] none (.based 7 .none))).laxa = 0x1010000 ∧
      (instrOperand base (.xrstors [.rexIgnored 8, .seg .fs] none (.based 7 .none))).laxa = 0x1010000 ∧
      (instrOperand (real 0xFD00 all 3 3) bx16).laxa = 0x1FD00 := by decide +kernel

/-- The configuration of O5 and O6: component 9 has 8 bytes and ALIGN64(9) as given. -/
def cfgO (align : Bool) : Cfg :=
  { Cfg.testConfig with comps := Cfg.testConfig.comps ++ [⟨9, 8, align, List.replicate 8 0, []⟩] }

/-- O1, O5 and O6. -/
theorem test_offsets :
    (offsetOf Cfg.testConfig 0x107 2 = 576 ∧ offsetOf Cfg.testConfig 0x107 8 = 832 ∧
        areaSize Cfg.testConfig 0x107 = 904) ∧
      (offsetOf (cfgO false) 0x307 9 = 904 ∧ areaSize (cfgO false) 0x307 = 912) ∧
      offsetOf (cfgO true) 0x307 9 = 960 ∧ areaSize (cfgO true) 0x307 = 968 := by decide +kernel

/-! ### One step (spec/95 sections 2.2 and 2.4) -/

/-- A step answers a next state with this property. -/
def nextWith (p : State → Bool) : Host.Outcome State Fault Refusal → Bool
  | .next t => p t
  | _ => false

/-- V1: XINUSE, XMODIFIED_BV, XRSTOR_INFO.COMPMASK and pc. -/
theorem test_xrstors_v1 :
    nextWith (fun t => t.xinuse == 0x103 && t.xmodifiedBv == 0xFFFFFFFFFFFFFEF8 && t.rip == 0x400003 &&
      t.xrstorInfo.compmask == 0x8000000000000107) (step v1) = true := by decide +kernel

/-- The area of X1 and X2: FSW with TOP = 7, physical register 7 not empty, the field of the x87 instruction pointer, and
1.0 in ST(0). -/
def areaX : State :=
  store (store (store (vec 3 3 0x8000000000000107) 0x10002 [0x00, 0x38, 0x80]) 0x10008 [0x78, 0x56, 0x34, 0x12, 0x23])
    0x10020 [0, 0, 0, 0, 0, 0, 0, 0x80, 0xFF, 0x3F]

/-- X1: FIP is a 32-bit offset, FCS the selector behind it; the tag word is 3FFFH. -/
theorem test_xrstors_x1 :
    nextWith (fun t => t.x87.fip == 0x12345678 && t.x87.fcs == 0x23 && t.x87.ftw == 0x3FFF) (step areaX) = true := by decide +kernel

/-- X2: FIP is a 64-bit field. -/
theorem test_xrstors64_x2 :
    nextWith (fun t => t.x87.fip == 0x2312345678 && t.rip == 0x400004)
      (step (withCode areaX [0x48, 0x0F, 0xC7, 0x1F])) = true := by decide +kernel

/-- V7 by XRSTORS64: components 0, 1 and 2 initialized, 8 loaded from 576 + 256 = offset 832. -/
theorem test_xrstors64_v7 :
    nextWith (fun t => t.xinuse == 0x100 && t.x87.fcw == 0x037F && (scOf t 8).take 1 == [0x5A])
      (step (withCode (store (vec all 0x100 0x8000000000000104) 0x10340 [0x5A]) [0x48, 0x0F, 0xC7, 0x1F])) = true := by
  decide +kernel

/-! ### Witnesses -/

/-- Every check passes. -/
def passes (s : State) (i : Instr) : Bool :=
  i.wellFormed (codeCtx s) && decide (Check.first (launchChecks s (instrOperand s i) ++ earlyChecks s (instrOperand s i)) = .pass) &&
    decide (Check.first (lateChecks s (instrOperand s i)) = .pass)

/-- Checks that pass are the preconditions of R151. -/
theorem canComplete {s : State} {i : Instr} (h : passes s i = true) : CanComplete s i := by
  simp only [passes, Bool.and_eq_true, decide_eq_true_eq] at h
  obtain ⟨⟨hw, h1⟩, h2⟩ := h
  obtain ⟨hl, he, hc, -, ha⟩ := first_early_eq_pass.1 h1
  obtain ⟨-, hh, hr, hb, hm, hf⟩ := first_late_eq_pass.1 h2
  refine ⟨hw, hl, he, hc, ha, hr, hb, hh, fun ht => ?_, ?_⟩
  · simp only [mxcsrIllegal, ht, Bool.true_and] at hm
    simpa using hm
  · unfold loadFaults at hf
    split at hf
    · exact .inl ‹_›
    · refine .inr fun c h2 hc ht => ?_
      simp only [List.any_eq_false, List.mem_range] at hf
      simpa [h2, ht] using hf c hc

/-- Checks that pass lead to a next state. -/
theorem next {s : State} {i : Instr} (h : passes s i = true) : ∃ t, exec i s = .next t := by
  simp only [passes, Bool.and_eq_true, decide_eq_true_eq] at h
  exact ⟨_, exec_eq_next.2 ⟨h.1.1, h.1.2, h.2, rfl⟩⟩

/-- Well formed and not refused at launch. -/
def startsB (s : State) (i : Instr) : Bool :=
  i.wellFormed (codeCtx s) && decide (Check.first (launchChecks s (instrOperand s i)) = .pass)

/-- Past ranks 1 to 4 as well. -/
def enabledB (s : State) (op : Operand) : Bool :=
  s.cfg.cpuidXsave && s.cfg.cpuidXss && cr4Osxsave s && !op.lock && !cr0Ts s

theorem starts {s : State} {i : Instr} (h : startsB s i = true) :
    i.wellFormed (codeCtx s) = true ∧ Launched s (instrOperand s i) := by
  simp only [startsB, Bool.and_eq_true, decide_eq_true_eq] at h
  exact ⟨h.1, first_launchChecks_eq_pass.1 h.2⟩

theorem enabled {s : State} {op : Operand} (h : enabledB s op = true) : Enabled s op := by
  simp only [enabledB, Bool.and_eq_true, Bool.not_eq_true'] at h
  exact ⟨h.1.1.1.1, h.1.1.1.2, h.1.1.2, h.1.2, h.2⟩

theorem inRange {s : State} {op : Operand} {len : Nat} (hl : 0 < len) (h : rangeCheck s op len = .pass) :
    ∀ k < len, OffsetInRange s op k := (rangeCheck_eq_pass hl).1 h

theorem readable {s : State} {op : Operand} {len : Nat} (h : readCheck s op.laxa 0 len = .pass) :
    ∀ k < len, ByteReadable s op k := by
  intro k hk
  have := readCheck_eq_pass.1 h k hk
  rwa [Nat.zero_add] at this

/-- The well-formed, launched and enabled start of the statements about exceptions. -/
def Begins (s : State) (i : Instr) : Prop :=
  i.wellFormed (codeCtx s) = true ∧ Launched s (instrOperand s i) ∧ Enabled s (instrOperand s i)

theorem begins {s : State} {i : Instr} (h : startsB s i = true) (h' : enabledB s (instrOperand s i) = true) :
    Begins s i := ⟨(starts h).1, (starts h).2, enabled h'⟩

/-- A fault of ranks 1 to 7, and of ranks 8 to 12. -/
theorem faultsEarly {s : State} {i : Instr} {e : Exc} (hw : i.wellFormed (codeCtx s) = true)
    (h : Check.first (launchChecks s (instrOperand s i) ++ earlyChecks s (instrOperand s i)) = .fault e) :
    ∃ r left, exec i s = .fault (.exception r left) ∧ r.vector = e.vector := by
  rw [exec_of_wellFormed hw]
  exact ⟨_, _, xrstorsExec_eq_fault.2 ⟨e, rfl, .inl ⟨h, rfl⟩⟩, rfl⟩

theorem faultsLate {s : State} {i : Instr} {e : Exc} (hw : i.wellFormed (codeCtx s) = true)
    (h : Check.first (launchChecks s (instrOperand s i) ++ earlyChecks s (instrOperand s i)) = .pass)
    (h' : Check.first (lateChecks s (instrOperand s i)) = .fault e) :
    ∃ r left, exec i s = .fault (.exception r left) ∧ r.vector = e.vector := by
  rw [exec_of_wellFormed hw]
  exact ⟨_, _, xrstorsExec_eq_fault.2 ⟨e, rfl, .inr ⟨h, h', rfl⟩⟩, rfl⟩

/-- A refusal of ranks 8 to 12. -/
theorem refusesLate {s : State} {i : Instr} {r : Refusal} (hw : i.wellFormed (codeCtx s) = true)
    (h : Check.first (launchChecks s (instrOperand s i) ++ earlyChecks s (instrOperand s i)) = .pass)
    (h' : Check.first (lateChecks s (instrOperand s i)) = .refuse r) : exec i s = .refused r := by
  rw [exec_of_wellFormed hw]
  exact xrstorsExec_eq_refused.2 (.inr ⟨h, h'⟩)

/-! #### Decoding and encoding -/

theorem witness_EncodeThenDecodeGivesTheInstruction :
    rdi.wellFormed ctx64 = true ∧ rdi64.wellFormed ctx64 = true ∧ ebx.wellFormed ctx32 = true ∧
      bx16.wellFormed ctxReal = true := by decide

theorem witness_DecodedBytesAreTheEncoding :
    decode ctx64 (bytes [0x48, 0x0F, 0xC7, 0x1F, 0x90]) = .ok (rdi64, [0x90]) := by decide

theorem witness_AcceptedBytesMatchTheTablePattern :
    decode ctx64 (bytes [0x48, 0x0F, 0xC7, 0x1F]) = .ok (rdi64, []) ∧ rdi64.w = true ∧
      decode ctx64 (bytes [0x0F, 0xC7, 0x1F]) = .ok (rdi, []) := by decide

theorem witness_UnassignedFormsAreNotXrstors :
    (0x27 : Byte) &&& 0x38 ≠ 0x18 ∧ (0x3F : Byte) &&& 0x38 ≠ 0x18 ∧
      ((0xDF : Byte) &&& 0x38 = 0x18 ∧ (0xDF : Byte) &&& 0xC0 = 0xC0) ∧ (0x1F : Byte) &&& 0x38 = 0x18 := by decide

theorem witness_NoRexOutside64BitMode :
    ctx32.bits64 = false ∧ decode ctx32 (bytes [0x0F, 0xC7, 0x1B]) = .ok (ebx, []) := by decide

/-! #### Operand, masks and area -/

theorem witness_OperandSegmentSelection :
    (prot .protectedMode 0xFFFFFFFF all 3 3).mode ≠ .bits64 ∧ v1.mode = .bits64 ∧
      (∀ r, Prefix.addrSize ≠ .seg r) ∧ (∀ r, Prefix.rexIgnored 8 ≠ .seg r) :=
  ⟨by decide +kernel, by decide +kernel, by simp, by simp⟩

/-- Memory-mapped I/O at one byte of the area of V1. -/
def ioAt (a : Nat) : State := { v1 with ioRanges := [(a, 1)] }

/-- In 64-bit mode through FS and through DS, and in protected mode; byte 0 in memory, in memory-mapped I/O and on a page
that is not present. -/
theorem witness_LinearAddressAndAreaBytes :
    (base.mode = .bits64 ∧ (instrOperand base (.xrstors [.seg .fs] none (.based 7 .none))).seg = .fs ∧
        (instrOperand base rdi).seg = .ds) ∧
      (prot .protectedMode 0xFFFFFFFF all 3 3).mode ≠ .bits64 ∧
      (Machine.translate v1 0x10000 true = .phys 0x10000 ∧ isIo v1 0x10000 = false) ∧
      (Machine.translate (ioAt 0x10000) 0x10000 true = .phys 0x10000 ∧ isIo (ioAt 0x10000) 0x10000 = true) ∧
      Machine.translate { v1 with pages := [⟨0x10000, 1, .fault 2, .fault 6⟩] } 0x10000 true = .fault 2 := by
  decide +kernel

theorem witness_MasksBitByBit : 0 < 64 ∧ 63 < 64 := by decide

theorem witness_MaskFacts : HeaderLegal v1 (instrArea v1 rdi) ∧ 0 < 63 ∧ 62 < 63 :=
  ⟨(canComplete (i := rdi) (by decide +kernel)).2.header, by decide, by decide⟩

theorem witness_PageWalkOffsets :
    (∀ d ∈ Cfg.testConfig.comps, d.align64 = false) ∧ 2 ≤ 2 ∧ 62 ≤ 62 := by decide +kernel

theorem witness_SlotsAreDisjointAndInside :
    (∀ i, 2 ≤ i → i ≤ 62 → (0x3 : Word).getLsbD i = false) ∧
      ((0x4000000000000004 : Word).getLsbD 2 = true ∧ (0x4000000000000004 : Word).getLsbD 62 = true ∧
        (∀ j, 2 ≤ j → j < 2 → (0x4000000000000004 : Word).getLsbD j = false) ∧
        (∀ k, 2 < k → k < 62 → (0x4000000000000004 : Word).getLsbD k = false) ∧
        (∀ k, 62 < k → k ≤ 62 → (0x4000000000000004 : Word).getLsbD k = false)) ∧
      ((compCfg (cfgO true) 9).map CompCfg.align64).getD false = true ∧
      ((compCfg (cfgO true) 8).map CompCfg.align64).getD false = false := by
  have h : ∀ i < 63, 2 < i → i < 62 → (0x4000000000000004 : Word).getLsbD i = false := by decide +kernel
  have h3 : ∀ i < 63, 2 ≤ i → (0x3 : Word).getLsbD i = false := by decide +kernel
  exact ⟨fun i h2 hi => h3 i (by omega) h2,
    ⟨by decide +kernel, by decide +kernel, fun j _ _ => by omega, fun k h1 h2 => h k (by omega) h1 h2,
      fun k _ _ => by omega⟩, by decide +kernel, by decide +kernel⟩

/-! #### Completed executions -/

theorem witness_XrstorsCompletesWhenReady :
    CanComplete v1 rdi ∧ CanComplete (real 0xFD00 all 3 0x8000000000000003) bx16 ∧
      CanComplete (prot .protectedMode 0xFFFFFFFF all 3 0x8000000000000107) ebx ∧
      CanComplete (prot .compatibility 0xFFFFFFFF all 3 0x8000000000000107) ebx :=
  ⟨canComplete (by decide +kernel), canComplete (by decide +kernel), canComplete (by decide +kernel),
    canComplete (by decide +kernel)⟩

theorem witness_Xrstors64CompletesWhenReady : CanComplete v1 rdi64 := canComplete (by decide +kernel)

theorem witness_CompletesExactlyWhenReady : (∃ t, exec rdi v1 = .next t) ∧ CanComplete v1 rdi :=
  ⟨next (by decide +kernel), canComplete (by decide +kernel)⟩

theorem witness_XmodifiedBecomesNotRfbm : CanComplete v1 rdi ∧ CanComplete v4 rdi64 :=
  ⟨canComplete (by decide +kernel), canComplete (by decide +kernel)⟩

/-- Nothing is requested: every component is unselected, 2 and 62 among them. -/
theorem witness_UnselectedComponentsAreNotUpdated :
    CanComplete v4 rdi ∧ (rfbmOf v4).getLsbD 0 = false ∧ (rfbmOf v4).getLsbD 1 = false ∧
      (rfbmOf v4).getLsbD 2 = false ∧ (rfbmOf v4).getLsbD 62 = false :=
  ⟨canComplete (by decide +kernel), by decide +kernel, by decide +kernel, by decide +kernel, by decide +kernel⟩

theorem witness_XinuseTracksLoadAndInit :
    CanComplete v1 rdi ∧ (rfbmOf v1).getLsbD 0 = true ∧ (rfbmOf v1).getLsbD 8 = true ∧
      (rfbmOf v1).getLsbD 2 = true :=
  ⟨canComplete (by decide +kernel), by decide +kernel, by decide +kernel, by decide +kernel⟩

theorem witness_FrameOfACompletedExecution : CanComplete v1 rdi ∧ CanComplete v1 rdi64 :=
  ⟨canComplete (by decide +kernel), canComplete (by decide +kernel)⟩

/-- F18: a legal start whose header byte 16 is 1. -/
def f18 : State := store v1 0x10210 [1]

theorem witness_NoFlagChanges : CanComplete v1 rdi ∧ ∃ r left, exec rdi f18 = .fault (.exception r left) := by
  refine ⟨canComplete (by decide +kernel), ?_⟩
  obtain ⟨r, left, h, -⟩ := faultsLate (s := f18) (i := rdi) (e := ⟨.gp, some 0, none⟩) (by decide +kernel)
    (by decide +kernel) (by decide +kernel)
  exact ⟨r, left, h⟩

/-! #### Components -/

theorem witness_X87LoadByXrstors :
    CanComplete v1 rdi ∧ (rfbmOf v1).getLsbD 0 = true ∧ (xstateBvOf (instrArea v1 rdi)).getLsbD 0 = true :=
  ⟨canComplete (by decide +kernel), by decide +kernel, by decide +kernel⟩

theorem witness_X87LoadByXrstors64 :
    CanComplete v1 rdi64 ∧ (rfbmOf v1).getLsbD 0 = true ∧ (xstateBvOf (instrArea v1 rdi64)).getLsbD 0 = true :=
  ⟨canComplete (by decide +kernel), by decide +kernel, by decide +kernel⟩

theorem witness_X87StackAndTagsAfterLoad :
    CanComplete areaX rdi ∧ (rfbmOf areaX).getLsbD 0 = true ∧ (xstateBvOf (instrArea areaX rdi)).getLsbD 0 = true ∧
      (7 < 8 ∧ 9 < 10) ∧ (instrArea areaX rdi 4).getLsbD 7 = true ∧ (instrArea areaX rdi 4).getLsbD 0 = false :=
  ⟨canComplete (by decide +kernel), by decide +kernel, by decide +kernel, by decide, by decide +kernel,
    by decide +kernel⟩

theorem witness_X87InitialState :
    CanComplete v11 rdi ∧ (rfbmOf v11).getLsbD 0 = true ∧ (xstateBvOf (instrArea v11 rdi)).getLsbD 0 = false :=
  ⟨canComplete (by decide +kernel), by decide +kernel, by decide +kernel⟩

/-- The same request in 32-bit protected mode, where XMM8..XMM15 are not reached. -/
def p1 : State := prot .protectedMode 0xFFFFFFFF all 0x103 0x8000000000000107
def p11 : State := prot .protectedMode 0xFFFFFFFF all 0 0x8000000000000000

theorem witness_SseLoad :
    (CanComplete v1 rdi ∧ (rfbmOf v1).getLsbD 1 = true ∧ (xstateBvOf (instrArea v1 rdi)).getLsbD 1 = true ∧
        v1.mode = .bits64) ∧
      CanComplete p1 ebx ∧ (rfbmOf p1).getLsbD 1 = true ∧ (xstateBvOf (instrArea p1 ebx)).getLsbD 1 = true ∧
        p1.mode ≠ .bits64 :=
  ⟨⟨canComplete (by decide +kernel), by decide +kernel, by decide +kernel, by decide +kernel⟩,
    canComplete (by decide +kernel), by decide +kernel, by decide +kernel, by decide +kernel⟩

theorem witness_SseInitialState :
    (CanComplete v11 rdi ∧ (rfbmOf v11).getLsbD 1 = true ∧ (xstateBvOf (instrArea v11 rdi)).getLsbD 1 = false ∧
        v11.mode = .bits64) ∧
      CanComplete p11 ebx ∧ (rfbmOf p11).getLsbD 1 = true ∧
        (xstateBvOf (instrArea p11 ebx)).getLsbD 1 = false ∧ p11.mode ≠ .bits64 :=
  ⟨⟨canComplete (by decide +kernel), by decide +kernel, by decide +kernel, by decide +kernel⟩,
    canComplete (by decide +kernel), by decide +kernel, by decide +kernel, by decide +kernel⟩

/-- Component 8 is loaded and component 2, at the low end of the range, is initialized. -/
theorem witness_ExtendedComponentsIn64BitMode :
    CanComplete v1 rdi ∧ v1.mode = .bits64 ∧
      ((rfbmOf v1).getLsbD 8 = true ∧ (xstateBvOf (instrArea v1 rdi)).getLsbD 8 = true) ∧
      (rfbmOf v1).getLsbD 2 = true ∧ (xstateBvOf (instrArea v1 rdi)).getLsbD 2 = false :=
  ⟨canComplete (by decide +kernel), by decide +kernel, ⟨by decide +kernel, by decide +kernel⟩, by decide +kernel,
    by decide +kernel⟩

theorem cfgWf_testConfig : CfgWf Cfg.testConfig :=
  ⟨by decide, by decide, by decide, by decide +kernel, by decide +kernel⟩

/-- Byte 127 of component 2 belongs to the low registers, byte 128 to the high ones. -/
theorem witness_ExtendedComponentsOutside64BitMode :
    CanComplete p1 ebx ∧ p1.mode ≠ .bits64 ∧ CfgWf p1.cfg ∧ (rfbmOf p1).getLsbD 2 = true ∧
      (rfbmOf p1).getLsbD 8 = true ∧ isUpperByte p1.cfg 2 127 = false ∧ isUpperByte p1.cfg 2 128 = true :=
  ⟨canComplete (by decide +kernel), by decide +kernel, cfgWf_testConfig, by decide +kernel, by decide +kernel,
    by decide +kernel, by decide +kernel⟩

/-! #### Whole-instruction results -/

theorem witness_ExecutionRefinesThePagesOperation :
    CanComplete v1 rdi ∧ CanComplete v1 rdi64 ∧ v1.mode = .bits64 ∧ ∀ d ∈ v1.cfg.comps, d.align64 = false :=
  ⟨canComplete (by decide +kernel), canComplete (by decide +kernel), by decide +kernel, by decide +kernel⟩

theorem witness_FormsAgreeWithoutX87Load :
    (v11.mode = .bits64 ∧ (instrMasks v11 rdi64).toBeRestored.getLsbD 0 = false ∧ ∃ t, exec rdi64 v11 = .next t) ∧
      (v1.mode = .bits64 ∧ (instrMasks v1 rdi64).toBeRestored.getLsbD 0 = true ∧ ∃ t, exec rdi64 v1 = .next t) ∧
      (f18.mode = .bits64 ∧ ∃ r left, exec rdi64 f18 = .fault (.exception r left)) ∧
      (ioAt 0x10000).mode = .bits64 ∧ exec rdi64 (ioAt 0x10000) = .refused .deviceMemory := by
  refine ⟨⟨by decide +kernel, by decide +kernel, next (by decide +kernel)⟩,
    ⟨by decide +kernel, by decide +kernel, next (by decide +kernel)⟩, ⟨by decide +kernel, ?_⟩, by decide +kernel,
    refusesLate (by decide +kernel) (by decide +kernel) (by decide +kernel)⟩
  obtain ⟨r, left, h, -⟩ := faultsLate (s := f18) (i := rdi64) (e := ⟨.gp, some 0, none⟩) (by decide +kernel)
    (by decide +kernel) (by decide +kernel)
  exact ⟨r, left, h⟩

/-- The registers of V1 with bits 63:32 of RAX and RDX set. -/
def highBits : Vector Word 16 :=
  (v1.gpr.setIfInBounds 0 0xFFFFFFFFFFFFFFFF).setIfInBounds 2 0xFFFFFFFFFFFFFFFF

theorem witness_UpperHalvesOfRaxRdxAreIgnored :
    (gprOf { v1 with gpr := highBits } 0).setWidth 32 = (gprOf v1 0).setWidth 32 ∧
      (gprOf { v1 with gpr := highBits } 2).setWidth 32 = (gprOf v1 2).setWidth 32 ∧
      instrOperand { v1 with gpr := highBits } rdi = instrOperand v1 rdi ∧ v1.cfg.loadFault = .never ∧
      (gprOf v1 0 ≠ gprOf { v1 with gpr := highBits } 0) ∧ ∃ t, exec rdi v1 = .next t :=
  ⟨by decide +kernel, by decide +kernel, by decide +kernel, by decide +kernel, by decide +kernel,
    next (by decide +kernel)⟩

theorem witness_TrackingStateIsNotRead : v1.cfg.loadFault = .never ∧ ∃ t, exec rdi v1 = .next t :=
  ⟨by decide +kernel, next (by decide +kernel)⟩

/-! #### Exceptions of ranks 1 to 7 -/

/-- F1, F1 with the other CPUID bit, F2 and F3. -/
def f1 : State := { v1 with cfg := { v1.cfg with cpuidXss := false } }
def f1Xsave : State := { v1 with cfg := { v1.cfg with cpuidXsave := false } }
def f2 : State := { v1 with cr4 := 0 }
def lockRdi : Instr := .xrstors [.lock] none (.based 7 .none)

theorem witness_UndefinedOpcodeCauses :
    ((rdi.wellFormed (codeCtx f1) = true ∧ Launched f1 (instrOperand f1 rdi)) ∧ f1.cfg.cpuidXss = false) ∧
      ((rdi.wellFormed (codeCtx f1Xsave) = true ∧ Launched f1Xsave (instrOperand f1Xsave rdi)) ∧ f1Xsave.cfg.cpuidXsave = false) ∧
      ((rdi.wellFormed (codeCtx f2) = true ∧ Launched f2 (instrOperand f2 rdi)) ∧ f2.cr4.getLsbD 18 = false) ∧
      (lockRdi.wellFormed (codeCtx v1) = true ∧ Launched v1 (instrOperand v1 lockRdi)) ∧ Prefix.lock ∈ lockRdi.prefixes :=
  ⟨⟨starts (by decide +kernel), by decide +kernel⟩, ⟨starts (by decide +kernel), by decide +kernel⟩,
    ⟨starts (by decide +kernel), by decide +kernel⟩, starts (by decide +kernel), by decide⟩

/-- F4. -/
def f4 : State := { v1 with cr0 := 0x80000019 }

theorem witness_DeviceNotAvailableWhenTaskSwitched :
    (rdi.wellFormed (codeCtx f4) = true ∧ Launched f4 (instrOperand f4 rdi)) ∧ f4.cfg.cpuidXsave = true ∧ f4.cfg.cpuidXss = true ∧
      f4.cr4.getLsbD 18 = true ∧ Prefix.lock ∉ rdi.prefixes ∧ f4.cr0.getLsbD 3 = true :=
  ⟨starts (by decide +kernel), by decide +kernel, by decide +kernel, by decide +kernel, by decide +kernel,
    by decide +kernel⟩

/-- F26. -/
def f26 : State := prot .virtual8086 0xFFFF all 3 0x8000000000000107

/-- Alignment checking is off, as the statements say it. -/
def NoAc (s : State) : Prop :=
  s.cr0.getLsbD 18 = false ∨ s.rflags.getLsbD 18 = false ∨ s.mode ≠ .virtual8086 ∧ s.cpl ≠ 3

/-- F5 at CPL 1 and CPL 3, CPL 2 with AM and AC set, and virtual-8086 mode (F26). -/
theorem witness_NotPrivilegedRaisesGp :
    (Begins { v1 with cpl := 1 } rdi ∧ { v1 with cpl := 1 }.cpl ≠ 0 ∧ NoAc { v1 with cpl := 1 }) ∧
      (Begins { v1 with cpl := 3 } rdi ∧ { v1 with cpl := 3 }.cpl ≠ 0 ∧ NoAc { v1 with cpl := 3 }) ∧
      (Begins { v1 with cpl := 2, cr0 := 0x80040011, rflags := 0x40002 } rdi ∧
        NoAc { v1 with cpl := 2, cr0 := 0x80040011, rflags := 0x40002 }) ∧
      Begins f26 bx16 ∧ f26.mode = .virtual8086 ∧ f26.mode ≠ .real ∧ NoAc f26 :=
  ⟨⟨begins (by decide +kernel) (by decide +kernel), by decide +kernel, .inl (by decide +kernel)⟩,
    ⟨begins (by decide +kernel) (by decide +kernel), by decide +kernel, .inr (.inl (by decide +kernel))⟩,
    ⟨begins (by decide +kernel) (by decide +kernel), .inr (.inr (by decide +kernel))⟩,
    begins (by decide +kernel) (by decide +kernel), by decide +kernel, by decide +kernel, .inl (by decide +kernel)⟩

/-- F9: alignment checking enabled at CPL 3, with RDI and AC_BEHAVIOUR as given. -/
def acState (address : Word) (b : AcBehaviour) : State :=
  { setGpr v1 7 address with cpl := 3, cr0 := 0x80040011, rflags := 0x40002, cfg := { v1.cfg with acBehaviour := b } }

/-- Alignment checking is enabled, as the statement says it. -/
def AcOn (s : State) : Prop :=
  s.cr0.getLsbD 18 = true ∧ s.rflags.getLsbD 18 = true ∧ (s.mode = .virtual8086 ∨ s.mode ≠ .real ∧ s.cpl = 3)

theorem acOn (a : Word) (b : AcBehaviour) : AcOn (acState a b) :=
  ⟨(by decide : (0x80040011 : Word).getLsbD 18 = true), (by decide : (0x40002 : Word).getLsbD 18 = true),
    .inr ⟨(by decide : Mode.bits64 ≠ .real), rfl⟩⟩

/-- The same in virtual-8086 mode, whatever the field CPL holds. -/
def acV86 : State := { f26 with cr0 := 0x80040011, rflags := 0x40002 }

theorem witness_AlignmentCheckNamesTheFault :
    (Begins (acState 0x10020 .gp) rdi ∧ AcOn (acState 0x10020 .gp)) ∧
      (Begins acV86 bx16 ∧ AcOn acV86 ∧ acV86.cfg.acBehaviour = .gp) ∧
      (Begins (acState 0x10000 .ac) rdi ∧ AcOn (acState 0x10000 .ac) ∧
        (instrOperand (acState 0x10000 .ac) rdi).laxa.toNat % 64 = 0) ∧
      (Begins (acState 0x7FFFFFFFFDC1 .ac) rdi ∧ AcOn (acState 0x7FFFFFFFFDC1 .ac) ∧
        ¬ OffsetInRange (acState 0x7FFFFFFFFDC1 .ac) (instrOperand (acState 0x7FFFFFFFFDC1 .ac) rdi) 575) ∧
      (∀ b, b = .ac ∨ b = .either → Begins (acState 0x1003F b) rdi ∧ AcOn (acState 0x1003F b) ∧
        (instrOperand (acState 0x1003F b) rdi).laxa.toNat % 64 ≠ 0 ∧
        ∀ k < 576, OffsetInRange (acState 0x1003F b) (instrOperand (acState 0x1003F b) rdi) k) := by
  refine ⟨⟨begins (by decide +kernel) (by decide +kernel), acOn _ _⟩,
    ⟨begins (by decide +kernel) (by decide +kernel), ⟨by decide +kernel, by decide +kernel, .inl rfl⟩,
      by decide +kernel⟩,
    ⟨begins (by decide +kernel) (by decide +kernel), acOn _ _, by decide +kernel⟩,
    ⟨begins (by decide +kernel) (by decide +kernel), acOn _ _, fun h => ?_⟩, ?_⟩
  · exact absurd (show canonical .bits48 _ = true from h) (by decide +kernel)
  · rintro b (rfl | rfl)
    · exact ⟨begins (by decide +kernel) (by decide +kernel), acOn _ _, by decide +kernel,
        inRange (by decide) (by decide +kernel)⟩
    · exact ⟨begins (by decide +kernel) (by decide +kernel), acOn _ _, by decide +kernel,
        inRange (by decide) (by decide +kernel)⟩

theorem witness_NeverCompletesInVirtual8086Mode :
    f26.mode = .virtual8086 ∧ Begins f26 bx16 ∧ (f26.cr0.getLsbD 18 = false ∨ f26.rflags.getLsbD 18 = false) :=
  ⟨by decide +kernel, begins (by decide +kernel) (by decide +kernel), by decide +kernel⟩

/-- The linear address of offset `k`, and the bits that must be equal, as the statement says them. -/
def HasOddBit (s : State) (i : Instr) (k : Nat) : Prop :=
  ∃ b, (if s.cfg.linearWidth = .bits48 then 47 else 56) ≤ b ∧ b < 64 ∧
    ((instrOperand s i).laxa + BitVec.ofNat 64 k).getLsbD b ≠ ((instrOperand s i).laxa + BitVec.ofNat 64 k).getLsbD 63

/-- V1 with 57-bit linear addresses and RDI as given. -/
def wide (address : Word) : State := { setGpr v1 7 address with cfg := { v1.cfg with linearWidth := .bits57 } }

/-- F10 and F11; an area of which only offset 575 is not canonical; with 57 bits the address of F10 is in range and the
first past the lower half is not. -/
theorem witness_NonCanonicalAddressFaults :
    (Begins (setGpr v1 7 0x800000000000) rdi ∧ HasOddBit (setGpr v1 7 0x800000000000) rdi 0) ∧
      (Begins (setGpr v1 5 0x800000000000) rbp ∧ (instrOperand (setGpr v1 5 0x800000000000) rbp).seg = .ss ∧
        HasOddBit (setGpr v1 5 0x800000000000) rbp 0) ∧
      (Begins (setGpr v1 7 0x7FFFFFFFFDC1) rdi ∧ HasOddBit (setGpr v1 7 0x7FFFFFFFFDC1) rdi 575 ∧
        (setGpr v1 7 0x7FFFFFFFFDC1).mode = .bits64 ∧ (setGpr v1 7 0x7FFFFFFFFDC1).cpl = 0) ∧
      (wide 0x800000000000).mode = .bits64 ∧
        OffsetInRange (wide 0x800000000000) (instrOperand (wide 0x800000000000) rdi) 0 ∧
        Begins (wide 0x100000000000000) rdi ∧ HasOddBit (wide 0x100000000000000) rdi 0 :=
  ⟨⟨begins (by decide +kernel) (by decide +kernel), 47, by decide +kernel⟩,
    ⟨begins (by decide +kernel) (by decide +kernel), by decide +kernel, 47, by decide +kernel⟩,
    ⟨begins (by decide +kernel) (by decide +kernel), ⟨47, by decide +kernel⟩, by decide +kernel, by decide +kernel⟩,
    by decide +kernel, show canonical .bits57 _ = true by decide +kernel,
    begins (by decide +kernel) (by decide +kernel), 56, by decide +kernel⟩

/-- A DS whose limit is one byte short of offset 575, a null one and an unreadable one; SS through EBP. -/
def shortDs : State := prot .protectedMode 0x1023E all 3 0x8000000000000003
def nullDs : State := { shortDs with segs := { shortDs.segs with ds := { flat with selector := 3 } } }
def darkDs : State := { shortDs with segs := { shortDs.segs with ds := { flat with readable := false } } }
def shortSs : State := setGpr { shortDs with segs := { shortDs.segs with ss := { flat with limit := 0x1023E } } } 5 0x10000

theorem witness_SegmentLimitFaults :
    (Begins nullDs ebx ∧ nullDs.mode = .protectedMode ∧ nullDs.cpl = 0 ∧
        (segOf nullDs (instrOperand nullDs ebx).seg).isNull = true) ∧
      (Begins darkDs ebx ∧ (segOf darkDs (instrOperand darkDs ebx).seg).readable = false) ∧
      (Begins shortDs ebx ∧ (segOf shortDs (instrOperand shortDs ebx).seg).isNull = false ∧
        (segOf shortDs (instrOperand shortDs ebx).seg).readable = true ∧
        (segOf shortDs (instrOperand shortDs ebx).seg).expandDown = false ∧
        (segOf shortDs (instrOperand shortDs ebx).seg).limit.toNat < (instrOperand shortDs ebx).ea.toNat + 575) ∧
      Begins shortSs rbp ∧ (instrOperand shortSs rbp).seg = .ss ∧
        (segOf shortSs .ss).limit.toNat < (instrOperand shortSs rbp).ea.toNat + 575 :=
  ⟨⟨begins (by decide +kernel) (by decide +kernel), by decide +kernel, by decide +kernel, by decide +kernel⟩,
    ⟨begins (by decide +kernel) (by decide +kernel), by decide +kernel⟩,
    ⟨begins (by decide +kernel) (by decide +kernel), by decide +kernel, by decide +kernel, by decide +kernel,
      by decide +kernel⟩,
    begins (by decide +kernel) (by decide +kernel), by decide +kernel, by decide +kernel⟩

/-- An operand whose offset 575 is address 10000H (FDC1H + 575). -/
theorem witness_RealModeExtentFaults :
    Begins (real 0xFDC1 all 3 0x8000000000000003) bx16 ∧ (real 0xFDC1 all 3 0x8000000000000003).mode = .real ∧
      0xFFFF < (instrOperand (real 0xFDC1 all 3 0x8000000000000003) bx16).ea.toNat + 575 ∧
      (instrOperand (real 0xFDC1 all 3 0x8000000000000003) bx16).ea.toNat + 574 = 0xFFFF :=
  ⟨begins (by decide +kernel) (by decide +kernel), by decide +kernel, by decide +kernel, by decide +kernel⟩

/-- F8 with LAXA[5:0] = 1 and 63. -/
theorem witness_MisalignedOperandFaults :
    ∀ a : Word, a = 0x10001 ∨ a = 0x1003F →
      Begins (setGpr v1 7 a) rdi ∧ cplOf (setGpr v1 7 a) = 0 ∧
        (∀ k < 576, OffsetInRange (setGpr v1 7 a) (instrOperand (setGpr v1 7 a) rdi) k) ∧
        (instrOperand (setGpr v1 7 a) rdi).laxa.toNat % 64 ≠ 0 := by
  rintro a (rfl | rfl)
  · exact ⟨begins (by decide +kernel) (by decide +kernel), by decide +kernel,
      inRange (by decide) (by decide +kernel), by decide +kernel⟩
  · exact ⟨begins (by decide +kernel) (by decide +kernel), by decide +kernel,
      inRange (by decide) (by decide +kernel), by decide +kernel⟩

/-! #### Exceptions of ranks 8 to 12 -/

/-- The common hypotheses of the statements on ranks 8 to 12. -/
def Reaches (s : State) (i : Instr) : Prop :=
  Begins s i ∧ cplOf s = 0 ∧ (∀ k < 576, OffsetInRange s (instrOperand s i) k) ∧
    (instrOperand s i).laxa.toNat % 64 = 0 ∧ s.cfg.faultAtomicity = .precise

theorem reaches {s : State} {i : Instr} (hw : i.wellFormed (codeCtx s) = true)
    (h : Check.first (launchChecks s (instrOperand s i) ++ earlyChecks s (instrOperand s i)) = .pass)
    (ha : s.cfg.faultAtomicity = .precise) : Reaches s i := by
  obtain ⟨hl, he, hc, hr, hm⟩ := first_early_eq_pass.1 h
  exact ⟨⟨hw, hl, he⟩, hc, hr, hm, ha⟩

/-- F13, the page fault on the header's first byte, and on its last. -/
def f13 (a : Nat) : State := { v1 with pages := [⟨a, 1, .fault 0, .fault 4⟩] }

theorem witness_UnreadableHeader :
    (Reaches (f13 0x10200) rdi ∧
        areaRead (f13 0x10200) (instrOperand (f13 0x10200) rdi).laxa 512 = .pageFault 0) ∧
      (Reaches (f13 0x1023F) rdi ∧
        areaRead (f13 0x1023F) (instrOperand (f13 0x1023F) rdi).laxa 575 = .pageFault 0) ∧
      (Reaches (ioAt 0x10200) rdi ∧ exec rdi (ioAt 0x10200) = .refused .deviceMemory) ∧
      Reaches (ioAt 0x1023F) rdi ∧
        readCheck (ioAt 0x1023F) (instrOperand (ioAt 0x1023F) rdi).laxa 512 64 = .refuse .deviceMemory :=
  ⟨⟨reaches (by decide +kernel) (by decide +kernel) (by decide +kernel), by decide +kernel⟩,
    ⟨reaches (by decide +kernel) (by decide +kernel) (by decide +kernel), by decide +kernel⟩,
    ⟨reaches (by decide +kernel) (by decide +kernel) (by decide +kernel),
      refusesLate (by decide +kernel) (by decide +kernel) (by decide +kernel)⟩,
    reaches (by decide +kernel) (by decide +kernel) (by decide +kernel), by decide +kernel⟩

/-- The header of `s`, reached and readable. -/
def HeaderReached (s : State) : Prop :=
  Reaches s rdi ∧ ∀ k, 512 ≤ k → k < 576 → ByteReadable s (instrOperand s rdi) k

theorem headerReached {s : State} (hw : rdi.wellFormed (codeCtx s) = true)
    (h : Check.first (launchChecks s (instrOperand s rdi) ++ earlyChecks s (instrOperand s rdi)) = .pass)
    (ha : s.cfg.faultAtomicity = .precise) (hb : readCheck s (instrOperand s rdi).laxa 512 64 = .pass) :
    HeaderReached s := ⟨reaches hw h ha, readCheck_header.1 hb⟩

/-- F14, F15 with the highest component, F16 with the highest bit, F18 and F19. -/
theorem witness_IllegalHeaderFaults :
    (HeaderReached (vec all 3 7) ∧ (xcompBvOf (instrArea (vec all 3 7) rdi)).getLsbD 63 = false) ∧
      (HeaderReached (vec all 3 0xC000000000000003) ∧
        (xcompBvOf (instrArea (vec all 3 0xC000000000000003) rdi)).getLsbD 62 = true ∧
        (checkMaskOf (vec all 3 0xC000000000000003)).getLsbD 62 = false) ∧
      (HeaderReached (vec all 0x8000000000000003 3) ∧
        (xstateBvOf (instrArea (vec all 0x8000000000000003 3) rdi)).getLsbD 63 = true ∧
        (xcompBvOf (instrArea (vec all 0x8000000000000003 3) rdi)).getLsbD 63 = false) ∧
      (HeaderReached f18 ∧ instrArea f18 rdi (528 + 0) ≠ 0) ∧
      HeaderReached (store v1 0x1023F [0x80]) ∧ instrArea (store v1 0x1023F [0x80]) rdi (528 + 47) ≠ 0 :=
  ⟨⟨headerReached (by decide +kernel) (by decide +kernel) (by decide +kernel) (by decide +kernel),
      by decide +kernel⟩,
    ⟨headerReached (by decide +kernel) (by decide +kernel) (by decide +kernel) (by decide +kernel),
      by decide +kernel, by decide +kernel⟩,
    ⟨headerReached (by decide +kernel) (by decide +kernel) (by decide +kernel) (by decide +kernel),
      by decide +kernel, by decide +kernel⟩,
    ⟨headerReached (by decide +kernel) (by decide +kernel) (by decide +kernel) (by decide +kernel),
      by decide +kernel⟩,
    headerReached (by decide +kernel) (by decide +kernel) (by decide +kernel) (by decide +kernel),
    by decide +kernel⟩

/-- V10. -/
def v10 : State :=
  { vec all 0x100 0x8000000000000107 with cfg := { Cfg.testConfig with xcompCheckMask := .xcr0Only } }

theorem witness_LiteralCheckMaskForbidsSupervisorSlots :
    8 < 63 ∧ v10.cfg.xcompCheckMask = .xcr0Only ∧ (xcompBvOf (instrArea v10 rdi)).getLsbD 8 = true ∧
      v10.ia32Xss.getLsbD 8 = true ∧ v1.cfg.xcompCheckMask = .xcr0OrXss := by
  decide +kernel

/-- F21: the slot of component 8 is not present, and only x87 is requested. -/
def f21 : State := { vec 1 3 0x8000000000000107 with pages := [⟨0x10340, 72, .fault 0, .fault 4⟩] }

theorem witness_UnreadableArea :
    (HeaderReached f21 ∧
        (∀ k < operandAreaSize f21 (instrOperand f21 rdi), OffsetInRange f21 (instrOperand f21 rdi) k) ∧
        HeaderLegal f21 (instrArea f21 rdi) ∧ operandAreaSize f21 (instrOperand f21 rdi) = 904 ∧
        areaRead f21 (instrOperand f21 rdi).laxa 832 = .pageFault 0 ∧
        areaRead f21 (instrOperand f21 rdi).laxa 903 = .pageFault 0) ∧
      HeaderReached (ioAt 0x10387) ∧
        (∀ k < operandAreaSize (ioAt 0x10387) (instrOperand (ioAt 0x10387) rdi),
          OffsetInRange (ioAt 0x10387) (instrOperand (ioAt 0x10387) rdi) k) ∧
        HeaderLegal (ioAt 0x10387) (instrArea (ioAt 0x10387) rdi) ∧
        areaRead (ioAt 0x10387) (instrOperand (ioAt 0x10387) rdi).laxa 903 = .device ∧
        readCheck (ioAt 0x10387) (instrOperand (ioAt 0x10387) rdi).laxa 0
          (operandAreaSize (ioAt 0x10387) (instrOperand (ioAt 0x10387) rdi)) = .refuse .deviceMemory :=
  ⟨⟨headerReached (by decide +kernel) (by decide +kernel) (by decide +kernel) (by decide +kernel),
      inRange (lt_of_lt_of_le (by decide) (le_areaSize _ _)) (by decide +kernel),
      (headerFails_eq_false _ _).1 (by decide +kernel), by decide +kernel, by decide +kernel, by decide +kernel⟩,
    headerReached (by decide +kernel) (by decide +kernel) (by decide +kernel) (by decide +kernel),
    inRange (lt_of_lt_of_le (by decide) (le_areaSize _ _)) (by decide +kernel),
    (headerFails_eq_false _ _).1 (by decide +kernel), by decide +kernel, by decide +kernel⟩

/-- F30; F27; and an area of which offset 576 is the first address that is not canonical, through SS. -/
def f30 : State := prot .protectedMode 0x102FF all 3 0x8000000000000107
def f27 : State := real 0xFD00 all 3 0x8000000000000107
def edgeSs : State := withArea (setGpr base 5 0x7FFFFFFFFDC0) 0x7FFFFFFFFDC0 all 3 0x8000000000000107

theorem witness_AreaOutsideItsRangeFaults :
    (Reaches f30 ebx ∧ readCheck f30 (instrOperand f30 ebx).laxa 512 64 = .pass ∧
        HeaderLegal f30 (instrArea f30 ebx) ∧ 903 < operandAreaSize f30 (instrOperand f30 ebx) ∧
        (segOf f30 (instrOperand f30 ebx).seg).inLimit ((instrOperand f30 ebx).ea.toNat + 903) = false) ∧
      (Reaches f27 bx16 ∧ readCheck f27 (instrOperand f27 bx16).laxa 512 64 = .pass ∧
        HeaderLegal f27 (instrArea f27 bx16) ∧ f27.mode = .real ∧
        0xFFFF < (instrOperand f27 bx16).ea.toNat + operandAreaSize f27 (instrOperand f27 bx16) - 1) ∧
      Reaches edgeSs rbp ∧ readCheck edgeSs (instrOperand edgeSs rbp).laxa 512 64 = .pass ∧
        HeaderLegal edgeSs (instrArea edgeSs rbp) ∧ (instrOperand edgeSs rbp).seg = .ss ∧
        canonical .bits48 (linearAt edgeSs (instrOperand edgeSs rbp).laxa 576) = false :=
  ⟨⟨reaches (by decide +kernel) (by decide +kernel) (by decide +kernel), by decide +kernel,
      (headerFails_eq_false _ _).1 (by decide +kernel), by decide +kernel, by decide +kernel⟩,
    ⟨reaches (by decide +kernel) (by decide +kernel) (by decide +kernel), by decide +kernel,
      (headerFails_eq_false _ _).1 (by decide +kernel), by decide +kernel, by decide +kernel⟩,
    reaches (by decide +kernel) (by decide +kernel) (by decide +kernel), by decide +kernel,
    (headerFails_eq_false _ _).1 (by decide +kernel), by decide +kernel, by decide +kernel⟩

/-- F22, and F23 where the image is not examined; `r` is CFG.LOAD_FAULT. -/
def f22 (e : Nat) (r : LoadFaultRule) : State :=
  { store (vec e 3 0x8000000000000003) 0x1001A [1] with cfg := { Cfg.testConfig with loadFault := r } }

/-- With LOAD_FAULT of a part the predicate is opaque, and one of the statement's two cases holds whatever it says. -/
theorem witness_MxcsrAndContentFaults :
    ∀ e r, e = all ∨ e = 1 → r = .never ∨ r = .part →
      Reaches (f22 e r) rdi ∧
        (∀ k < operandAreaSize (f22 e r) (instrOperand (f22 e r) rdi),
          OffsetInRange (f22 e r) (instrOperand (f22 e r) rdi) k) ∧
        (∀ k < operandAreaSize (f22 e r) (instrOperand (f22 e r) rdi),
          ByteReadable (f22 e r) (instrOperand (f22 e r) rdi) k) ∧
        HeaderLegal (f22 e r) (instrArea (f22 e r) rdi) ∧ (f22 e r).cfg.loadFault = r ∧
        (instrArea (f22 e r) rdi 27 ++ instrArea (f22 e r) rdi 26 ++ instrArea (f22 e r) rdi 25 ++
          instrArea (f22 e r) rdi 24) &&& ~~~(f22 e r).cfg.mxcsrMask ≠ 0 ∧
        ((rfbmOf (f22 e r)).getLsbD 1 = true ↔ e = all) := by
  rintro e r (rfl | rfl) (rfl | rfl)
  all_goals
    exact ⟨reaches (by decide +kernel) (by decide +kernel) (by decide +kernel),
      inRange (lt_of_lt_of_le (by decide) (le_areaSize _ _)) (by decide +kernel), readable (by decide +kernel),
      (headerFails_eq_false _ _).1 (by decide +kernel), by decide +kernel, by decide +kernel, by decide +kernel⟩

/-! #### What a fault says and leaves -/

theorem witness_PreciseFaultsWriteNothing :
    f18.cfg.faultAtomicity = .precise ∧ ∃ r left, exec rdi f18 = .fault (.exception r left) :=
  ⟨by decide +kernel, witness_NoFlagChanges.2⟩

/-- F22 with FAULT_ATOMICITY = partial: a fault of rank 11. -/
def f22Partial : State := { f22 all .never with cfg := { Cfg.testConfig with faultAtomicity := .perItem } }

theorem witness_PartialFaultsLeaveOldOrNewItems :
    f22Partial.cfg.faultAtomicity = .perItem ∧ ∃ r left, exec rdi f22Partial = .fault (.exception r left) := by
  refine ⟨by decide +kernel, ?_⟩
  obtain ⟨r, left, h, -⟩ := faultsLate (s := f22Partial) (i := rdi) (e := ⟨.gp, some 0, none⟩) (by decide +kernel)
    (by decide +kernel) (by decide +kernel)
  exact ⟨r, left, h⟩

/-- One fault of each vector: F2, F4, F11, F5, F9, and #GP in real-address mode (F29). -/
theorem witness_FaultRecordsHaveTheirShape :
    (∃ r left, exec rdi f2 = .fault (.exception r left) ∧ r.vector = .ud) ∧
      (∃ r left, exec rdi f4 = .fault (.exception r left) ∧ r.vector = .nm) ∧
      (∃ r left, exec rbp (setGpr v1 5 0x800000000000) = .fault (.exception r left) ∧ r.vector = .ss) ∧
      (∃ r left, exec rdi { v1 with cpl := 3 } = .fault (.exception r left) ∧ r.vector = .gp) ∧
      (∃ r left, exec rdi (acState 0x10020 .ac) = .fault (.exception r left) ∧ r.vector = .ac) ∧
      ∃ r left, exec bx16 (real 0xFE00 all 3 0x8000000000000003) = .fault (.exception r left) ∧ r.vector = .gp :=
  ⟨faultsEarly (e := excUd) (by decide +kernel) (by decide +kernel),
    faultsEarly (e := excNm) (by decide +kernel) (by decide +kernel),
    faultsEarly (e := excSs) (by decide +kernel) (by decide +kernel),
    faultsEarly (e := ⟨.gp, some 0, none⟩) (by decide +kernel) (by decide +kernel),
    faultsEarly (e := excAc) (by decide +kernel) (by decide +kernel),
    faultsEarly (e := ⟨.gp, none, none⟩) (by decide +kernel) (by decide +kernel)⟩

theorem witness_RefusedLaunches :
    (rdi64.wellFormed (codeCtx p1) = false ∧ rdi.wellFormed (codeCtx v1) = true ∧ rdi64.wellFormed (codeCtx v1) = true) ∧
      { v1 with inVmxNonRoot := true }.inVmxNonRoot = true ∧ v1.inVmxNonRoot = false ∧
      ({ v1 with debugArmed := true }.debugArmed = true ∧ { v1 with rflags := 0x102 }.rflags.getLsbD 8 = true ∧
        v1.debugArmed = false ∧ v1.rflags.getLsbD 8 = false) ∧
      (xcrPremise { v1 with xcr0 := 0x107 } = false ∧ xcrPremise { v1 with xcr0 := 6 } = false ∧
        xcrPremise { v1 with ia32Xss := 0x200 } = false ∧ xcrPremise v1 = true) ∧
      (segBase { v1 with segs := { v1.segs with fs := { flat with base := 1 } } } .fs).toNat % 64 ≠ 0 ∧
      (instrOperand v1 (.xrstors [.seg .fs] none (.based 7 .none))).seg = .fs := by decide +kernel

/-! #### The step -/

theorem witness_StepRunsTheDecodedInstruction :
    ∃ rest, decode (codeCtx v1) (fetchWindow v1).1 = .ok (rdi, rest) :=
  ⟨List.replicate 12 0, by decide +kernel⟩

/-- The three bytes can be fetched and the fourth cannot. -/
def edge : State := { v1 with pages := [⟨0x400003, 1, .fault 0, .fault 4⟩] }

theorem witness_BytesAtPcRunTheirInstruction :
    rdi.wellFormed (codeCtx edge) = true ∧
      (∀ k < rdi.length, fetchByte edge k = .ok ((encode rdi).getD k 0)) ∧
      fetchByte edge 3 = .error (.pageFault 0 0x400003) := by
  decide +kernel

theorem witness_StepAtOtherBytes :
    decode (codeCtx base) (fetchWindow (withCode base [0x0F, 0xC7, 0xDF])).1 = .error .registerForm ∧
      decode (codeCtx base) (fetchWindow (withCode base [0x66, 0x0F, 0xC7, 0x1F])).1 = .error .npViolated ∧
      decode (codeCtx base) (fetchWindow (withCode base (List.replicate 15 0x3E))).1 = .error .tooLong ∧
      decode (codeCtx base) (fetchWindow base).1 = .error .notXrstorsOpcode ∧
      decode (codeCtx base) (fetchWindow (withCode base [0x0F, 0xC7, 0x27])).1 = .error (.notXrstorsReg 4) := by
  decide +kernel

/-- The third byte of `0F C7 1F` on a page that is not present; in memory-mapped I/O. -/
def cutByPage : State := { v1 with pages := [⟨0x400002, 1, .fault 0, .fault 4⟩] }
def cutByIo : State := { v1 with ioRanges := [(0x400002, 1)] }

/-- 32-bit code at pc with the given CS: `0F C7 1B`. -/
def cutBySegment (cs : Segment) (pc : Word) : State :=
  withCode { p1 with rip := pc, segs := { p1.segs with cs := cs } } [0x0F, 0xC7, 0x1B]

/-- The first two bytes can be fetched and the third, which the instruction needs, cannot: a page fault, memory-mapped
I/O, the code-segment limit, the top of the linear address space (CS.base FFFFF000H, pc FFEH), a non-canonical
address. -/
theorem witness_StepAtOtherBytes_needed_byte :
    decode ctx64 (bytes [0x0F, 0xC7]) = .error .truncated ∧ decode ctx32 (bytes [0x0F, 0xC7]) = .error .truncated ∧
      (fetchWindow cutByPage = (bytes [0x0F, 0xC7], some (.pageFault 0 0x400002)) ∧
        fetchInside cutByPage 2 = true) ∧
      (fetchWindow cutByIo = (bytes [0x0F, 0xC7], some .device) ∧ fetchInside cutByIo 2 = true) ∧
      fetchWindow (cutBySegment { flat with limit := 0x1001 } 0x1000) = (bytes [0x0F, 0xC7], some .outside) ∧
      fetchWindow (cutBySegment { flat with base := 0xFFFFF000 } 0xFFE) = (bytes [0x0F, 0xC7], some .outside) ∧
      fetchWindow (withCode { base with rip := 0x7FFFFFFFFFFE } [0x0F, 0xC7, 0x1F]) =
        (bytes [0x0F, 0xC7], some .outside) := by
  decide +kernel

theorem witness_TableWordsRunAfterReset :
    decodeTableWord 24 0x0FC718 = some (.xrstors [] none (.addr16 .bxSi .none)) ∧
      decodeTableWord 32 0x480FC718 = some (.xrstors64 [] ⟨false, false, false⟩ (.based 0 .none)) := test_table_words

theorem inv_v1 : Inv v1 :=
  ⟨cfgWf_testConfig, by decide +kernel, by decide +kernel, by decide +kernel, by decide +kernel, by decide +kernel,
    by decide +kernel⟩

theorem stepsNext {s : State} {i : Instr} {rest : List Byte}
    (hd : decode (codeCtx s) (fetchWindow s).1 = .ok (i, rest)) (h : passes s i = true) : ∃ t, step s = .next t := by
  obtain ⟨t, ht⟩ := next h
  exact ⟨t, by simp only [step, hd, ht]⟩

theorem witness_StepKeepsTheInvariant : Inv v1 ∧ ∃ t, step v1 = .next t :=
  ⟨inv_v1, stepsNext (i := rdi) (rest := List.replicate 12 0) (by decide +kernel) (by decide +kernel)⟩

theorem witness_XrstorsRaisesUdAfterReset : bx16.wellFormed ctxReal = true := by decide

theorem witness_NextFetchReadsTheBytesThatFollowed :
    v1.mode = .bits64 ∧ decode (codeCtx v1) (fetchWindow v1).1 = .ok (rdi, List.replicate 12 0) ∧
      (∃ t, step v1 = .next t) ∧ v1.rip.toNat + rdi.length + 0 < 2 ^ 64 :=
  ⟨by decide +kernel, by decide +kernel, witness_StepKeepsTheInvariant.2, by decide +kernel⟩

end Sys2Proof.Tests
end

/-! Proofs about the decoder: what each stage can answer, said once, and what it reads outside 64-bit mode. -/

namespace Sys2Proof

/-! ### The prefixes -/

/-- R64: a legacy prefix byte is never taken for an ignored REX byte. -/
theorem isRexIgnored_of_classify_legacy {bits64 : Bool} {b : Byte} {p : Prefix}
    (h : classify bits64 b = .legacy p) : p.isRexIgnored = false := by
  unfold classify at h
  split_ifs at h
  all_goals
    cases h
    rfl

/-- R64: a byte is classed as REX in 64-bit mode only. -/
theorem bits64_of_classify_rex {bits64 : Bool} {b : Byte} {wrxb : BitVec 4}
    (h : classify bits64 b = .rex wrxb) : bits64 = true := by
  unfold classify at h
  split_ifs at h with _ _ _ _ _ _ _ _ _ hrex
  exact hrex.1

/-- The scan read no byte 40..4F as REX, neither one that counts nor an ignored one. -/
def Scan.NoRex (sc : Scan) : Prop := sc.rex = none ∧ ∀ p ∈ sc.ps, p.isRexIgnored = false

theorem Scan.noRex_bare (rest : List Byte) : (Scan.bare rest).NoRex := by
  simp [NoRex, bare]

theorem Scan.noRex_addPrefix {p : Prefix} {sc : Scan} :
    (sc.addPrefix p).NoRex ↔ p.isRexIgnored = false ∧ sc.NoRex := by
  simp [NoRex, addPrefix, and_left_comm]

theorem Scan.noRex_addNp {sc : Scan} : sc.addNp.NoRex ↔ sc.NoRex := Iff.rfl

/-- R3, R64: outside 64-bit mode the prefix scan reads no REX byte. -/
theorem scanPrefixes_noRex (bytes : List Byte) : (scanPrefixes false bytes).NoRex := by
  induction bytes with
  | nil => exact Scan.noRex_bare []
  | cons b t ih =>
    cases hb : classify false b with
    | legacy p =>
      simp only [scanPrefixes, hb]
      exact Scan.noRex_addPrefix.mpr ⟨isRexIgnored_of_classify_legacy hb, ih⟩
    | np =>
      simp only [scanPrefixes, hb]
      exact Scan.noRex_addNp.mpr ih
    | rex wrxb => exact absurd (bits64_of_classify_rex hb) (by decide)
    | opcode =>
      simp only [scanPrefixes, hb]
      exact Scan.noRex_bare (b :: t)

/-! ### From the opcode on -/

/-- R65, R67, R69, R78: what the decoder accepts behind the prefixes is 0F C7 /3 with a memory operand and without 66,
F2 and F3, and the operand is read at the address size of the prefixes. -/
theorem decodeOpcode_eq_ok_iff {c : CodeCtx} {sc : Scan} {i : Instr} {rest : List Byte} :
    decodeOpcode c sc = .ok (i, rest) ↔
      ∃ modrm tail mem, sc.rest = 0x0F :: 0xC7 :: modrm :: tail ∧ fieldMid modrm = 3 ∧ sc.np = false ∧
        fieldHi modrm ≠ 3 ∧
        parseMem (addrSizeOf c sc.ps) (fieldHi modrm) (fieldLo modrm) tail = some (mem, rest) ∧
        i = buildInstr sc.ps sc.rex mem := by
  constructor
  · fun_cases decodeOpcode c sc with
    | case10 o1 ho1 o2 ho2 modrm tail hreg hnp hmod mem t4 hmem hrest =>
      intro h
      obtain ⟨rfl, rfl⟩ : buildInstr sc.ps sc.rex mem = i ∧ t4 = rest := by simpa using h
      rw [not_not] at ho1 ho2 hreg
      subst ho1 ho2
      exact ⟨modrm, tail, mem, hrest, hreg, by simpa using hnp, hmod, hmem, rfl⟩
    | _ => simp
  · rintro ⟨modrm, tail, mem, hrest, hreg, hnp, hmod, hmem, rfl⟩
    simp only [decodeOpcode, hrest, hreg, hnp, hmod, hmem]
    rfl

/-- The decoder accepts what `decodeOpcode` accepts within the first 15 bytes, and hands on the bytes behind the
instruction (R64, R75). -/
theorem decode_eq_ok_iff {c : CodeCtx} {bytes : List Byte} {i : Instr} {rest : List Byte} :
    decode c bytes = .ok (i, rest) ↔
      (∃ t, decodeOpcode c (scanPrefixes c.bits64 (bytes.take maxLength)) = .ok (i, t)) ∧
        rest = bytes.drop i.length := by
  fun_cases decode c bytes with
  | case1 j t hj =>
    simp only [hj, Except.ok.injEq, Prod.mk.injEq, exists_and_left, exists_eq', and_true]
    exact and_congr_right fun hi => hi ▸ eq_comm
  | case2 he hlen => simp [he]
  | case3 he hlen => simp [he]
  | case4 e hne he => simp [he]

/-- What `decode` accepts is built from the prefixes and the REX bits that the scan found. -/
theorem eq_buildInstr_of_decode_ok {c : CodeCtx} {bytes : List Byte} {i : Instr} {rest : List Byte}
    (h : decode c bytes = .ok (i, rest)) :
    ∃ mem, i = buildInstr (scanPrefixes c.bits64 (bytes.take maxLength)).ps
      (scanPrefixes c.bits64 (bytes.take maxLength)).rex mem := by
  obtain ⟨⟨_, hop⟩, -⟩ := decode_eq_ok_iff.mp h
  obtain ⟨_, _, mem, -, -, -, -, -, hi⟩ := decodeOpcode_eq_ok_iff.mp hop
  exact ⟨mem, hi⟩

/-- Settles O6: the prefix scan reads no REX byte, and without one `buildInstr` gives XRSTORS. -/
theorem noRexOutside64BitMode : Obligations.NoRexOutside64BitMode := by
  intro c bytes i rest hmode hdec
  obtain ⟨mem, rfl⟩ := eq_buildInstr_of_decode_ok hdec
  rw [hmode]
  obtain ⟨hrex, hps⟩ := scanPrefixes_noRex (bytes.take maxLength)
  refine ⟨(scanPrefixes false (bytes.take maxLength)).ps, mem, by rw [hrex]; rfl, ?_⟩
  intro wrxb hmem
  exact absurd (hps _ hmem) (by simp [Prefix.isRexIgnored])

end Sys2Proof

/-! Proofs about the state: what a completed execution leaves, what it does to XINUSE, what it never reads, and the
invariant that every step keeps. -/

namespace Sys2Proof.Machine

/-! ### A completed execution is the commit -/

/-- R103, rank 12: no selected component's image is rejected exactly where the hook is `never` or says so of each. -/
theorem loadFaults_eq_false {s : State} {m : Masks} {f : Nat → Byte} :
    loadFaults s m f = false ↔ s.cfg.loadFault = .never ∨
      ∀ i, 2 ≤ i → i < 63 → m.toBeRestored.getLsbD i = true →
        Config.loadFault i (slotBytes s.cfg m.format f i) s = false := by
  unfold loadFaults
  split
  next h => simp [h]
  next h =>
    simp only [List.any_eq_false, List.mem_range, h, reduceCtorEq, false_or, Bool.and_eq_true, decide_eq_true_eq,
      not_and, Bool.not_eq_true]
    exact ⟨fun H i h2 h63 hr => H i h63 ⟨h2, hr⟩, fun H i h63 ⟨h2, hr⟩ => H i h2 h63 hr⟩

/-- R93, rank 11: the MXCSR image raises nothing exactly where it is not loaded or has no reserved bit. -/
theorem mxcsrIllegal_eq_false {s : State} {m : Masks} {f : Nat → Byte} :
    mxcsrIllegal s m f = false ↔
      (m.toBeRestored.getLsbD 1 = true → mxcsrImage f &&& ~~~s.cfg.mxcsrMask = 0) := by
  simp [mxcsrIllegal]

/-- R151: where the preconditions hold every check passes, and the instruction answers the commit. -/
theorem exec_of_canComplete {i : Instr} {s : State} (h : CanComplete s i) :
    exec i s = .next (commit i.w (instrOperand s i) s) := by
  obtain ⟨hwf, hr⟩ := h
  have hsize : 576 ≤ operandAreaSize s (instrOperand s i) := le_areaSize _ _
  have hearly := first_early_eq_pass.mpr ⟨hr.launched, hr.enabled, hr.privileged,
    fun k hk => hr.inRange k (by omega), hr.aligned⟩
  have hlate := first_late_eq_pass.mpr ⟨fun k _ hk => hr.readable k (by omega), hr.header, hr.inRange, hr.readable,
    mxcsrIllegal_eq_false.mpr hr.mxcsr, loadFaults_eq_false.mpr hr.content⟩
  exact exec_eq_next.mpr ⟨hwf, hearly, hlate, rfl⟩

/-- Memory, translation and the mode being untouched, every linear address reads as it did (R35, R51). -/
theorem readLinear_commitWith (w : Bool) (op : Operand) (m : Masks) (f : Nat → Byte) (s : State) (la : Word)
    (supervisor : Bool) : readLinear (commitWith w op m f s) la supervisor = readLinear s la supervisor := rfl

/-! ### The masks bit by bit, and XINUSE -/

/-- R85: a component is loaded where it is selected, has a slot and was saved. -/
theorem masksOf_toBeRestored_bit (s : State) (f : Nat → Byte) (c : Nat) :
    (masksOf s f).toBeRestored.getLsbD c =
      ((rfbmOf s).getLsbD c && ((formatOf (xcompBvOf f)).getLsbD c && (xstateBvOf f).getLsbD c)) := by
  simp only [masksOf, BitVec.getLsbD_and]
  rw [Bool.and_assoc, Bool.and_left_comm]

/-- R85: a selected component that is not loaded is initialized, and no other is. -/
theorem masksOf_toBeInitialized_bit (s : State) (f : Nat → Byte) {c : Nat} (hc : c < 64) :
    (masksOf s f).toBeInitialized.getLsbD c =
      ((rfbmOf s).getLsbD c && !((formatOf (xcompBvOf f)).getLsbD c && (xstateBvOf f).getLsbD c)) := by
  simp only [masksOf, BitVec.getLsbD_or, BitVec.getLsbD_and, BitVec.getLsbD_not, hc, decide_true, Bool.true_and]
  rw [Bool.not_and, Bool.and_or_distrib_left, Bool.or_comm]

/-- R30, R90, R102: XINUSE[c] of a selected component says whether it was loaded; every other bit, and bit 63 (D24),
stays. -/
theorem xinuseAfter_masksOf_bit (s : State) (f : Nat → Byte) (x : Word) {c : Nat} (hc : c < 64) :
    (xinuseAfter (masksOf s f) x).getLsbD c =
      if (rfbmOf s).getLsbD c && decide (c < 63) then
        (formatOf (xcompBvOf f)).getLsbD c && (xstateBvOf f).getLsbD c
      else x.getLsbD c := by
  have h63 : decide (c ≠ 63) = decide (c < 63) := decide_eq_decide.mpr (by omega)
  rw [xinuseAfter_bit _ _ hc, masksOf_toBeRestored_bit, masksOf_toBeInitialized_bit _ _ hc, h63]
  generalize ((formatOf (xcompBvOf f)).getLsbD c && (xstateBvOf f).getLsbD c) = loaded
  split
  next hsel =>
    obtain ⟨hrfbm, hlt⟩ := Bool.and_eq_true_iff.mp hsel
    rw [hrfbm, hlt]
    cases loaded <;> simp
  next hsel =>
    rcases Bool.and_eq_false_iff.mp (Bool.eq_false_of_not_eq_true hsel) with h | h <;> simp [h]

/-- The same of the masks of an execution of `i`. -/
theorem xinuseAfter_instrMasks_bit (s : State) (i : Instr) (x : Word) {c : Nat} (hc : c < 64) :
    (xinuseAfter (instrMasks s i) x).getLsbD c =
      if (rfbmOf s).getLsbD c && decide (c < 63) then
        (formatOf (xcompBvOf (instrArea s i))).getLsbD c && (xstateBvOf (instrArea s i)).getLsbD c
      else x.getLsbD c :=
  xinuseAfter_masksOf_bit s (instrArea s i) x hc

theorem commit_xinuse (w : Bool) (s : State) (i : Instr) :
    (commit w (instrOperand s i) s).xinuse = xinuseAfter (instrMasks s i) s.xinuse := rfl

/-- R130 (H3): of a legal header, a saved component below 63 has a slot. -/
theorem formatOf_bit_of_saved {s : State} {f : Nat → Byte} (h : HeaderLegal s f) {c : Nat} (hc : c < 63)
    (hsaved : (xstateBvOf f).getLsbD c = true) : (formatOf (xcompBvOf f)).getLsbD c = true := by
  rw [formatOf_bit _ (by omega), h.savedHaveSlots c (by omega) hsaved]
  simpa using hc.ne

/-! ### What the checks and the commit do not read -/

/-- `s` with other general registers, XINUSE, XMODIFIED_BV and XRSTOR_INFO. -/
def withUnread (s : State) (g : Vector Word 16) (x y : Word) (info : XrstorInfo) : State :=
  { s with gpr := g, xinuse := x, xmodifiedBv := y, xrstorInfo := info }

section Unread
variable (s : State) (g : Vector Word 16) (x y : Word) (info : XrstorInfo) (op : Operand) (f : Nat → Byte)

@[simp] theorem withUnread_cfg : (withUnread s g x y info).cfg = s.cfg := rfl

theorem areaOf_withUnread : areaOf (withUnread s g x y info) op = areaOf s op := rfl

/-- The general registers enter the early checks through the operand alone. -/
theorem earlyChecks_withUnread :
    launchChecks (withUnread s g x y info) op ++ earlyChecks (withUnread s g x y info) op =
      launchChecks s op ++ earlyChecks s op := rfl

variable {s g x y info} (hmask : instrMask (withUnread s g x y info) = instrMask s)
include hmask

theorem masksOf_withUnread : masksOf (withUnread s g x y info) f = masksOf s f := by
  have hrfbm : rfbmOf (withUnread s g x y info) = rfbmOf s := by
    unfold rfbmOf
    rw [hmask]
    rfl
  unfold masksOf
  rw [hrfbm]

theorem operandMasks_withUnread : operandMasks (withUnread s g x y info) op = operandMasks s op :=
  masksOf_withUnread (areaOf s op) hmask

/-- With LOAD_FAULT never, whose opaque predicate would see the whole state, the late checks are the same. -/
theorem lateChecks_withUnread (hnever : s.cfg.loadFault = .never) :
    lateChecks (withUnread s g x y info) op = lateChecks s op := by
  have hload (m : Masks) (s' : State) (h : s'.cfg.loadFault = .never) : loadFaults s' m (areaOf s op) = false :=
    loadFaults_eq_false.mpr (.inl h)
  unfold lateChecks operandAreaSize
  rw [operandMasks_withUnread op hmask, areaOf_withUnread, hload _ s hnever,
    hload _ (withUnread s g x y info) hnever]
  rfl

/-- R35: the commit writes XMODIFIED_BV and XRSTOR_INFO over whatever they held, and hands on the registers. -/
theorem commit_withUnread (w : Bool) :
    commit w op (withUnread s g x y info) =
      { commit w op s with gpr := g, xinuse := xinuseAfter (operandMasks s op) x } := by
  unfold commit
  rw [operandMasks_withUnread op hmask]
  rfl

/-- Two states that differ in general registers and tracking state complete alike, where EDX:EAX and the operand are
the same. -/
theorem exec_withUnread {i : Instr} {t : State}
    (hop : instrOperand (withUnread s g x y info) i = instrOperand s i) (hnever : s.cfg.loadFault = .never)
    (h : exec i s = .next t) :
    exec i (withUnread s g x y info) =
      .next { t with gpr := g, xinuse := xinuseAfter (instrMasks s i) x } := by
  obtain ⟨hwf, hearly, hlate, rfl⟩ := exec_eq_next.mp h
  refine exec_eq_next.mpr ⟨hwf, ?_, ?_, ?_⟩
  · rwa [hop, earlyChecks_withUnread]
  · rwa [hop, lateChecks_withUnread _ hmask hnever]
  · rw [hop, commit_withUnread _ hmask]
    rfl

end Unread

/-! ### What the commit keeps of the invariant -/

/-- A step answers a next state only by running an instruction: bytes that are no XRSTORS give none. -/
theorem exists_exec_of_step_eq_next {s t : State} (h : step s = .next t) : ∃ i, exec i s = .next t := by
  unfold step at h
  split at h
  next i rest _ => exact ⟨i, h⟩
  next e _ =>
    cases e with
    | truncated =>
      simp only [notDecoded] at h
      split at h <;> cases h
    | _ => cases h

/-- INIT(i) has n(i) bytes, also where the configuration does not describe component i (R97). -/
theorem length_compInit {c : Cfg} (h : CfgWf c) (i : Nat) : (compInit c i).length = compSize c i := by
  unfold compInit compSize
  cases hd : compCfg c i with
  | none => rfl
  | some d => exact h.initSize d (List.mem_of_find?_eq_some hd)

theorem length_slotBytes (c : Cfg) (format : Word) (f : Nat → Byte) (i : Nat) :
    (slotBytes c format f i).length = compSize c i := by
  simp [slotBytes]

/-- The new image has its own length, whatever bytes of it R104 leaves alone. -/
theorem length_extUpdate (s : State) (i : Nat) (old new : List Byte) :
    (extUpdate s i old new).length = new.length := by
  unfold extUpdate
  split
  · rfl
  · simp

/-- R25: loaded, initialized or left alone, component i keeps its n(i) bytes. -/
theorem length_extComponent {s : State} (hcfg : CfgWf s.cfg) (m : Masks) (f : Nat → Byte) {i : Nat}
    {old : List Byte} (hold : old.length = compSize s.cfg i) :
    (extComponent m f s i old).length = compSize s.cfg i := by
  unfold extComponent
  split_ifs with hload hinit hinit
  · rw [length_extUpdate, length_compInit hcfg]
  · rw [length_extUpdate, length_slotBytes]
  · rw [length_extUpdate, length_compInit hcfg]
  · exact hold

/-- R28, R93: MXCSR has no reserved bit after a load that rank 11 passed, after an initialization or untouched. -/
theorem component1_mxcsr {s : State} {m : Masks} {f : Nat → Byte} (hcfg : CfgWf s.cfg)
    (hlegal : mxcsrIllegal s m f = false) (hold : s.sse.mxcsr &&& ~~~s.cfg.mxcsrMask = 0) :
    (component1 m f s).mxcsr &&& ~~~s.cfg.mxcsrMask = 0 := by
  unfold component1
  split_ifs with hload
  · exact mxcsrIllegal_eq_false.mp hlegal hload
  · exact hcfg.mxcsrInit
  · exact hold

/-- D25: what XCR0 and IA32_XSS enable is supported, and so is every selected component (R83). -/
theorem supported_of_rfbmOf {s : State} (h : xcrPremise s = true) {c : Nat} (hc : c < 64)
    (hsel : (rfbmOf s).getLsbD c = true) : (s.cfg.supportedUser ||| s.cfg.supportedSuper).getLsbD c = true := by
  simp only [xcrPremise, Bool.and_eq_true, beq_iff_eq, and_not_eq_zero] at h
  obtain ⟨⟨⟨⟨⟨-, huser⟩, hsuper⟩, -⟩, -⟩, -⟩ := h
  simp only [rfbmOf, BitVec.getLsbD_and, BitVec.getLsbD_or, Bool.and_eq_true, Bool.or_eq_true] at hsel
  rw [BitVec.getLsbD_or, Bool.or_eq_true]
  exact hsel.1.imp (huser c hc) (hsuper c hc)

/-- R30: XINUSE stays inside the supported components. -/
theorem xinuseAfter_supported {s : State} {f : Nat → Byte} (h : xcrPremise s = true)
    (hold : s.xinuse &&& ~~~(s.cfg.supportedUser ||| s.cfg.supportedSuper) = 0) :
    xinuseAfter (masksOf s f) s.xinuse &&& ~~~(s.cfg.supportedUser ||| s.cfg.supportedSuper) = 0 := by
  rw [and_not_eq_zero] at hold ⊢
  intro c hc hbit
  rw [xinuseAfter_masksOf_bit _ _ _ hc] at hbit
  split at hbit
  next hsel => exact supported_of_rfbmOf h hc (Bool.and_eq_true_iff.mp hsel).1
  next => exact hold c hc hbit

/-- A completing instruction keeps the invariant. -/
theorem inv_of_exec_eq_next {i : Instr} {s t : State} (hinv : Inv s) (h : exec i s = .next t) : Inv t := by
  obtain ⟨-, hearly, hlate, rfl⟩ := exec_eq_next.mp h
  obtain ⟨-, -, hcpl, -, -⟩ := first_early_eq_pass.mp hearly
  obtain ⟨-, -, -, -, hmxcsr, -⟩ := first_late_eq_pass.mp hlate
  exact
    { cfg := hinv.cfg
      memory := hinv.memory
      premise := hinv.premise
      sizes := fun c h2 hc => by
        rw [commit, scOf_commitWith _ _ _ _ _ h2 hc]
        exact length_extComponent hinv.cfg _ _ (hinv.sizes c h2 hc)
      mxcsr := component1_mxcsr hinv.cfg hmxcsr hinv.mxcsr
      xinuse := xinuseAfter_supported hinv.premise hinv.xinuse
      infoCpl := hcpl }

/-! ### The state after reset -/

/-- CFG-T, the configuration after reset, is well formed (log 3). -/
theorem cfgWf_reset : CfgWf State.reset.cfg where
  disjoint := by decide
  below63 := by decide
  mxcsrInit := by decide
  described := by decide +kernel
  initSize := by decide +kernel

end Sys2Proof.Machine

namespace Sys2Proof

open Sys2Proof.Machine

/-- Settles O57: the step is a completing instruction, which keeps each clause of the invariant. -/
theorem stepKeepsTheInvariant : Obligations.StepKeepsTheInvariant := by
  intro s t hinv hstep
  obtain ⟨i, hexec⟩ := exists_exec_of_step_eq_next hstep
  exact inv_of_exec_eq_next hinv hexec

/-- Settles O19: a selected component that was saved has a slot in a legal header, so its bit says that it was saved. -/
theorem xinuseTracksLoadAndInit : Obligations.XinuseTracksLoadAndInit := by
  intro i s h
  refine ⟨_, exec_of_canComplete h, ?_, fun c hc hsel => ?_⟩
  · rw [commit_xinuse, xinuseAfter_instrMasks_bit s i _ (by omega)]
    simp
  · have hslot := formatOf_bit_of_saved (f := instrArea s i) h.2.header hc
    rw [commit_xinuse, xinuseAfter_instrMasks_bit s i _ (by omega)]
    simpa [hsel, hc] using hslot

/-- Settles O20: the commit names the fields it writes, and each field of the statement is another. -/
theorem frameOfACompletedExecution : Obligations.FrameOfACompletedExecution := by
  intro i s h
  refine ⟨_, exec_of_canComplete h, ?_⟩
  simp only [commit, commitWith_gprOf, commitWith_rflags, commitWith_cr0, commitWith_cr4, commitWith_xcr0,
    commitWith_ia32Xss, commitWith_cpl, commitWith_mode, commitWith_inVmxNonRoot, commitWith_debugArmed,
    commitWith_segOf, commitWith_pages, commitWith_ioRanges, commitWith_cfg, commitWith_mem, readLinear_commitWith,
    implies_true, and_self]

/-- Settles O32: EDX:EAX is made of the low halves, and the general registers enter nowhere else. -/
theorem upperHalvesOfRaxRdxAreIgnored : Obligations.UpperHalvesOfRaxRdxAreIgnored := by
  intro i s t g hrax hrdx hop hnever hexec
  have hmask : instrMask (withUnread s g s.xinuse s.xmodifiedBv s.xrstorInfo) = instrMask s :=
    congrArg₂ (· ++ ·) hrdx hrax
  have halike := exec_withUnread hmask hop hnever hexec
  obtain ⟨-, -, -, rfl⟩ := exec_eq_next.mp hexec
  exact halike

/-- Settles O33: XINUSE after the commit is the old value with the selected bits written. -/
theorem trackingStateIsNotRead : Obligations.TrackingStateIsNotRead := by
  intro i s t x y info hnever hexec
  have halike := exec_withUnread (g := s.gpr) (x := x) (y := y) (info := info) rfl rfl hnever hexec
  obtain ⟨-, -, -, rfl⟩ := exec_eq_next.mp hexec
  refine ⟨_, halike, fun c hc => ?_⟩
  rw [commit_xinuse, xinuseAfter_instrMasks_bit s i x hc, xinuseAfter_instrMasks_bit s i s.xinuse hc]
  split <;> rfl

/-- Settles O58: memory is empty, XINUSE is 0, MXCSR is its initial value, and the components are n(i) zeros. -/
theorem resetMeetsTheInvariant : Obligations.ResetMeetsTheInvariant :=
  { cfg := cfgWf_reset
    memory := reset_mem_wf
    premise := by decide
    sizes := by decide +kernel
    mxcsr := cfgWf_reset.mxcsrInit
    xinuse := by decide
    infoCpl := rfl }

end Sys2Proof

/-! Proofs about the operand's area: its linear address and bytes, the places of the slots, what an operand outside its
range, misaligned or unreadable raises, and the code behind an execution. -/

namespace Sys2Proof.Machine

/-! ### The linear address and the area's bytes -/

theorem segBase_of_ne_bits64 {s : State} (h : s.mode ≠ .bits64) (r : SegReg) : segBase s r = (segOf s r).base :=
  if_neg h

/-- R48: in 64-bit mode FS and GS keep their base. -/
theorem segBase_of_bits64_of_fs_or_gs {s : State} (h : s.mode = .bits64) {r : SegReg} (hr : r = .fs ∨ r = .gs) :
    segBase s r = (segOf s r).base := by
  rcases hr with rfl | rfl <;> simp [segBase, segOf, h]

/-- R48: in 64-bit mode the base of every other segment is 0. -/
theorem segBase_of_bits64_of_ne {s : State} (h : s.mode = .bits64) {r : SegReg} (hfs : r ≠ .fs) (hgs : r ≠ .gs) :
    segBase s r = 0 := by
  cases r with
  | fs => exact absurd rfl hfs
  | gs => exact absurd rfl hgs
  | es | cs | ss | ds => simp [segBase, h]

theorem linearWrap_of_bits64 {s : State} (h : s.mode = .bits64) (a : Word) : linearWrap s a = a := if_pos h

/-- R32, R48: outside 64-bit mode a linear address is taken modulo 2^32. -/
theorem linearWrap_toNat_of_ne_bits64 {s : State} (h : s.mode ≠ .bits64) (a : Word) :
    (linearWrap s a).toNat = a.toNat % 2 ^ 32 := by
  rw [linearWrap, if_neg h, lowBits_toNat 32 (by omega)]

/-- The operand's linear address is segment base plus effective address, wrapped (R48). -/
theorem instrOperand_laxa (s : State) (i : Instr) :
    (instrOperand s i).laxa = linearWrap s (segBase s (instrOperand s i).seg + (instrOperand s i).ea) := rfl

theorem linearAt_of_bits64 {s : State} (h : s.mode = .bits64) (la : Word) (k : Nat) :
    linearAt s la k = la + BitVec.ofNat 64 k := linearWrap_of_bits64 h _

/-- The linear address of byte k, in and outside 64-bit mode (log 35). -/
theorem linearAt_eq_ite (s : State) (la : Word) (k : Nat) :
    linearAt s la k =
      if s.mode = .bits64 then la + BitVec.ofNat 64 k else BitVec.ofNat 64 ((la.toNat + k) % 2 ^ 32) := by
  split
  next h => exact linearAt_of_bits64 h la k
  next h =>
    apply BitVec.eq_of_toNat_eq
    rw [linearAt, linearWrap_toNat_of_ne_bits64 h, BitVec.toNat_add, BitVec.toNat_ofNat, BitVec.toNat_ofNat]
    omega

/-- R49, R50: a byte at a physical address that is no memory-mapped I/O is read from memory. -/
theorem readLinear_of_phys {s : State} {la : Word} {supervisor : Bool} {p : Nat}
    (h : translate s la supervisor = .phys p) (hio : isIo s p = false) :
    readLinear s la supervisor = .byte (Memory.read s.mem p) := by
  simp [readLinear, h, hio]

theorem readLinear_of_io {s : State} {la : Word} {supervisor : Bool} {p : Nat}
    (h : translate s la supervisor = .phys p) (hio : isIo s p = true) : readLinear s la supervisor = .device := by
  simp [readLinear, h, hio]

theorem readLinear_of_fault {s : State} {la : Word} {supervisor : Bool} {code : ErrorCode}
    (h : translate s la supervisor = .fault code) : readLinear s la supervisor = .pageFault code := by
  simp [readLinear, h]

/-- A byte of the area that can be read is the byte the area holds. -/
theorem instrArea_of_areaRead {s : State} {i : Instr} {k : Nat} {b : Byte}
    (h : areaRead s (instrOperand s i).laxa k = .byte b) : instrArea s i k = b := by
  simp [instrArea, areaOf, areaByte, h]

/-! ### The walk over the slots -/

theorem alignFor_of_not_align {c : Cfg} {i : Nat} (h : ((compCfg c i).map CompCfg.align64).getD false ≠ true)
    (off : Nat) : alignFor c i off = off := if_neg h

/-- R43, D15: with ALIGN64(i) = 1 the offset moves to the least multiple of 64 at or after it. -/
theorem alignFor_isLeast {c : Cfg} {i : Nat} (h : ((compCfg c i).map CompCfg.align64).getD false = true)
    (off : Nat) : alignFor c i off % 64 = 0 ∧ off ≤ alignFor c i off ∧
      ∀ x, x % 64 = 0 → off ≤ x → alignFor c i off ≤ x := by
  rw [alignFor, if_pos h]
  refine ⟨by omega, by omega, fun x hx hle => ?_⟩
  omega

/-- With ALIGN64 = 0 in the whole configuration no component is aligned. -/
theorem not_align_of_forall {c : Cfg} (h : ∀ d ∈ c.comps, d.align64 = false) (i : Nat) :
    ((compCfg c i).map CompCfg.align64).getD false ≠ true := by
  cases hd : compCfg c i with
  | none => simp
  | some d => simp [h d (List.mem_of_find?_eq_some hd)]

/-- R43: past component i's slot the walk stands at the slot's end. -/
theorem nextFeatureOffset_of_slot {c : Cfg} {format : Word} {i : Nat} (hi : 2 ≤ i) (h : format.getLsbD i = true) :
    nextFeatureOffset c format (i - 1) = offsetOf c format i + compSize c i := by
  obtain ⟨k, rfl⟩ := Nat.exists_eq_add_of_le' hi
  simp [nextFeatureOffset, offsetOf, h]

/-- R43: the walk does not move over components without a slot. -/
theorem nextFeatureOffset_of_no_slots {c : Cfg} {format : Word} {j k : Nat} (hjk : j ≤ k)
    (h : ∀ i, j + 2 ≤ i → i < k + 2 → format.getLsbD i = false) :
    nextFeatureOffset c format k = nextFeatureOffset c format j := by
  induction k, hjk using Nat.le_induction with
  | base => rfl
  | succ k hjk ih =>
    rw [nextFeatureOffset, h (k + 2) (by omega) (by omega), if_neg Bool.false_ne_true]
    exact ih fun i hlo hhi => h i hlo (by omega)

/-- R43: with a slot for j and none between j and k + 2, the walk up to k + 2 stands at the end of j's slot. -/
theorem nextFeatureOffset_of_last_slot {c : Cfg} {format : Word} {j k : Nat} (hj : 2 ≤ j) (hjk : j < k + 2)
    (hslot : format.getLsbD j = true) (hnone : ∀ i, j < i → i < k + 2 → format.getLsbD i = false) :
    nextFeatureOffset c format k = offsetOf c format j + compSize c j := by
  rw [← nextFeatureOffset_of_slot hj hslot]
  exact nextFeatureOffset_of_no_slots (by omega) fun i hlo hhi => hnone i (by omega) hhi

/-- The place of component i's slot before alignment, which is 576 or the end of the slot in front of it (R43), is where
the walk stands. -/
theorem nextFeatureOffset_eq_place {c : Cfg} {format : Word} {i place : Nat} (hi : 2 ≤ i)
    (h : (∀ j, 2 ≤ j → j < i → format.getLsbD j = false) ∧ place = 576 ∨
      ∃ j, 2 ≤ j ∧ j < i ∧ format.getLsbD j = true ∧
        (∀ k, j < k → k < i → format.getLsbD k = false) ∧ place = offsetOf c format j + compSize c j) :
    nextFeatureOffset c format (i - 2) = place := by
  rcases h with ⟨hnone, rfl⟩ | ⟨j, hj, hji, hslot, hnone, rfl⟩
  · exact nextFeatureOffset_of_no_slots (Nat.zero_le _) fun j hlo hhi => hnone j (by omega) (by omega)
  · exact nextFeatureOffset_of_last_slot hj (by omega) hslot fun k hlo hhi => hnone k hlo (by omega)

theorem nextFeatureOffset_le_offsetOf (c : Cfg) (format : Word) (i : Nat) :
    nextFeatureOffset c format (i - 2) ≤ offsetOf c format i := le_alignFor c i _

/-- R43: the end of a slot is at or before any place the walk reaches later. -/
theorem slotEnd_le_nextFeatureOffset {c : Cfg} {format : Word} {i k : Nat} (hi : 2 ≤ i)
    (h : format.getLsbD i = true) (hk : i ≤ k + 1) :
    offsetOf c format i + compSize c i ≤ nextFeatureOffset c format k := by
  rw [← nextFeatureOffset_of_slot hi h]
  exact nextFeatureOffset_mono c format (by omega)

/-- The components in 2..n-1 that have a slot (R43). -/
def slotsBelow (format : Word) (n : Nat) : List Nat :=
  (List.range n).filter fun j => 2 ≤ j && format.getLsbD j

theorem slotsBelow_succ (format : Word) {n : Nat} (hn : 2 ≤ n) :
    slotsBelow format (n + 1) = slotsBelow format n ++ if format.getLsbD n then [n] else [] := by
  simp [slotsBelow, List.range_succ, List.filter_append, List.filter_singleton, hn]

/-- R43, the page's own walk: without alignment the offset is the sum of the sizes of the slots passed. -/
theorem nextFeatureOffset_eq_sum {c : Cfg} (h : ∀ d ∈ c.comps, d.align64 = false) (format : Word) (k : Nat) :
    nextFeatureOffset c format k = 576 + ((slotsBelow format (k + 2)).map (compSize c)).sum := by
  induction k with
  | zero => simp [nextFeatureOffset, slotsBelow, List.range_succ]
  | succ k ih =>
    rw [nextFeatureOffset, alignFor_of_not_align (not_align_of_forall h _), slotsBelow_succ format (by omega), ih]
    split <;> simp [Nat.add_assoc]

/-! ### Faults of ranks 6 and 7 -/

/-- R48: in 64-bit mode in range means canonical. -/
theorem offsetInRange_of_bits64 {s : State} (h : s.mode = .bits64) {op : Operand} {k : Nat} :
    OffsetInRange s op k ↔ canonical s.cfg.linearWidth (op.laxa + BitVec.ofNat 64 k) = true := by
  simp [OffsetInRange, h, linearAt_of_bits64 h]

theorem raise_excGp (s : State) :
    raise s (excGp s) s = faultsWith s .gp (if s.mode = .real then none else some 0) := rfl

/-- R125, R126: an address outside its range raises #GP in real-address mode, else #SS(0) through SS and #GP(0) through
another segment. -/
theorem raise_excOutside (s : State) (r : SegReg) :
    raise s (excOutside s r) s =
      if s.mode = .real then faultsWith s .gp none else faultsWith s (if r = .ss then .ss else .gp) (some 0) := by
  unfold excOutside
  by_cases hreal : s.mode = .real
  · simp [hreal, raise_excGp]
  · by_cases hss : r = .ss
    · simp [hreal, hss, raise, faultsWith, excSs]
    · simp [hreal, hss, raise_excGp]

/-- The modes whose segment check asks for a usable segment, and the operand's is null or unreadable (R48; log 19). -/
def UnusableSegment (s : State) (op : Operand) : Prop :=
  (s.mode = .protectedMode ∨ s.mode = .compatibility) ∧
    ((segOf s op.seg).isNull = true ∨ (segOf s op.seg).readable = false)

/-- R48, log 19: through an unusable segment the range check raises #GP whatever the offset is. -/
theorem rangeCheck_of_unusableSegment {s : State} {op : Operand} (h : UnusableSegment s op) (len : Nat) :
    rangeCheck s op len = .fault (excGp s) := by
  obtain ⟨hmode, hseg⟩ := h
  have hbad : ((segOf s op.seg).isNull || !(segOf s op.seg).readable) = true := by
    rcases hseg with h | h <;> simp [h]
  rcases hmode with hm | hm <;> simp [rangeCheck, hm, hbad, Check.first, Check.faultIf]

/-- R48, R57, R126: through any other segment the range check raises nothing but `excOutside`. -/
theorem eq_excOutside_of_rangeCheck_eq_fault {s : State} {op : Operand} {len : Nat} {e : Exc}
    (h : ¬ UnusableSegment s op) (hfault : rangeCheck s op len = .fault e) : e = excOutside s op.seg := by
  unfold rangeCheck at hfault
  split at hfault
  case h_1 | h_2 | h_3 => exact ((Check.faultIf_eq_fault _ _ _).mp hfault).2.symm
  next hbits hreal hvirtual =>
    have hmode : s.mode = .protectedMode ∨ s.mode = .compatibility := by
      cases hm : s.mode <;> simp_all
    have husable : ((segOf s op.seg).isNull || !(segOf s op.seg).readable) = false := by
      simpa [UnusableSegment, hmode] using h
    rw [Check.first_cons_pass ((Check.faultIf_eq_pass _ _).mpr husable)] at hfault
    have hmem := Check.mem_of_first_eq_fault hfault
    rw [List.mem_singleton, eq_comm, Check.faultIf_eq_fault] at hmem
    exact hmem.2.symm

/-- R48, R57: an offset out of range is reported, whichever of the range it is. -/
theorem rangeCheck_of_outside {s : State} {op : Operand} (h : ¬ UnusableSegment s op) {k len : Nat} (hk : k < len)
    (hout : ¬ OffsetInRange s op k) : rangeCheck s op len = .fault (excOutside s op.seg) := by
  cases hcheck : rangeCheck s op len with
  | pass => exact absurd ((rangeCheck_eq_pass (by omega)).mp hcheck k hk) hout
  | refuse r => exact absurd hcheck (rangeCheck_ne_refuse _ _ _ r)
  | fault e => rw [eq_excOutside_of_rangeCheck_eq_fault h hcheck]

section RanksSixAndSeven
variable {i : Instr} {s : State} (hwf : i.wellFormed (codeCtx s) = true) (hlaunch : Launched s (instrOperand s i))
  (henabled : Enabled s (instrOperand s i)) (hcpl : cplOf s = 0)
include hwf hlaunch henabled hcpl

/-- With ranks 1 to 5 passed, the first fault of ranks 6 and 7 is raised and leaves the state (R131, R132). -/
theorem exec_of_first_eq_fault {e : Exc}
    (h : Check.first [rangeCheck s (instrOperand s i) 576,
      .faultIf (misaligned (instrOperand s i)) (excMisaligned s)] = .fault e) : exec i s = raise s e s := by
  have hearly : Check.first (launchChecks s (instrOperand s i) ++ earlyChecks s (instrOperand s i)) = .fault e := by
    rw [first_launchChecks_append hlaunch, first_earlyChecks_of_enabled henabled,
      Check.first_cons_pass ((Check.faultIf_eq_pass _ _).mpr ((notPrivileged_eq_false s).mpr hcpl)), h]
  rw [exec_of_wellFormed hwf]
  exact xrstorsExec_eq_fault.mpr ⟨e, rfl, .inl ⟨hearly, rfl⟩⟩

theorem exec_of_rangeCheck_eq_fault {e : Exc} (h : rangeCheck s (instrOperand s i) 576 = .fault e) :
    exec i s = raise s e s :=
  exec_of_first_eq_fault hwf hlaunch henabled hcpl (by rw [h]; rfl)

/-- R48, R57, R126: an offset 0..575 out of range, with the segment usable. -/
theorem exec_of_outside (hseg : ¬ UnusableSegment s (instrOperand s i)) {k : Nat} (hk : k < 576)
    (hout : ¬ OffsetInRange s (instrOperand s i) k) :
    exec i s =
      if s.mode = .real then faultsWith s .gp none
      else faultsWith s (if (instrOperand s i).seg = .ss then .ss else .gp) (some 0) := by
  rw [exec_of_rangeCheck_eq_fault hwf hlaunch henabled hcpl (rangeCheck_of_outside hseg hk hout), raise_excOutside]

end RanksSixAndSeven

/-- R23, R128: at CPL 0 alignment checking is off, and a misaligned operand raises #GP. -/
theorem excMisaligned_of_cpl_zero {s : State} (h : cplOf s = 0) : excMisaligned s = excGp s := by
  simp [excMisaligned, acEnabled, h]

/-! ### The read of the whole area, rank 10 -/

/-- With the header readable and legal and the area in range, the read of the area and the checks behind it are left
(R131). -/
theorem first_lateChecks_of_headerLegal {s : State} {op : Operand}
    (hread : ∀ k, 512 ≤ k → k < 576 → ByteReadable s op k) (hlegal : HeaderLegal s (areaOf s op))
    (hrange : ∀ k < operandAreaSize s op, OffsetInRange s op k) :
    Check.first (lateChecks s op) =
      Check.first
        [ readCheck s op.laxa 0 (operandAreaSize s op),
          .faultIf (mxcsrIllegal s (operandMasks s op) (areaOf s op)) (excGp s),
          .faultIf (loadFaults s (operandMasks s op) (areaOf s op)) (excGp s) ] := by
  have hpos : 0 < operandAreaSize s op := lt_of_lt_of_le (by omega) (le_areaSize _ _)
  rw [lateChecks, Check.first_cons_pass (readCheck_header.mpr hread),
    Check.first_cons_pass ((Check.faultIf_eq_pass _ _).mpr ((headerFails_eq_false _ _).mpr hlegal)),
    Check.first_cons_pass ((rangeCheck_eq_pass hpos).mpr hrange)]

/-- R50: a range of which a byte page-faults is reported as #PF at one of its bytes (log 18). -/
theorem readCheck_of_pageFault {s : State} {la : Word} {lo len k : Nat} {code : ErrorCode} (hk : k < len)
    (h : areaRead s la (lo + k) = .pageFault code) :
    ∃ j < len, ∃ code, areaRead s la (lo + j) = .pageFault code ∧
      readCheck s la lo len = .fault (excPf code (linearAt s la (lo + j))) := by
  cases hcheck : readCheck s la lo len with
  | pass =>
    obtain ⟨b, hb⟩ := readCheck_eq_pass.mp hcheck k hk
    exact absurd (hb.symm.trans h) (by simp)
  | refuse r => exact absurd h ((readCheck_eq_refuse.mp hcheck).1 k hk code)
  | fault e =>
    obtain ⟨j, hj, code, hread, rfl⟩ := readCheck_eq_fault hcheck
    exact ⟨j, hj, code, hread, rfl⟩

/-! ### The code behind a completed execution -/

theorem pcOf_of_bits64 {s : State} (h : s.mode = .bits64) : pcOf s = s.rip := by
  simp [pcOf, ipWidth, h]

/-- R100: in 64-bit mode RIP moves on by the instruction's length. -/
theorem nextPc_of_bits64 {s : State} (h : s.mode = .bits64) (length : Nat) :
    nextPc s length = s.rip + BitVec.ofNat 64 length := by
  simp [nextPc, pcOf_of_bits64 h, ipWidth, h]

theorem fetchAddress_of_bits64 {s : State} (h : s.mode = .bits64) (k : Nat) :
    fetchAddress s k = s.rip + BitVec.ofNat 64 k := by
  have hbase : segBase s .cs = 0 := segBase_of_bits64_of_ne h (by decide) (by decide)
  rw [fetchAddress, linearAt_of_bits64 h, hbase, pcOf_of_bits64 h]
  simp

/-- R12, D13: in 64-bit mode a fetch stays inside where the address neither wraps nor is non-canonical. -/
theorem fetchInside_of_bits64 {s : State} (h : s.mode = .bits64) (k : Nat) :
    fetchInside s k = (decide (s.rip.toNat + k < 2 ^ 64) &&
      canonical s.cfg.linearWidth (s.rip + BitVec.ofNat 64 k)) := by
  simp [fetchInside, fetchAddress_of_bits64 h, linearSpace, pcOf_of_bits64 h, ipWidth, h]

/-- R51, R100: in 64-bit mode the fetch after a commit reads on behind the instruction. -/
theorem fetchByte_commitWith (w : Bool) (op : Operand) (m : Masks) (f : Nat → Byte) {s : State}
    (h : s.mode = .bits64) {k : Nat} (hk : s.rip.toNat + op.length + k < 2 ^ 64) :
    fetchByte (commitWith w op m f s) k = fetchByte s (op.length + k) := by
  have hrip : (commitWith w op m f s).rip = s.rip + BitVec.ofNat 64 op.length := by
    rw [commitWith_rip, nextPc_of_bits64 h]
  have haddr : s.rip + BitVec.ofNat 64 op.length + BitVec.ofNat 64 k = s.rip + BitVec.ofNat 64 (op.length + k) := by
    rw [BitVec.ofNat_add, BitVec.add_assoc]
  have hnowrap : (s.rip + BitVec.ofNat 64 op.length).toNat + k = s.rip.toNat + (op.length + k) := by
    rw [BitVec.toNat_add, BitVec.toNat_ofNat]
    omega
  have hfetch : fetchAddress (commitWith w op m f s) k = fetchAddress s (op.length + k) := by
    rw [fetchAddress_of_bits64 h, fetchAddress_of_bits64 (s := commitWith w op m f s) h, hrip, haddr]
  have hinside : fetchInside (commitWith w op m f s) k = fetchInside s (op.length + k) := by
    rw [fetchInside_of_bits64 h, fetchInside_of_bits64 (s := commitWith w op m f s) h, hrip, hnowrap, haddr,
      commitWith_cfg]
  rw [fetchByte, fetchByte, hinside, hfetch, readLinear_commitWith]
  rfl

end Sys2Proof.Machine

namespace Sys2Proof

open Sys2Proof.Machine

/-- Settles O9: LAXA and the linear address of byte k by mode, and each outcome of translating it. -/
theorem linearAddressAndAreaBytes : Obligations.LinearAddressAndAreaBytes := by
  refine ⟨fun i s => ⟨rfl, rfl, fun hmode => ?_, fun hmode hseg => ?_, fun hmode hfs hgs => ?_, fun k => ?_⟩,
    fun f => ⟨leField_64 f 512, leField_64 f 520⟩, fun i s => rfl⟩
  · rw [instrOperand_laxa, linearWrap_toNat_of_ne_bits64 hmode, segBase_of_ne_bits64 hmode, BitVec.toNat_add]
    omega
  · rw [instrOperand_laxa, linearWrap_of_bits64 hmode, segBase_of_bits64_of_fs_or_gs hmode hseg]
  · rw [instrOperand_laxa, linearWrap_of_bits64 hmode, segBase_of_bits64_of_ne hmode hfs hgs]
    simp
  · rw [← linearAt_eq_ite]
    refine ⟨fun p hp hio => ?_, fun p hp hio => readLinear_of_io hp hio, fun code hc => readLinear_of_fault hc⟩
    have hread : areaRead s (instrOperand s i).laxa k = .byte (Memory.read s.mem p) := readLinear_of_phys hp hio
    exact ⟨hread, instrArea_of_areaRead hread⟩

/-- Settles O12: the walk without alignment is a sum, of which OFFSET(i) and AREA_SIZE are two places. -/
theorem pageWalkOffsets : Obligations.PageWalkOffsets := by
  intro c format h
  refine ⟨fun i hlo _ => ?_, nextFeatureOffset_eq_sum h format 61⟩
  obtain ⟨k, rfl⟩ := Nat.exists_eq_add_of_le' hlo
  rw [offsetOf, alignFor_of_not_align (not_align_of_forall h _)]
  exact nextFeatureOffset_eq_sum h format k

/-- Settles O13: each place of the statement is where the walk stands, and the walk never falls. -/
theorem slotsAreDisjointAndInside : Obligations.SlotsAreDisjointAndInside := by
  intro c format
  refine ⟨fun hnone => nextFeatureOffset_of_no_slots (Nat.zero_le 61)
      fun i hlo hhi => hnone i (by omega) (by omega), fun i hlo hhi hslot => ?_⟩
  refine ⟨?_, slotEnd_le_nextFeatureOffset hlo hslot (by omega), fun j hij hj _ => ?_, fun place hplace => ?_,
    fun hnone => ?_⟩
  · exact (nextFeatureOffset_mono c format (Nat.zero_le _)).trans (nextFeatureOffset_le_offsetOf c format i)
  · exact (slotEnd_le_nextFeatureOffset hlo hslot (by omega)).trans (nextFeatureOffset_le_offsetOf c format j)
  · rw [offsetOf, nextFeatureOffset_eq_place hlo hplace]
    split
    next halign => exact alignFor_isLeast halign place
    next halign => exact alignFor_of_not_align halign place
  · exact nextFeatureOffset_of_last_slot hlo (by omega) hslot fun k hk1 hk2 => hnone k hk1 (by omega)

/-- Settles O39: canonical bit by bit, and rank 6 reports the first 576 offsets. -/
theorem nonCanonicalAddressFaults : Obligations.NonCanonicalAddressFaults := by
  intro i s hmode
  have hrange (k : Nat) :=
    (offsetInRange_of_bits64 hmode (op := instrOperand s i) (k := k)).trans (canonical_eq_true _ _)
  refine ⟨hrange, fun hwf hlaunch henabled hcpl ⟨k, hk, b, hlo, hhi, hbit⟩ => ?_⟩
  have hseg : ¬ UnusableSegment s (instrOperand s i) := by simp [UnusableSegment, hmode]
  have hcpl' : cplOf s = 0 := by simpa [cplOf, hmode] using hcpl
  have hout : ¬ OffsetInRange s (instrOperand s i) k := fun h => hbit ((hrange k).mp h b hlo hhi)
  simpa [hmode] using exec_of_outside hwf hlaunch henabled hcpl' hseg hk hout

/-- Settles O40: a null or unreadable segment is rank 6's first test, and offset 575 lies past an expand-up limit. -/
theorem segmentLimitFaults : Obligations.SegmentLimitFaults := by
  intro i s hwf hlaunch henabled hmode hcpl
  have hcpl' : cplOf s = 0 := by rcases hmode with h | h <;> simpa [cplOf, h] using hcpl
  have hreal : s.mode ≠ .real := by rcases hmode with h | h <;> simp [h]
  refine ⟨fun hbad => ?_, fun hnull hread hup hlimit => ?_⟩
  · rw [exec_of_rangeCheck_eq_fault hwf hlaunch henabled hcpl' (rangeCheck_of_unusableSegment ⟨hmode, hbad⟩ 576),
      raise_excGp, if_neg hreal]
  · have hseg : ¬ UnusableSegment s (instrOperand s i) := by simp [UnusableSegment, hnull, hread]
    have hlim : (segOf s (instrOperand s i).seg).inLimit ((instrOperand s i).ea.toNat + 575) = false := by
      simpa [Segment.inLimit, hup] using hlimit
    have hout : ¬ OffsetInRange s (instrOperand s i) 575 := by
      rcases hmode with h | h <;> simp [OffsetInRange, h, hlim]
    rw [exec_of_outside hwf hlaunch henabled hcpl' hseg (by omega) hout, if_neg hreal]

/-- Settles O41: offset 575 is out of range, and no segment of real-address mode is unusable. -/
theorem realModeExtentFaults : Obligations.RealModeExtentFaults := by
  intro i s hwf hlaunch henabled hmode hextent
  have hcpl : cplOf s = 0 := by simp [cplOf, hmode]
  have hseg : ¬ UnusableSegment s (instrOperand s i) := by simp [UnusableSegment, hmode]
  have hout : ¬ OffsetInRange s (instrOperand s i) 575 := by
    simp only [OffsetInRange, hmode]
    omega
  rw [exec_of_outside hwf hlaunch henabled hcpl hseg (by omega) hout, if_pos hmode]

/-- Settles O42: with the range in order, alignment is the next check, and at CPL 0 its exception is #GP. -/
theorem misalignedOperandFaults : Obligations.MisalignedOperandFaults := by
  intro i s hwf hlaunch henabled hcpl hrange halign
  have hmis : misaligned (instrOperand s i) = true :=
    Bool.eq_true_of_not_eq_false fun h => halign ((misaligned_eq_false _).mp h)
  refine exec_of_first_eq_fault hwf hlaunch henabled hcpl (e := excGp s) ?_
  rw [Check.first_cons_pass ((rangeCheck_eq_pass (by omega)).mpr hrange), hmis, excMisaligned_of_cpl_zero hcpl]
  rfl

/-- Settles O47: everything in front of the area's read passes, so the read's answer is the instruction's. -/
theorem unreadableArea : Obligations.UnreadableArea := by
  intro i s hwf hlaunch henabled hcpl halign hrange hread hlegal
  have hsize : 576 ≤ operandAreaSize s (instrOperand s i) := le_areaSize _ _
  have hearly := first_early_eq_pass.mpr ⟨hlaunch, henabled, hcpl, fun k hk => hrange k (by omega), halign⟩
  have hlate := first_lateChecks_of_headerLegal hread hlegal hrange
  rw [exec_of_wellFormed hwf]
  refine ⟨fun hprecise ⟨k, hk, code, hfault⟩ => ?_, fun hnone ⟨k, hk, hdevice⟩ => ?_⟩
  · obtain ⟨j, hj, code, hpf, hcheck⟩ := readCheck_of_pageFault hk (by rwa [Nat.zero_add])
    rw [Nat.zero_add] at hpf hcheck
    refine ⟨j, code, hj, hpf, xrstorsExec_eq_fault.mpr ⟨excPf code _, rfl, .inr ⟨hearly, ?_, ?_⟩⟩⟩
    · rw [hlate, hcheck]; rfl
    · rw [faultLeft_precise _ _ hprecise]
  · have hcheck : readCheck s (instrOperand s i).laxa 0 (operandAreaSize s (instrOperand s i)) =
        .refuse .deviceMemory :=
      readCheck_eq_refuse.mpr ⟨by simpa using hnone, ⟨k, hk, by simpa using hdevice⟩, rfl⟩
    exact xrstorsExec_eq_refused.mpr (.inr ⟨hearly, by rw [hlate, hcheck]; rfl⟩)

/-- Settles O60: the step is the commit of the decoded instruction, which moves RIP behind it and stores nothing. -/
theorem nextFetchReadsTheBytesThatFollowed : Obligations.NextFetchReadsTheBytesThatFollowed := by
  intro s t i rest hmode hdecode hstep k hk
  have hexec : exec i s = .next t := by simpa only [step, hdecode] using hstep
  obtain ⟨-, -, -, rfl⟩ := exec_eq_next.mp hexec
  exact fetchByte_commitWith _ _ _ _ hmode hk

end Sys2Proof

/-! Proofs about the encoding: each stage of the decoder accepts exactly the bytes that the encoder writes for what it
answers, so that decoding and encoding are inverse to each other (R64 to R66, R71 to R73, R78). -/

namespace Sys2Proof

/-! ### Bytes and their fields -/

@[simp] theorem fieldHi_byte233 (hi : BitVec 2) (mid lo : BitVec 3) : fieldHi (byte233 hi mid lo) = hi := by
  revert hi mid lo; decide

@[simp] theorem fieldMid_byte233 (hi : BitVec 2) (mid lo : BitVec 3) : fieldMid (byte233 hi mid lo) = mid := by
  revert hi mid lo; decide

@[simp] theorem fieldLo_byte233 (hi : BitVec 2) (mid lo : BitVec 3) : fieldLo (byte233 hi mid lo) = lo := by
  revert hi mid lo; decide

/-- A byte is made of its three fields (R65, R72). -/
theorem byte233_fields (b : Byte) : byte233 (fieldHi b) (fieldMid b) (fieldLo b) = b := by
  revert b; decide

/-- Little-endian assembly and the split into bytes undo each other (R45). -/
theorem bytes16_le16 (b0 b1 : Byte) : bytes16 (le16 b0 b1) = [b0, b1] := by
  rw [bytes16, le16, BitVec.extractLsb'_append_eq_left, BitVec.extractLsb'_append_eq_right]

theorem le16_extract (v : BitVec 16) : le16 (v.extractLsb' 0 8) (v.extractLsb' 8 8) = v := by
  ext k hk
  grind [le16]

theorem bytes32_le32 (b0 b1 b2 b3 : Byte) : bytes32 (le32 b0 b1 b2 b3) = [b0, b1, b2, b3] := by
  simp only [bytes32, le32, List.cons.injEq, and_true]
  refine ⟨?_, ?_, ?_, ?_⟩
  all_goals
    ext k hk
    grind

theorem le32_extract (v : BitVec 32) :
    le32 (v.extractLsb' 0 8) (v.extractLsb' 8 8) (v.extractLsb' 16 8) (v.extractLsb' 24 8) = v := by
  ext k hk
  grind [le32]

/-- A byte is made of its two halves (R66). -/
theorem nibbles_append (b : Byte) : b.extractLsb' 4 4 ++ b.extractLsb' 0 4 = b := by
  ext k hk
  grind

/-! ### Displacements -/

/-- mod = 11 aside, mod is 00, 01 or 10 (R65). -/
theorem mod_eq_two {mod : BitVec 2} (h0 : mod ≠ 0) (h1 : mod ≠ 1) (h3 : mod ≠ 3) : mod = 2 := by
  revert mod; decide

theorem parse32_eq_some_iff {t r : List Byte} {v : BitVec 32} :
    parse32 t = some (v, r) ↔ t = bytes32 v ++ r := by
  constructor
  · fun_cases parse32 t with
    | case1 b0 b1 b2 b3 t =>
      intro h
      obtain ⟨rfl, rfl⟩ : le32 b0 b1 b2 b3 = v ∧ t = r := by simpa using h
      simp [bytes32_le32]
    | case2 => simp
  · rintro rfl
    simp [parse32, bytes32, le32_extract]

theorem parseDisp16_eq_some_iff {mod : BitVec 2} {t r : List Byte} {d : Disp16} (hmod : mod ≠ 3) :
    parseDisp16 mod t = some (d, r) ↔ mod = d.mod ∧ t = d.bytes ++ r := by
  constructor
  · fun_cases parseDisp16 mod t with
    | case1 t h0 => rintro ⟨⟩; exact ⟨h0, rfl⟩
    | case2 h0 h1 b0 t => rintro ⟨⟩; exact ⟨h1, rfl⟩
    | case4 h0 h1 b0 b1 t =>
      rintro ⟨⟩
      exact ⟨mod_eq_two h0 h1 hmod, by simp [Disp16.bytes, bytes16_le16]⟩
    | case3 | case5 => simp
  · rintro ⟨rfl, rfl⟩
    cases d with
    | none | d8 v => rfl
    | d16 v => simp [parseDisp16, Disp16.mod, Disp16.bytes, bytes16, le16_extract]

theorem parseDisp_eq_some_iff {mod : BitVec 2} {t r : List Byte} {d : Disp} (hmod : mod ≠ 3) :
    parseDisp mod t = some (d, r) ↔ mod = d.mod ∧ t = d.bytes ++ r := by
  constructor
  · fun_cases parseDisp mod t with
    | case1 t h0 => rintro ⟨⟩; exact ⟨h0, rfl⟩
    | case2 h0 h1 b0 t => rintro ⟨⟩; exact ⟨h1, rfl⟩
    | case3 => simp
    | case4 t h0 h1 =>
      intro h
      obtain ⟨⟨v, r'⟩, hv, ⟨⟩⟩ := Option.map_eq_some_iff.mp h
      exact ⟨mod_eq_two h0 h1 hmod, parse32_eq_some_iff.mp hv⟩
  · rintro ⟨rfl, rfl⟩
    cases d with
    | none | d8 v => rfl
    | d32 v =>
      have hv : parse32 (bytes32 v ++ r) = some (v, r) := parse32_eq_some_iff.mpr rfl
      simp [parseDisp, Disp.mod, Disp.bytes, hv]

theorem Disp16.mod_ne_three (d : Disp16) : d.mod ≠ 3 := by cases d <;> simp [Disp16.mod]

theorem Disp.mod_ne_three (d : Disp) : d.mod ≠ 3 := by cases d <;> simp [Disp.mod]

/-- mod = 00 says that there is no displacement. -/
theorem Disp16.mod_eq_zero_iff {d : Disp16} : d.mod = 0 ↔ d = .none := by cases d <;> simp [Disp16.mod]

theorem Disp.mod_eq_zero_iff {d : Disp} : d.mod = 0 ↔ d = .none := by cases d <;> simp [Disp.mod]

/-! ### The operand -/

/-- ModRM.mod, ModRM.rm and the bytes after ModRM of an operand: `encodeMem` in its three parts. -/
def Mem.mod : Mem → BitVec 2
  | .addr16 _ d => d.mod
  | .based _ d => d.mod
  | .sib _ _ _ d => d.mod
  | .disp16 _ | .sibDisp32 _ _ _ | .disp32 _ => 0

def Mem.rm : Mem → BitVec 3
  | .addr16 b _ => b.rm
  | .disp16 _ => 6
  | .based rm _ => rm
  | .sib _ _ _ _ => 4
  | .sibDisp32 _ _ _ => 4
  | .disp32 _ => 5

def Mem.tailBytes : Mem → List Byte
  | .addr16 _ d => d.bytes
  | .disp16 v => bytes16 v
  | .based _ d => d.bytes
  | .sib scale index base d => byte233 scale index base :: d.bytes
  | .sibDisp32 scale index v => byte233 scale index 5 :: bytes32 v
  | .disp32 v => bytes32 v

theorem encodeMem_eq (m : Mem) : encodeMem m = modRm m.mod m.rm :: m.tailBytes := by cases m <;> rfl

/-- R67: no operand is encoded with mod = 11. -/
theorem Mem.mod_ne_three (m : Mem) : m.mod ≠ 3 := by
  cases m with
  | addr16 b d => exact d.mod_ne_three
  | based rm d => exact d.mod_ne_three
  | sib scale index base d => exact d.mod_ne_three
  | disp16 v | sibDisp32 scale index v | disp32 v => simp [mod]

theorem base16OfRm_rm (b : Base16) : base16OfRm b.rm = b := by cases b <;> rfl

theorem rm_base16OfRm (rm : BitVec 3) : (base16OfRm rm).rm = rm := by revert rm; decide

/-- R73: what a 16-bit form is read from. -/
theorem parseMem16_eq_some_iff {mod : BitVec 2} {rm : BitVec 3} {t r : List Byte} {m : Mem} (hmod : mod ≠ 3) :
    parseMem16 mod rm t = some (m, r) ↔
      (mod = m.mod ∧ rm = m.rm ∧ t = m.tailBytes ++ r) ∧ m.fitsSize .a16 = true ∧ m.fieldsOk = true := by
  constructor
  · fun_cases parseMem16 mod rm t with
    | case1 h b0 b1 t =>
      rintro ⟨⟩
      exact ⟨⟨h.1, h.2, by simp [Mem.tailBytes, bytes16_le16]⟩, rfl, rfl⟩
    | case2 => simp
    | case3 t h =>
      intro hm
      obtain ⟨⟨d, r'⟩, hd, ⟨⟩⟩ := Option.map_eq_some_iff.mp hm
      obtain ⟨rfl, rfl⟩ := (parseDisp16_eq_some_iff hmod).mp hd
      refine ⟨⟨rfl, (rm_base16OfRm rm).symm, rfl⟩, rfl, ?_⟩
      have hbp : ¬ (base16OfRm rm = .bp ∧ d = .none) := fun hb =>
        h ⟨Disp16.mod_eq_zero_iff.mpr hb.2, by rw [← rm_base16OfRm rm, hb.1]; rfl⟩
      simpa [Mem.fieldsOk, or_iff_not_imp_left] using hbp
  · rintro ⟨⟨rfl, rfl, rfl⟩, hfit, hok⟩
    cases m with
    | addr16 b d =>
      have hd : parseDisp16 d.mod (d.bytes ++ r) = some (d, r) :=
        (parseDisp16_eq_some_iff d.mod_ne_three).mpr ⟨rfl, rfl⟩
      have hbp : ¬ (d.mod = 0 ∧ b.rm = 6) := by
        rintro ⟨h0, h6⟩
        have hb : b = .bp := by rw [← base16OfRm_rm b, h6]; rfl
        simp [Mem.fieldsOk, hb, Disp16.mod_eq_zero_iff.mp h0] at hok
      simp only [parseMem16, Mem.mod, Mem.rm, if_neg hbp, Mem.tailBytes, hd, Option.map_some, base16OfRm_rm]
    | disp16 v => simp [parseMem16, Mem.mod, Mem.rm, Mem.tailBytes, bytes16, le16_extract]
    | based rm d | sib scale index base d | sibDisp32 scale index v | disp32 v => simp [Mem.fitsSize] at hfit

/-- R72: what an operand with a SIB byte is read from. -/
theorem parseSib_eq_some_iff {mod : BitVec 2} {sib : Byte} {t r : List Byte} {m : Mem} (hmod : mod ≠ 3) :
    parseSib mod sib t = some (m, r) ↔
      (∃ scale index base d, m = .sib scale index base d ∧ m.fieldsOk = true ∧ mod = d.mod ∧
          sib = byte233 scale index base ∧ t = d.bytes ++ r) ∨
        ∃ scale index v, m = .sibDisp32 scale index v ∧ mod = 0 ∧ sib = byte233 scale index 5 ∧
          t = bytes32 v ++ r := by
  constructor
  · fun_cases parseSib mod sib t with
    | case1 h =>
      intro hm
      obtain ⟨⟨v, r'⟩, hv, ⟨⟩⟩ := Option.map_eq_some_iff.mp hm
      exact .inr ⟨_, _, v, rfl, h.1, by rw [← h.2, byte233_fields], parse32_eq_some_iff.mp hv⟩
    | case2 h =>
      intro hm
      obtain ⟨⟨d, r'⟩, hd, ⟨⟩⟩ := Option.map_eq_some_iff.mp hm
      obtain ⟨rfl, ht⟩ := (parseDisp_eq_some_iff hmod).mp hd
      refine .inl ⟨_, _, _, d, rfl, ?_, rfl, (byte233_fields sib).symm, ht⟩
      have hbase : ¬ (fieldLo sib = 5 ∧ d = .none) := fun hb => h ⟨Disp.mod_eq_zero_iff.mpr hb.2, hb.1⟩
      simpa [Mem.fieldsOk, or_iff_not_imp_left] using hbase
  · rintro (⟨scale, index, base, d, rfl, hok, rfl, rfl, rfl⟩ | ⟨scale, index, v, rfl, rfl, rfl, rfl⟩)
    · have hd : parseDisp d.mod (d.bytes ++ r) = some (d, r) := (parseDisp_eq_some_iff hmod).mpr ⟨rfl, rfl⟩
      have hbase : ¬ (d.mod = 0 ∧ base = 5) := by
        rintro ⟨h0, rfl⟩
        simp [Mem.fieldsOk, Disp.mod_eq_zero_iff.mp h0] at hok
      rw [parseSib, fieldLo_byte233, if_neg hbase, hd]
      simp
    · simp [parseSib, parse32_eq_some_iff.mpr rfl]

/-- R71, R72: what a 32- or 64-bit form is read from. -/
theorem parseMemWide_eq_some_iff {mod : BitVec 2} {rm : BitVec 3} {t r : List Byte} {m : Mem} (hmod : mod ≠ 3) :
    parseMemWide mod rm t = some (m, r) ↔
      (mod = m.mod ∧ rm = m.rm ∧ t = m.tailBytes ++ r) ∧ m.fitsSize .a64 = true ∧ m.fieldsOk = true := by
  constructor
  · fun_cases parseMemWide mod rm t with
    | case1 h4 sib t =>
      intro hm
      obtain ⟨scale, index, base, d, rfl, hok, rfl, rfl, rfl⟩ | ⟨scale, index, v, rfl, rfl, rfl, rfl⟩ :=
        (parseSib_eq_some_iff hmod).mp hm
      · exact ⟨⟨rfl, h4, rfl⟩, rfl, hok⟩
      · exact ⟨⟨rfl, h4, rfl⟩, rfl, rfl⟩
    | case2 => simp
    | case3 t h4 h =>
      intro hm
      obtain ⟨⟨v, r'⟩, hv, ⟨⟩⟩ := Option.map_eq_some_iff.mp hm
      exact ⟨⟨h.1, h.2, parse32_eq_some_iff.mp hv⟩, rfl, rfl⟩
    | case4 t h4 h =>
      intro hm
      obtain ⟨⟨d, r'⟩, hd, ⟨⟩⟩ := Option.map_eq_some_iff.mp hm
      obtain ⟨rfl, ht⟩ := (parseDisp_eq_some_iff hmod).mp hd
      refine ⟨⟨rfl, rfl, ht⟩, rfl, ?_⟩
      have hrm : ¬ (rm = 5 ∧ d = .none) := fun hb => h ⟨Disp.mod_eq_zero_iff.mpr hb.2, hb.1⟩
      simpa [Mem.fieldsOk, or_iff_not_imp_left] using And.intro h4 hrm
  · rintro ⟨⟨rfl, rfl, rfl⟩, hfit, hok⟩
    cases m with
    | addr16 b d | disp16 v => simp [Mem.fitsSize] at hfit
    | based rm d =>
      have hd : parseDisp d.mod (d.bytes ++ r) = some (d, r) := (parseDisp_eq_some_iff hmod).mpr ⟨rfl, rfl⟩
      have h4 : rm ≠ 4 := by
        rintro rfl
        simp [Mem.fieldsOk] at hok
      have h5 : ¬ (d.mod = 0 ∧ rm = 5) := by
        rintro ⟨h0, rfl⟩
        simp [Mem.fieldsOk, Disp.mod_eq_zero_iff.mp h0] at hok
      simp only [parseMemWide, Mem.mod, Mem.rm, if_neg h4, if_neg h5, Mem.tailBytes, hd, Option.map_some]
    | sib scale index base d =>
      exact (parseSib_eq_some_iff hmod).mpr (.inl ⟨_, _, _, d, rfl, hok, rfl, rfl, rfl⟩)
    | sibDisp32 scale index v =>
      exact (parseSib_eq_some_iff hmod).mpr (.inr ⟨_, _, v, rfl, rfl, rfl, rfl⟩)
    | disp32 v => simp [parseMemWide, Mem.mod, Mem.rm, Mem.tailBytes, parse32_eq_some_iff.mpr rfl]

/-- R70 to R73: at each address size an operand is read exactly from the fields and bytes it is encoded with. -/
theorem parseMem_eq_some_iff {a : AddrSize} {mod : BitVec 2} {rm : BitVec 3} {t r : List Byte} {m : Mem}
    (hmod : mod ≠ 3) :
    parseMem a mod rm t = some (m, r) ↔
      (mod = m.mod ∧ rm = m.rm ∧ t = m.tailBytes ++ r) ∧ m.fitsSize a = true ∧ m.fieldsOk = true := by
  cases a with
  | a16 => exact parseMem16_eq_some_iff hmod
  | a64 => exact parseMemWide_eq_some_iff hmod
  | a32 =>
    have hfit : m.fitsSize .a32 = m.fitsSize .a64 := by cases m <;> rfl
    rw [hfit]
    exact parseMemWide_eq_some_iff hmod

/-! ### The prefixes -/

/-- The byte 0100WRXB (R66). -/
def rexByte (wrxb : BitVec 4) : Byte := (4 : BitVec 4) ++ wrxb

theorem encodePrefix_rexIgnored (wrxb : BitVec 4) : encodePrefix (.rexIgnored wrxb) = rexByte wrxb := rfl

theorem classify_encodePrefix (bits64 : Bool) {p : Prefix} (h : p.isRexIgnored = false) :
    classify bits64 (encodePrefix p) = .legacy p := by
  cases p with
  | seg r => cases r <;> rfl
  | addrSize | lock => rfl
  | rexIgnored w => simp [Prefix.isRexIgnored] at h

theorem classify_rexByte (wrxb : BitVec 4) : classify true (rexByte wrxb) = .rex wrxb := by
  revert wrxb; decide

theorem encodePrefix_of_classify_legacy {bits64 : Bool} {b : Byte} {p : Prefix} (h : classify bits64 b = .legacy p) :
    encodePrefix p = b := by
  unfold classify at h
  split_ifs at h with h1 h2 h3 h4 h5 h6 h7 h8
  all_goals
    cases h
    simp only [encodePrefix, *]

theorem rexByte_of_classify_rex {bits64 : Bool} {b : Byte} {wrxb : BitVec 4} (h : classify bits64 b = .rex wrxb) :
    rexByte wrxb = b := by
  unfold classify at h
  split_ifs at h with h1 h2 h3 h4 h5 h6 h7 h8 h9 hrex
  cases h
  rw [rexByte, ← hrex.2, nibbles_append]

/-- The bytes a scan without 66, F2 and F3 was read from. -/
def Scan.bytes (sc : Scan) : List Byte := sc.ps.map encodePrefix ++ (sc.rex.map rexByte).toList ++ sc.rest

theorem Scan.bytes_addPrefix (p : Prefix) (sc : Scan) : (sc.addPrefix p).bytes = encodePrefix p :: sc.bytes := rfl

/-- A REX byte in front counts where it stands immediately before the opcode (R64). -/
theorem Scan.addRex_eq_ite (wrxb : BitVec 4) {sc : Scan} (hnp : sc.np = false) :
    sc.addRex wrxb =
      if sc.ps = [] ∧ sc.rex = none then { sc with rex := some wrxb } else sc.addPrefix (.rexIgnored wrxb) := by
  simp [addRex, hnp]

theorem Scan.bytes_addRex (wrxb : BitVec 4) {sc : Scan} (hnp : sc.np = false) :
    (sc.addRex wrxb).bytes = rexByte wrxb :: sc.bytes := by
  rw [addRex_eq_ite wrxb hnp]
  split
  next h => simp [bytes, h.1, h.2]
  next => rfl

theorem Scan.np_addRex (wrxb : BitVec 4) (sc : Scan) : (sc.addRex wrxb).np = sc.np := by
  unfold addRex
  split <;> rfl

/-- R64: an ignored byte 40..4F is followed by another prefix or by the REX byte that counts. -/
def Scan.RexFollowed (sc : Scan) : Prop := ignoredRexFollowed sc.ps (sc.rex.map rexBits) = true

theorem Scan.rexFollowed_addPrefix {p : Prefix} {sc : Scan} :
    (sc.addPrefix p).RexFollowed ↔
      sc.RexFollowed ∧ (sc.ps = [] ∧ sc.rex = none → p.isRexIgnored = false) := by
  obtain ⟨ps, rex, np, rest⟩ := sc
  cases ps <;> cases rex <;> simp [RexFollowed, addPrefix, ignoredRexFollowed, List.getLast?_cons_cons]

theorem Scan.rexFollowed_addRex (wrxb : BitVec 4) {sc : Scan} (hnp : sc.np = false) (h : sc.RexFollowed) :
    (sc.addRex wrxb).RexFollowed := by
  rw [addRex_eq_ite wrxb hnp]
  split
  next => simp [RexFollowed, ignoredRexFollowed]
  next hne => exact rexFollowed_addPrefix.mpr ⟨h, fun he => absurd he hne⟩

/-- 0F is no prefix (R64). -/
theorem scanPrefixes_opcode (bits64 : Bool) (t : List Byte) : scanPrefixes bits64 (0x0F :: t) = .bare (0x0F :: t) := by
  cases bits64 <;> rfl

/-- Without 66, F2 and F3 the scan drops no byte, and each REX byte it ignores is followed. -/
theorem bytes_scanPrefixes {bits64 : Bool} {bs : List Byte} (hnp : (scanPrefixes bits64 bs).np = false) :
    (scanPrefixes bits64 bs).bytes = bs ∧ (scanPrefixes bits64 bs).RexFollowed := by
  induction bs with
  | nil => exact ⟨rfl, rfl⟩
  | cons b t ih =>
    cases hb : classify bits64 b with
    | legacy p =>
      simp only [scanPrefixes, hb] at hnp ⊢
      obtain ⟨hbytes, hfollow⟩ := ih hnp
      exact ⟨by rw [Scan.bytes_addPrefix, encodePrefix_of_classify_legacy hb, hbytes],
        Scan.rexFollowed_addPrefix.mpr ⟨hfollow, fun _ => isRexIgnored_of_classify_legacy hb⟩⟩
    | np => simp [scanPrefixes, hb, Scan.addNp] at hnp
    | rex wrxb =>
      simp only [scanPrefixes, hb, Scan.np_addRex] at hnp ⊢
      obtain ⟨hbytes, hfollow⟩ := ih hnp
      exact ⟨by rw [Scan.bytes_addRex wrxb hnp, rexByte_of_classify_rex hb, hbytes],
        Scan.rexFollowed_addRex wrxb hnp hfollow⟩
    | opcode => simp only [scanPrefixes, hb]; exact ⟨rfl, rfl⟩

/-- The scan of the bytes written for prefixes, REX byte and opcode gives them back. -/
theorem scanPrefixes_bytes {bits64 : Bool} (ps : List Prefix) (rex : Option (BitVec 4)) {rest : List Byte}
    (hrest : scanPrefixes bits64 rest = .bare rest) (hrex : bits64 = true ∨ (Scan.mk ps rex false rest).NoRex)
    (hfollow : (Scan.mk ps rex false rest).RexFollowed) :
    scanPrefixes bits64 (Scan.mk ps rex false rest).bytes = ⟨ps, rex, false, rest⟩ := by
  induction ps with
  | nil =>
    cases rex with
    | none => exact hrest
    | some wrxb =>
      obtain rfl : bits64 = true := hrex.resolve_right fun h => by simp [Scan.NoRex] at h
      simp only [Scan.bytes, List.map_nil, Option.map_some, Option.toList_some, List.nil_append, List.cons_append,
        scanPrefixes, classify_rexByte, hrest]
      rfl
  | cons p ps ih =>
    obtain ⟨hfollow', hlast⟩ := (Scan.rexFollowed_addPrefix (sc := ⟨ps, rex, false, rest⟩)).mp hfollow
    have hrex' : bits64 = true ∨ (p.isRexIgnored = false ∧ (Scan.mk ps rex false rest).NoRex) :=
      hrex.imp_right (Scan.noRex_addPrefix (sc := ⟨ps, rex, false, rest⟩)).mp
    have hps := ih (hrex'.imp_right And.right) hfollow'
    change scanPrefixes bits64 (encodePrefix p :: (Scan.mk ps rex false rest).bytes) = _
    cases hp : p.isRexIgnored with
    | false =>
      simp only [scanPrefixes, classify_encodePrefix bits64 hp, hps]
      rfl
    | true =>
      obtain ⟨wrxb, rfl⟩ : ∃ wrxb, p = .rexIgnored wrxb := by cases p <;> simp_all [Prefix.isRexIgnored]
      obtain rfl : bits64 = true := hrex'.resolve_right fun h => by simp [hp] at h
      simp only [encodePrefix_rexIgnored, scanPrefixes, classify_rexByte, hps]
      rw [Scan.addRex_eq_ite wrxb rfl, if_neg fun h => by simp [hlast h] at hp]
      rfl

end Sys2Proof

/-! Proofs about whole instructions: the decoder accepts exactly the encodings of the well-formed ones, and names what
it refuses (R64, R67, R69, R75, R78, R79). -/

namespace Sys2Proof

/-! ### Instructions -/

/-- REX.W selects the form (R66). -/
theorem buildInstr_of_w_clear {wrxb : BitVec 4} (h : wrxb.getLsbD 3 = false) (ps : List Prefix) (m : Mem) :
    buildInstr ps (some wrxb) m = .xrstors ps (some (rexBits wrxb)) m :=
  if_neg (ne_true_of_eq_false h)

theorem buildInstr_of_w_set {wrxb : BitVec 4} (h : wrxb.getLsbD 3 = true) (ps : List Prefix) (m : Mem) :
    buildInstr ps (some wrxb) m = .xrstors64 ps (rexBits wrxb) m := if_pos h

@[simp] theorem buildInstr_prefixes (ps : List Prefix) (rex : Option (BitVec 4)) (m : Mem) :
    (buildInstr ps rex m).prefixes = ps := by
  fun_cases buildInstr ps rex m <;> rfl

@[simp] theorem buildInstr_mem (ps : List Prefix) (rex : Option (BitVec 4)) (m : Mem) :
    (buildInstr ps rex m).mem = m := by
  fun_cases buildInstr ps rex m <;> rfl

@[simp] theorem buildInstr_rex (ps : List Prefix) (rex : Option (BitVec 4)) (m : Mem) :
    (buildInstr ps rex m).rex = rex.map rexBits := by
  fun_cases buildInstr ps rex m <;> rfl

/-- The REX byte of an instruction is W and the bits R, X and B it keeps (R66). -/
theorem encodeRex_rexBits (wrxb : BitVec 4) : encodeRex (wrxb.getLsbD 3) (rexBits wrxb) = rexByte wrxb := by
  revert wrxb; decide

@[simp] theorem buildInstr_rexBytes (ps : List Prefix) (rex : Option (BitVec 4)) (m : Mem) :
    (buildInstr ps rex m).rexBytes = (rex.map rexByte).toList := by
  cases rex with
  | none => rfl
  | some wrxb =>
    rw [Option.map_some, ← encodeRex_rexBits]
    cases hw : wrxb.getLsbD 3 with
    | false => rw [buildInstr_of_w_clear hw]; rfl
    | true => rw [buildInstr_of_w_set hw]; rfl

theorem exists_wrxb (w : Bool) (r : Rex) : ∃ wrxb : BitVec 4, wrxb.getLsbD 3 = w ∧ rexBits wrxb = r := by
  obtain ⟨r, x, b⟩ := r
  revert w r x b; decide

/-- Every instruction is built from its prefixes, the bits WRXB of its REX byte and its operand (R66, R78). -/
theorem exists_eq_buildInstr (i : Instr) : ∃ rex, i = buildInstr i.prefixes rex i.mem := by
  cases i with
  | xrstors ps rex m =>
    cases rex with
    | none => exact ⟨none, rfl⟩
    | some r =>
      obtain ⟨wrxb, hw, rfl⟩ := exists_wrxb false r
      exact ⟨some wrxb, (buildInstr_of_w_clear hw ps m).symm⟩
  | xrstors64 ps r m =>
    obtain ⟨wrxb, hw, rfl⟩ := exists_wrxb true r
    exact ⟨some wrxb, (buildInstr_of_w_set hw ps m).symm⟩

theorem encode_buildInstr (ps : List Prefix) (rex : Option (BitVec 4)) (m : Mem) :
    encode (buildInstr ps rex m) = (Scan.mk ps rex false (0x0F :: 0xC7 :: encodeMem m)).bytes := by
  simp [encode, Scan.bytes]

/-- The encoding of an instruction has the length R75 gives it. -/
theorem length_encode (i : Instr) : (encode i).length = i.length := by
  cases i with
  | xrstors ps rex m => exact Laws.EncodeLength.xrstors ps rex m
  | xrstors64 ps rex m => exact Laws.EncodeLength.xrstors64 ps rex m

/-- A REX byte, ignored or not, is allowed in 64-bit mode only (R64). -/
theorem rexAllowed_eq_true_iff (c : CodeCtx) (sc : Scan) :
    rexAllowed c sc.ps (sc.rex.map rexBits) = true ↔ c.bits64 = true ∨ sc.NoRex := by
  simp [rexAllowed, Scan.NoRex]

/-- An instruction that keeps no REX byte outside 64-bit mode is a form that exists there (R3). -/
theorem formExists_of_rexAllowed {c : CodeCtx} {i : Instr} (h : rexAllowed c i.prefixes i.rex = true) :
    formExists c i = true := by
  cases i with
  | xrstors ps rex m => rfl
  | xrstors64 ps rex m => simpa [rexAllowed, formExists, Instr.rex] using h

/-- Well-formedness in terms of the scan that gives the instruction. -/
theorem wellFormed_buildInstr_iff (c : CodeCtx) (sc : Scan) (m : Mem) :
    (buildInstr sc.ps sc.rex m).wellFormed c = true ↔
      (c.bits64 = true ∨ sc.NoRex) ∧ sc.RexFollowed ∧ m.fitsSize (addrSizeOf c sc.ps) = true ∧
        m.fieldsOk = true ∧ (buildInstr sc.ps sc.rex m).length ≤ 15 := by
  have hform := formExists_of_rexAllowed (c := c) (i := buildInstr sc.ps sc.rex m)
  simp only [buildInstr_prefixes, buildInstr_rex, rexAllowed_eq_true_iff] at hform
  simp only [Instr.wellFormed, buildInstr_prefixes, buildInstr_rex, buildInstr_mem, Bool.and_eq_true,
    decide_eq_true_eq, rexAllowed_eq_true_iff, Scan.RexFollowed]
  tauto

/-! ### Decoding and encoding -/

theorem Instr.length_le_of_wellFormed {c : CodeCtx} {i : Instr} (h : i.wellFormed c = true) : i.length ≤ 15 := by
  simp only [wellFormed, Bool.and_eq_true, decide_eq_true_eq] at h
  exact h.2

/-- What the decoder accepts within 15 bytes is the encoding of a well-formed instruction, and what is left over. -/
theorem encode_of_decodeOpcode {c : CodeCtx} {bs t : List Byte} {i : Instr} (hlen : bs.length ≤ 15)
    (h : decodeOpcode c (scanPrefixes c.bits64 bs) = .ok (i, t)) : i.wellFormed c = true ∧ bs = encode i ++ t := by
  obtain ⟨modrm, tail, m, hrest, hreg, hnp, hmod, hm, rfl⟩ := decodeOpcode_eq_ok_iff.mp h
  obtain ⟨⟨hhi, hlo, rfl⟩, hfit, hok⟩ := (parseMem_eq_some_iff hmod).mp hm
  obtain ⟨hbytes, hfollow⟩ := bytes_scanPrefixes hnp
  have hmodrm : modrm = modRm m.mod m.rm := by rw [← byte233_fields modrm, hhi, hreg, hlo]; rfl
  have henc : bs = encode (buildInstr (scanPrefixes c.bits64 bs).ps (scanPrefixes c.bits64 bs).rex m) ++ t := by
    rw [encode_buildInstr, encodeMem_eq, ← hmodrm]
    conv_lhs => rw [← hbytes, Scan.bytes, hrest]
    simp [Scan.bytes]
  refine ⟨(wellFormed_buildInstr_iff c _ m).mpr ⟨?_, hfollow, hfit, hok, ?_⟩, henc⟩
  · cases hc : c.bits64 with
    | true => exact .inl rfl
    | false => exact .inr (scanPrefixes_noRex bs)
  · rw [← length_encode]
    have := congrArg List.length henc
    rw [List.length_append] at this
    omega

/-- The encoding of a well-formed instruction is read as that instruction, and what follows it is left over. -/
theorem decodeOpcode_encode {c : CodeCtx} {i : Instr} (hwf : i.wellFormed c = true) (t : List Byte) :
    decodeOpcode c (scanPrefixes c.bits64 (encode i ++ t)) = .ok (i, t) := by
  obtain ⟨rex, hi⟩ := exists_eq_buildInstr i
  generalize i.prefixes = ps, i.mem = m at hi
  subst hi
  obtain ⟨hrex, hfollow, hfit, hok, -⟩ := (wellFormed_buildInstr_iff c ⟨ps, rex, false, _⟩ m).mp hwf
  have hbytes : encode (buildInstr ps rex m) ++ t =
      (Scan.mk ps rex false (0x0F :: 0xC7 :: modRm m.mod m.rm :: (m.tailBytes ++ t))).bytes := by
    simp [encode_buildInstr, encodeMem_eq, Scan.bytes]
  have hm : parseMem (addrSizeOf c ps) m.mod m.rm (m.tailBytes ++ t) = some (m, t) :=
    (parseMem_eq_some_iff m.mod_ne_three).mpr ⟨⟨rfl, rfl, rfl⟩, hfit, hok⟩
  rw [hbytes, scanPrefixes_bytes ps rex (scanPrefixes_opcode _ _) hrex hfollow]
  refine decodeOpcode_eq_ok_iff.mpr ⟨_, _, m, rfl, fieldMid_byte233 _ _ _, rfl, ?_, ?_, rfl⟩
  · rw [modRm, fieldHi_byte233]
    exact m.mod_ne_three
  · rw [modRm, fieldHi_byte233, fieldLo_byte233]
    exact hm

/-- The decoder accepts exactly the encodings of the well-formed instructions, whatever bytes follow. -/
theorem decode_eq_ok_iff_encode {c : CodeCtx} {bytes rest : List Byte} {i : Instr} :
    decode c bytes = .ok (i, rest) ↔ i.wellFormed c = true ∧ bytes = encode i ++ rest := by
  rw [decode_eq_ok_iff]
  constructor
  · rintro ⟨⟨t, hop⟩, rfl⟩
    obtain ⟨hwf, ht⟩ := encode_of_decodeOpcode (List.length_take_le maxLength bytes) hop
    have hbytes : bytes = encode i ++ (t ++ bytes.drop maxLength) := by
      rw [← List.append_assoc, ← ht, List.take_append_drop]
    refine ⟨hwf, ?_⟩
    conv_lhs => rw [hbytes]
    conv_rhs => rw [hbytes, ← length_encode, List.drop_left]
  · rintro ⟨hwf, rfl⟩
    have hlen : (encode i).length ≤ maxLength := by
      rw [length_encode]
      exact i.length_le_of_wellFormed hwf
    rw [List.take_append, List.take_of_length_le hlen, ← length_encode, List.drop_left]
    exact ⟨⟨_, decodeOpcode_encode hwf _⟩, rfl⟩

/-- Settles O2: one direction of `decode_eq_ok_iff_encode`. -/
theorem encodeThenDecodeGivesTheInstruction : Obligations.EncodeThenDecodeGivesTheInstruction :=
  fun _ _ _ hwf => decode_eq_ok_iff_encode.mpr ⟨hwf, rfl⟩

/-- Settles O3: the other direction of `decode_eq_ok_iff_encode`. -/
theorem decodedBytesAreTheEncoding : Obligations.DecodedBytesAreTheEncoding := by
  intro c bytes i rest hdec
  obtain ⟨hwf, hbytes⟩ := decode_eq_ok_iff_encode.mp hdec
  exact ⟨hbytes.symm, hwf⟩

/-! ### The pattern of the opcode table, and bytes that are no XRSTORS -/

theorem and_38H_eq_18H_iff (m : Byte) : m &&& 0x38 = 0x18 ↔ fieldMid m = 3 := by
  revert m; decide

theorem and_C0H_eq_C0H_iff (m : Byte) : m &&& 0xC0 = 0xC0 ↔ fieldHi m = 3 := by
  revert m; decide

/-- R75: two opcode bytes and ModRM at least, and a REX byte in front of them for XRSTORS64. -/
theorem Instr.three_le_length (i : Instr) : 3 ≤ i.length := by
  simp only [length, instrLength]
  omega

theorem Instr.four_le_length {i : Instr} (h : i.w = true) : 4 ≤ i.length := by
  cases i with
  | xrstors ps rex m => cases h
  | xrstors64 ps rex m =>
    simp only [length, instrLength, Instr.rex, Option.isSome_some, if_true]
    omega

/-- Settles O4: what is accepted is an encoding, whose ModRM byte has reg = 011 and the operand's mod. -/
theorem acceptedBytesMatchTheTablePattern : Obligations.AcceptedBytesMatchTheTablePattern := by
  intro c bytes i rest hdec
  obtain ⟨hwf, rfl⟩ := decode_eq_ok_iff_encode.mp hdec
  refine ⟨⟨i.three_le_length, i.length_le_of_wellFormed hwf⟩, Instr.four_le_length,
    modRm i.mem.mod i.mem.rm, i.mem.tailBytes ++ rest, ?_, ?_, ?_⟩
  · simp [encode, encodeMem_eq]
  · exact (and_38H_eq_18H_iff _).mpr (fieldMid_byte233 _ _ _)
  · rw [Ne, and_C0H_eq_C0H_iff, modRm, fieldHi_byte233]
    exact i.mem.mod_ne_three

/-- A decoding error other than running out of bytes is one of the first 15 bytes. -/
theorem decode_eq_error {c : CodeCtx} {bytes : List Byte} {e : DecodeError} (hne : e ≠ .truncated)
    (h : decodeOpcode c (scanPrefixes c.bits64 (bytes.take maxLength)) = .error e) : decode c bytes = .error e := by
  cases e with
  | truncated => exact absurd rfl hne
  | _ => simp only [decode, h]

/-- R79: /n with n other than 3 is refused by name. -/
theorem decodeOpcode_otherReg {c : CodeCtx} {sc : Scan} {m : Byte} {t : List Byte}
    (hrest : sc.rest = 0x0F :: 0xC7 :: m :: t) (hreg : fieldMid m ≠ 3) :
    decodeOpcode c sc = .error (.notXrstorsReg (fieldMid m)) := by
  simp only [decodeOpcode, hrest, if_pos hreg]
  rfl

/-- R69: /3 behind 66, F2 or F3. -/
theorem decodeOpcode_np {c : CodeCtx} {sc : Scan} {m : Byte} {t : List Byte}
    (hrest : sc.rest = 0x0F :: 0xC7 :: m :: t) (hreg : fieldMid m = 3) (hnp : sc.np = true) :
    decodeOpcode c sc = .error .npViolated := by
  simp [decodeOpcode, hrest, hreg, hnp]

/-- R67: /3 with mod = 11. -/
theorem decodeOpcode_registerForm {c : CodeCtx} {sc : Scan} {m : Byte} {t : List Byte}
    (hrest : sc.rest = 0x0F :: 0xC7 :: m :: t) (hreg : fieldMid m = 3) (hnp : sc.np = false) (hmod : fieldHi m = 3) :
    decodeOpcode c sc = .error .registerForm := by
  simp [decodeOpcode, hrest, hreg, hnp, hmod]

/-- R69: one of the bytes 66, F2 and F3 in front of the opcode. -/
theorem scanPrefixes_np (bits64 : Bool) {p : Byte} (hp : p = 0x66 ∨ p = 0xF2 ∨ p = 0xF3) (t : List Byte) :
    scanPrefixes bits64 (p :: t) = (scanPrefixes bits64 t).addNp := by
  rcases hp with rfl | rfl | rfl <;> rfl

/-- Settles O5: what the scan finds in front of the opcode, and the first test of `decodeOpcode` that it fails. -/
theorem unassignedFormsAreNotXrstors : Obligations.UnassignedFormsAreNotXrstors := by
  intro c m tail
  have htake : (0x0F :: 0xC7 :: m :: tail).take maxLength = 0x0F :: 0xC7 :: m :: tail.take 12 := rfl
  simp only [ne_eq, and_38H_eq_18H_iff, and_C0H_eq_C0H_iff]
  refine ⟨fun hreg => ?_, fun hreg hmod => ?_, fun p hp hreg => ?_⟩
  · refine decode_eq_error (by simp) ?_
    rw [htake, scanPrefixes_opcode]
    exact decodeOpcode_otherReg rfl hreg
  · refine decode_eq_error (by simp) ?_
    rw [htake, scanPrefixes_opcode]
    exact decodeOpcode_registerForm rfl hreg rfl hmod
  · refine decode_eq_error (by simp) ?_
    have htake' : (p :: 0x0F :: 0xC7 :: m :: tail).take maxLength = p :: 0x0F :: 0xC7 :: m :: tail.take 11 := rfl
    rw [htake', scanPrefixes_np _ hp, scanPrefixes_opcode]
    exact decodeOpcode_np rfl hreg rfl

/-- Settles O1: the decoder evaluated on seven words of spec/95. -/
theorem specWordsDecode : Obligations.SpecWordsDecode := by
  unfold Obligations.SpecWordsDecode
  decide

end Sys2Proof

/-! Proofs about the operand's address: its width by mode and prefix, the form's sum at that width, and the segment
(R70 to R74). -/

namespace Sys2Proof.Machine

/-! ### The effective address -/

/-- R70: the address size by mode, CS's D bit and prefix 67. -/
theorem addrBits_addrSizeOf (s : State) (ps : List Prefix) :
    addrBits (addrSizeOf (codeCtx s) ps) = addressWidth s ps := by
  have hprefix : hasAddrSize ps = decide (Prefix.addrSize ∈ ps) := by simp [hasAddrSize]
  simp only [addrSizeOf, addressWidth, codeCtx, hprefix]
  cases s.mode with
  | real | virtual8086 | bits64 => by_cases h : Prefix.addrSize ∈ ps <;> simp [h, addrBits]
  | protectedMode | compatibility =>
    cases s.segs.cs.big <;> by_cases h : Prefix.addrSize ∈ ps <;> simp [h, addrBits]

theorem addrBits_le (a : AddrSize) : addrBits a ≤ 64 := by cases a <;> decide

/-- A displacement sign-extended to 64 bits and cut to w is sign-extended to w. -/
theorem setWidth_signExtend {n w : Nat} (hw : w ≤ 64) (v : BitVec n) :
    (v.signExtend 64).setWidth w = v.signExtend w := by
  refine BitVec.eq_of_getLsbD_eq fun k hk => ?_
  simp only [BitVec.getLsbD_setWidth, BitVec.getLsbD_signExtend, hk, lt_of_lt_of_le hk hw, decide_true, Bool.true_and]

/-- R72: index field 100 names no index exactly where REX.X does not extend it. -/
theorem regNumber_eq_four_iff (high : Bool) (low : BitVec 3) : regNumber high low = 4 ↔ high = false ∧ low = 4 := by
  revert high low; decide

/-- R72: cutting the scaled index commutes with scaling it. -/
theorem scaledIndex_setWidth {w : Nat} (hw : w ≤ 64) (s : State) (rex : Option Rex) (scale : BitVec 2)
    (index : BitVec 3) :
    (scaledIndex s rex scale index).setWidth w =
      if rexX rex = false ∧ index = 4 then 0
      else (gprOf s (regNumber (rexX rex) index)).setWidth w <<< scale.toNat := by
  simp only [scaledIndex, regNumber_eq_four_iff]
  split
  · simp
  · rw [BitVec.setWidth_shiftLeft_of_le hw]

/-- R71 to R73: the sum taken at 64 bits and cut to w is the form's sum at w. -/
theorem addressSum_setWidth {w : Nat} (hw : w ≤ 64) (s : State) (rex : Option Rex) {next next' : Word}
    (hnext : s.mode = .bits64 → next = next') (m : Mem) :
    (addressSum s rex next m).setWidth w = addressForm s rex next' w m := by
  cases m with
  | addr16 b d =>
    cases b <;> cases d <;>
      simp [addressSum, addressForm, base16Sum, disp16Value, BitVec.setWidth_add _ _ hw, setWidth_signExtend hw]
  | disp16 v => exact setWidth_signExtend hw v
  | based rm d =>
    cases d <;>
      simp [addressSum, addressForm, dispValue, regNumber, BitVec.setWidth_add _ _ hw, setWidth_signExtend hw]
  | sib scale index base d =>
    cases d <;>
      simp [addressSum, addressForm, dispValue, regNumber, BitVec.setWidth_add _ _ hw, setWidth_signExtend hw,
       scaledIndex_setWidth hw]
  | sibDisp32 scale index v =>
    simp [addressSum, addressForm, regNumber, BitVec.setWidth_add _ _ hw, setWidth_signExtend hw,
       scaledIndex_setWidth hw]
  | disp32 v =>
    by_cases hmode : s.mode = .bits64
    · simp [addressSum, addressForm, hmode, hnext hmode, BitVec.setWidth_add _ _ hw, setWidth_signExtend hw]
    · simp [addressSum, addressForm, hmode, setWidth_signExtend hw]

/-! ### The operand's segment -/

/-- With no prefix the segment is the form's default (R74). -/
theorem operandSeg_nil (s : State) (rex : Option Rex) (m : Mem) : operandSeg s [] rex m = defaultSeg rex m := rfl

/-- R74: a base register is rSP or rBP. -/
theorem regNumber_eq_rsp_or_rbp_iff (high : Bool) (low : BitVec 3) :
    regNumber high low = 4 ∨ regNumber high low = 5 ↔ (low = 4 ∨ low = 5) ∧ high = false := by
  revert high low; decide

/-- A prefix that is no segment override overrides nothing (R74). -/
theorem overrideOf_eq_none {bits64 : Bool} {p : Prefix} (h : ∀ r, p ≠ .seg r) : overrideOf bits64 p = none := by
  cases p with
  | seg r => exact absurd rfl (h r)
  | addrSize | lock | rexIgnored w => rfl

/-- R74: outside 64-bit mode every override counts. -/
theorem overrideOf_seg_of_not_bits64 (r : SegReg) : overrideOf false (.seg r) = some r := by cases r <;> rfl

/-- R74: in 64-bit mode those of FS and GS only (log 28). -/
theorem overrideOf_seg_of_bits64 (r : SegReg) :
    overrideOf true (.seg r) = if r = .fs ∨ r = .gs then some r else none := by cases r <;> rfl

/-- R64, R74: the last prefix decides where it is an override that counts, and changes nothing where it is not. -/
theorem operandSeg_append (s : State) (ps : List Prefix) (p : Prefix) (rex : Option Rex) (m : Mem) :
    operandSeg s (ps ++ [p]) rex m = (overrideOf (s.mode == .bits64) p).getD (operandSeg s ps rex m) := by
  cases h : overrideOf (s.mode == .bits64) p <;> simp [operandSeg, segOverride, List.filterMap_append, h]

end Sys2Proof.Machine

namespace Sys2Proof

open Sys2Proof.Machine

/-- Settles O7: the sum cut to the address size is the form's sum at that size. -/
theorem effectiveAddressForms : Obligations.EffectiveAddressForms := by
  intro s ps rex m
  have hnext : s.mode = .bits64 →
      nextPc s (instrLength ps rex m) = s.rip + BitVec.ofNat 64 (instrLength ps rex m) :=
    fun hmode => nextPc_of_bits64 hmode _
  rw [effectiveAddress, lowBits_eq_setWidth _ (addrBits_le _), addressSum_setWidth (addrBits_le _) s rex hnext,
    addrBits_addrSizeOf]

/-- Settles O8: the defaults by form, and what the last prefix overrides. -/
theorem operandSegmentSelection : Obligations.OperandSegmentSelection := by
  intro s
  refine ⟨fun rex rm d => ?_, fun rex sc ix b d => ?_, fun rex b d => ?_, fun _ _ _ _ => rfl, fun _ _ => rfl,
    fun _ _ => rfl, fun ps p rex m hp => ?_, fun ps r rex m hmode => ?_, fun ps r rex m hmode => ?_⟩
  · simp only [operandSeg_nil, defaultSeg, regNumber_eq_rsp_or_rbp_iff]
  · simp only [operandSeg_nil, defaultSeg, regNumber_eq_rsp_or_rbp_iff]
  · cases b <;> simp [operandSeg_nil, defaultSeg]
  · rw [operandSeg_append, overrideOf_eq_none hp]
    rfl
  · rw [operandSeg_append, beq_false_of_ne hmode, overrideOf_seg_of_not_bits64]
    rfl
  · rw [operandSeg_append, hmode, beq_self_eq_true, overrideOf_seg_of_bits64]
    split <;> rfl

end Sys2Proof

/-! Proofs about the step at given bytes: what the fetch reads decides the answer (R12, R64, R75, R127). -/

namespace Sys2Proof.Machine

/-! ### A step by what is decoded -/

theorem step_of_decode {s : State} {i : Instr} {rest : List Byte}
    (h : decode (codeCtx s) (fetchWindow s).1 = .ok (i, rest)) : step s = exec i s := by
  simp only [step, h]

theorem step_of_decode_error {s : State} {e : DecodeError} (h : decode (codeCtx s) (fetchWindow s).1 = .error e) :
    step s = notDecoded s (fetchWindow s).2 e := by
  simp only [step, h]

/-- Bytes that can all be fetched stand at the front of the window. -/
theorem fetchWindow_prefix {s : State} {bs : List Byte} (hlen : bs.length ≤ maxLength)
    (h : ∀ k < bs.length, fetchByte s k = .ok (bs.getD k 0)) : ∃ r, (fetchWindow s).1 = bs ++ r :=
  fetchFrom_prefix hlen fun j hj => by rw [Nat.zero_add]; exact h j hj

/-- Fifteen bytes that can be fetched are the window. -/
theorem fetchWindow_eq {s : State} {bs : List Byte} (hlen : bs.length = maxLength)
    (h : ∀ k < bs.length, fetchByte s k = .ok (bs.getD k 0)) : (fetchWindow s).1 = bs := by
  obtain ⟨r, hr⟩ := fetchWindow_prefix hlen.le h
  have hle : (fetchWindow s).1.length ≤ maxLength := length_fetchFrom_le s maxLength 0
  rw [hr, List.length_append] at hle
  rw [hr, List.length_eq_zero_iff.mp (by omega : r.length = 0), List.append_nil]

/-- Bytes that end before the instruction does are fewer than 15 (R64). -/
theorem length_lt_of_decode_truncated {c : CodeCtx} {bytes : List Byte} (h : decode c bytes = .error .truncated) :
    bytes.length < maxLength := by
  rw [decode.eq_def] at h
  split at h
  next => cases h
  next =>
    split at h
    next => cases h
    next hlt => exact Nat.not_le.mp hlt
  next e hne _ => exact absurd (Except.error.inj h) hne

/-- The first byte that cannot be fetched, where the instruction needs it, decides the step (R127, D13). -/
theorem step_of_fetch_stop {s : State} {bs : List Byte} {e : FetchStop}
    (h : ∀ k < bs.length, fetchByte s k = .ok (bs.getD k 0)) (hdec : decode (codeCtx s) bs = .error .truncated)
    (hstop : fetchByte s bs.length = .error e) : step s = notDecoded s (some e) .truncated := by
  have hwindow : fetchWindow s = (bs, some e) :=
    fetchFrom_stop (length_lt_of_decode_truncated hdec) (fun j hj => by rw [Nat.zero_add]; exact h j hj)
      (by rw [Nat.zero_add]; exact hstop)
  rw [step_of_decode_error (by rw [hwindow]; exact hdec), hwindow]

/-! ### Where a byte cannot be fetched -/

/-- R12, D13: a byte lies outside past the top of the instruction pointer's range or of the linear address space, past
the code-segment limit, or at a non-canonical address. -/
theorem fetchInside_eq_false_iff (s : State) (k : Nat) :
    fetchInside s k = false ↔
      2 ^ ipWidth s ≤ (pcOf s).toNat + k ∨ linearSpace s ≤ (fetchAddress s 0).toNat + k ∨
        (s.mode ≠ .bits64 ∧ s.segs.cs.limit.toNat < (pcOf s).toNat + k) ∨
        (s.mode = .bits64 ∧ canonical s.cfg.linearWidth (fetchAddress s k) = false) := by
  simp only [fetchInside, Bool.and_eq_false_iff, decide_eq_false_iff_not, Nat.not_lt, or_assoc]
  by_cases hmode : s.mode = .bits64 <;> simp [hmode]

theorem fetchByte_of_outside {s : State} {k : Nat} (h : fetchInside s k = false) :
    fetchByte s k = .error .outside := by
  rw [fetchByte, h]
  rfl

theorem fetchByte_of_fault {s : State} {k : Nat} {code : ErrorCode} (hin : fetchInside s k = true)
    (h : translate s (fetchAddress s k) (fetchSupervisor s) = .fault code) :
    fetchByte s k = .error (.pageFault code (fetchAddress s k)) := by
  simp [fetchByte, hin, readLinear_of_fault h]

theorem fetchByte_of_io {s : State} {k p : Nat} (hin : fetchInside s k = true)
    (h : translate s (fetchAddress s k) (fetchSupervisor s) = .phys p) (hio : isIo s p = true) :
    fetchByte s k = .error .device := by
  simp [fetchByte, hin, readLinear_of_io h hio]

theorem fetchByte_of_phys {s : State} {k p : Nat} (hin : fetchInside s k = true)
    (h : translate s (fetchAddress s k) (fetchSupervisor s) = .phys p) (hio : isIo s p = false) :
    fetchByte s k = .ok (Memory.read s.mem p) := by
  simp [fetchByte, hin, readLinear_of_phys h hio]

/-! ### Bytes placed at pc -/

/-- The first n instruction bytes are fetched from physical addresses that rise from `base` on. -/
def FetchesFrom (s : State) (base n : Nat) : Prop :=
  ∀ k < n, fetchInside s k = true ∧ translate s (fetchAddress s k) (fetchSupervisor s) = .phys (base + k)

/-- Bytes placed at pc are fetched there. -/
theorem fetchByte_placeAtPc {s : State} {bs : List Byte} {base : Nat} (hwf : Memory.wf s.mem = true)
    (hfrom : FetchesFrom s base bs.length) (hio : s.ioRanges = []) {k : Nat} (hk : k < bs.length) :
    fetchByte (placeAtPc s bs) k = .ok (bs.getD k 0) := by
  have hread : Memory.read (placeAtPc s bs).mem (base + k) = bs.getD k 0 := by
    rw [placeAtPc_mem, placeBytes_read s base bs 0 hwf fun j _ hj => (hfrom j (by omega)).2, if_pos (by omega)]
    simp
  obtain ⟨hin, hphys⟩ := hfrom k hk
  rw [← hread]
  exact fetchByte_of_phys (s := placeAtPc s bs) hin hphys (by simp [isIo, hio])

/-- The state after reset, in the mode a table word is run in (log 34). -/
def resetInMode (m : Mode) : State := { State.reset with mode := m }

/-- After reset 15 bytes are fetched from FFFFFFF0H on (R34). -/
theorem resetInMode_real_fetchesFrom : FetchesFrom (resetInMode .real) 0xFFFFFFF0 maxLength := by
  unfold FetchesFrom
  decide +kernel

/-- In 64-bit mode, where CS.base is 0, they are fetched from FFF0H on (R48). -/
theorem resetInMode_bits64_fetchesFrom : FetchesFrom (resetInMode .bits64) 0xFFF0 maxLength := by
  unfold FetchesFrom
  decide +kernel

/-- In both modes 15 bytes placed at pc after reset are the window. -/
theorem fetchWindow_placeAtPc_reset {m : Mode} (hm : m = .real ∨ m = .bits64) {bs : List Byte}
    (hlen : bs.length = maxLength) : (fetchWindow (placeAtPc (resetInMode m) bs)).1 = bs := by
  obtain ⟨base, hfrom⟩ : ∃ base, FetchesFrom (resetInMode m) base bs.length := by
    rw [hlen]
    rcases hm with rfl | rfl
    · exact ⟨_, resetInMode_real_fetchesFrom⟩
    · exact ⟨_, resetInMode_bits64_fetchesFrom⟩
  exact fetchWindow_eq hlen fun k hk => fetchByte_placeAtPc (s := resetInMode m) reset_mem_wf hfrom rfl hk

theorem length_tableWindow (nbits w : Nat) : (tableWindow nbits w).length = maxLength := by
  simp [tableWindow]

/-- The mode of a table word is one of the two it is read in, and there it decodes to its instruction (log 34). -/
theorem decode_tableWindow {nbits w : Nat} {i : Instr} (h : decodeTableWord nbits w = some i) :
    (modeFor State.reset (tableWindow nbits w) = .real ∨ modeFor State.reset (tableWindow nbits w) = .bits64) ∧
      ∃ rest, decode (codeCtx (resetInMode (modeFor State.reset (tableWindow nbits w)))) (tableWindow nbits w) =
        .ok (i, rest) := by
  have hreset : codeCtx State.reset = ctxReal := rfl
  cases hreal : decode ctxReal (tableWindow nbits w) with
  | ok a =>
    have hmode : modeFor State.reset (tableWindow nbits w) = .real := by simp only [modeFor, hreset, hreal]; rfl
    obtain rfl : a.1 = i := by simpa [decodeTableWord, hreal] using h
    rw [hmode]
    exact ⟨.inl rfl, a.2, hreal⟩
  | error e =>
    cases h64 : decode ctx64 (tableWindow nbits w) with
    | ok a =>
      have hmode : modeFor State.reset (tableWindow nbits w) = .bits64 := by simp only [modeFor, hreset, hreal, h64]
      obtain rfl : a.1 = i := by simpa [decodeTableWord, hreal, h64] using h
      rw [hmode]
      exact ⟨.inr rfl, a.2, h64⟩
    | error e => simp [decodeTableWord, hreal, h64] at h

end Sys2Proof.Machine

namespace Sys2Proof

open Sys2Proof.Machine

/-- Settles O54: the window begins with the encoding, which decodes to the instruction whatever follows. -/
theorem bytesAtPcRunTheirInstruction : Obligations.BytesAtPcRunTheirInstruction := by
  intro s i hwf hfetch
  have hlen := length_encode i
  obtain ⟨r, hr⟩ := fetchWindow_prefix (by rw [hlen]; exact i.length_le_of_wellFormed hwf) (hlen ▸ hfetch)
  exact step_of_decode (decode_eq_ok_iff_encode.mpr ⟨hwf, hr⟩)

/-- Settles O55: each decoding error has its answer, and the byte that the instruction needs decides a truncated one. -/
theorem stepAtOtherBytes : Obligations.StepAtOtherBytes := by
  refine ⟨fun s e hdec => ⟨?_, ?_, ?_⟩, fun s bytes hfetch hdec => ?_⟩
  · rintro (rfl | rfl) <;> exact step_of_decode_error hdec
  · rintro rfl
    exact step_of_decode_error hdec
  · rintro (rfl | ⟨n, rfl⟩) <;> exact step_of_decode_error hdec
  · simp only [← fetchInside_eq_false_iff]
    split
    next hout => exact step_of_fetch_stop hfetch hdec (fetchByte_of_outside hout)
    next hin =>
      have hin : fetchInside s bytes.length = true := by simpa using hin
      exact ⟨fun code hcode => step_of_fetch_stop hfetch hdec (fetchByte_of_fault hin hcode),
        fun p hp hio => step_of_fetch_stop hfetch hdec (fetchByte_of_io hin hp hio)⟩

/-- Settles O56: the word's bytes are the window, and the word is placed in the mode it decodes in. -/
theorem tableWordsRunAfterReset : Obligations.TableWordsRunAfterReset := by
  intro nbits w i hword
  obtain ⟨hmode, rest, hdec⟩ := decode_tableWindow hword
  have hwindow : (fetchWindow (State.reset.withFetchWord nbits w)).1 = tableWindow nbits w :=
    fetchWindow_placeAtPc_reset hmode (length_tableWindow nbits w)
  have hplaced : decode (codeCtx (State.reset.withFetchWord nbits w))
      (fetchWindow (State.reset.withFetchWord nbits w)).1 = .ok (i, rest) := by
    rw [hwindow]
    exact hdec
  exact ⟨⟨rest, hplaced⟩, step_of_decode hplaced⟩

end Sys2Proof

/-! Proofs about the masks and the three kinds of component: what a completed execution makes of each by RFBM and
XSTATE_BV (R83 to R97, R104). -/

namespace Sys2Proof.Machine

/-! ### The masks bit by bit -/

theorem masksOf_format (s : State) (f : Nat → Byte) : (masksOf s f).format = formatOf (xcompBvOf f) := rfl

theorem masksOf_restoreFeatures_bit (s : State) (f : Nat → Byte) (c : Nat) :
    (masksOf s f).restoreFeatures.getLsbD c = ((formatOf (xcompBvOf f)).getLsbD c && (rfbmOf s).getLsbD c) :=
  BitVec.getLsbD_and

theorem masksOf_forceInit_bit (s : State) (f : Nat → Byte) {c : Nat} (hc : c < 64) :
    (masksOf s f).forceInit.getLsbD c = ((rfbmOf s).getLsbD c && !(formatOf (xcompBvOf f)).getLsbD c) := by
  simp [masksOf, hc]

/-- R86 (a): what is loaded is not initialized. -/
theorem toBeInitialized_of_toBeRestored {s : State} {f : Nat → Byte} {c : Nat} (hc : c < 64)
    (h : (masksOf s f).toBeRestored.getLsbD c = true) : (masksOf s f).toBeInitialized.getLsbD c = false := by
  rw [masksOf_toBeRestored_bit, Bool.and_eq_true] at h
  rw [masksOf_toBeInitialized_bit s f hc, h.2, Bool.not_true, Bool.and_false]

/-- R85: only a component with a slot is loaded. -/
theorem format_of_toBeRestored {s : State} {f : Nat → Byte} {c : Nat}
    (h : (masksOf s f).toBeRestored.getLsbD c = true) : (masksOf s f).format.getLsbD c = true := by
  rw [masksOf_toBeRestored_bit, Bool.and_eq_true, Bool.and_eq_true] at h
  exact h.2.1

/-- R86 (b): a component is requested exactly where it is loaded or initialized. -/
theorem toBeRestored_or_toBeInitialized_bit (s : State) (f : Nat → Byte) {c : Nat} (hc : c < 64) :
    ((masksOf s f).toBeRestored ||| (masksOf s f).toBeInitialized).getLsbD c = (rfbmOf s).getLsbD c := by
  rw [BitVec.getLsbD_or, masksOf_toBeRestored_bit, masksOf_toBeInitialized_bit s f hc, ← Bool.and_or_distrib_left,
    Bool.or_not_self, Bool.and_true]

section HeaderLegal
variable {s : State} {f : Nat → Byte} (h : HeaderLegal s f)
include h

/-- R86 (c), R130 (H3): past the header checks a saved component has its slot, so XSTATE_BV alone decides. -/
theorem hasSlot_and_saved {c : Nat} (hc : c < 63) :
    ((formatOf (xcompBvOf f)).getLsbD c && (xstateBvOf f).getLsbD c) = (xstateBvOf f).getLsbD c := by
  cases hsaved : (xstateBvOf f).getLsbD c with
  | false => rw [Bool.and_false]
  | true => rw [formatOf_bit_of_saved h hc hsaved, Bool.and_true]

theorem toBeRestored_of_headerLegal {c : Nat} (hc : c < 63) :
    (masksOf s f).toBeRestored.getLsbD c = ((rfbmOf s).getLsbD c && (xstateBvOf f).getLsbD c) := by
  rw [masksOf_toBeRestored_bit, hasSlot_and_saved h hc]

theorem toBeInitialized_of_headerLegal {c : Nat} (hc : c < 63) :
    (masksOf s f).toBeInitialized.getLsbD c = ((rfbmOf s).getLsbD c && !(xstateBvOf f).getLsbD c) := by
  rw [masksOf_toBeInitialized_bit s f (by omega), hasSlot_and_saved h hc]

end HeaderLegal

/-! ### Each component by what is done to it -/

theorem component0_of_loaded {m : Masks} (h : m.toBeRestored.getLsbD 0 = true) (w : Bool) (f : Nat → Byte)
    (s : State) : component0 w m f s = loadX87 w s.free f := if_pos h

/-- Where component 0 is not loaded, W changes nothing (R105). -/
theorem component0_of_not_loaded {m : Masks} (h : m.toBeRestored.getLsbD 0 = false) (w : Bool) (f : Nat → Byte)
    (s : State) : component0 w m f s = if m.toBeInitialized.getLsbD 0 then initX87 else s.x87 :=
  if_neg (ne_true_of_eq_false h)

section ExtComponent
variable {m : Masks} {c : Nat} (f : Nat → Byte) (s : State) (old : List Byte)

theorem extComponent_of_loaded (hslot : m.format.getLsbD c = true) (h : m.toBeRestored.getLsbD c = true)
    (hinit : m.toBeInitialized.getLsbD c = false) :
    extComponent m f s c old = extUpdate s c old (slotBytes s.cfg m.format f c) := by
  simp [extComponent, hslot, h, hinit]

theorem extComponent_of_initialized (h : m.toBeRestored.getLsbD c = false)
    (hinit : m.toBeInitialized.getLsbD c = true) :
    extComponent m f s c old = extUpdate s c old (compInit s.cfg c) := by
  simp [extComponent, h, hinit]

theorem extComponent_of_untouched (h : m.toBeRestored.getLsbD c = false)
    (hinit : m.toBeInitialized.getLsbD c = false) : extComponent m f s c old = old := by
  simp [extComponent, h, hinit]

end ExtComponent

/-! ### Each component of a completed execution by RFBM and XSTATE_BV -/

theorem commit_eq_commitWith (w : Bool) (s : State) (i : Instr) :
    commit w (instrOperand s i) s =
      commitWith w (instrOperand s i) (masksOf s (instrArea s i)) (instrArea s i) s := rfl

/-- The new image of a selected component c of 2..62: its slot where it is saved, else INIT(c) (R89, R97). -/
def newImage (s : State) (f : Nat → Byte) (c : Nat) : List Byte :=
  if (xstateBvOf f).getLsbD c then slotBytes s.cfg (formatOf (xcompBvOf f)) f c else compInit s.cfg c

theorem newImage_of_saved {f : Nat → Byte} {c : Nat} (h : (xstateBvOf f).getLsbD c = true) (s : State) :
    newImage s f c = slotBytes s.cfg (formatOf (xcompBvOf f)) f c := if_pos h

theorem newImage_of_not_saved {f : Nat → Byte} {c : Nat} (h : (xstateBvOf f).getLsbD c = false) (s : State) :
    newImage s f c = compInit s.cfg c := if_neg (ne_true_of_eq_false h)

/-- Loaded where selected and saved, initialized where selected and not saved, else untouched. -/
theorem ite_selected_saved {α : Type} (sel saved : Bool) (loaded initial untouched : α) :
    (if sel && saved then loaded else if sel && !saved then initial else untouched) =
      if sel then if saved then loaded else initial else untouched := by
  cases sel <;> cases saved <;> rfl

section Selection
variable {s : State} {f : Nat → Byte} (h : HeaderLegal s f)
include h

/-- R87, R90: component 0 past the header checks. -/
theorem component0_of_headerLegal (w : Bool) :
    component0 w (masksOf s f) f s =
      if (rfbmOf s).getLsbD 0 then
        if (xstateBvOf f).getLsbD 0 then loadX87 w s.free f else initX87
      else s.x87 := by
  rw [component0, toBeRestored_of_headerLegal h (c := 0) (by omega),
    toBeInitialized_of_headerLegal h (c := 0) (by omega), ite_selected_saved]

/-- R88, R90: component 1 past the header checks. -/
theorem component1_of_headerLegal :
    component1 (masksOf s f) f s =
      if (rfbmOf s).getLsbD 1 then
        if (xstateBvOf f).getLsbD 1 then loadSse s f else initSse s
      else s.sse := by
  rw [component1, toBeRestored_of_headerLegal h (c := 1) (by omega),
    toBeInitialized_of_headerLegal h (c := 1) (by omega), ite_selected_saved]

/-- R89, R90: component c of 2..62 past the header checks. -/
theorem extComponent_of_headerLegal {c : Nat} (hc : c < 63) (old : List Byte) :
    extComponent (masksOf s f) f s c old =
      if (rfbmOf s).getLsbD c then extUpdate s c old (newImage s f c) else old := by
  have hload := toBeRestored_of_headerLegal h hc
  have hinit := toBeInitialized_of_headerLegal h hc
  cases hsel : (rfbmOf s).getLsbD c with
  | false =>
    rw [hsel, Bool.false_and] at hload hinit
    rw [extComponent_of_untouched f s old hload hinit, if_neg Bool.false_ne_true]
  | true =>
    rw [hsel, Bool.true_and] at hload hinit
    rw [if_pos rfl]
    cases hsaved : (xstateBvOf f).getLsbD c with
    | false =>
      rw [hsaved] at hload hinit
      rw [newImage_of_not_saved hsaved]
      exact extComponent_of_initialized f s old hload hinit
    | true =>
      rw [hsaved] at hload hinit
      rw [newImage_of_saved hsaved]
      exact extComponent_of_loaded f s old (formatOf_bit_of_saved h hc hsaved) hload hinit

end Selection

section Completed
variable {i : Instr} {s : State} (h : CanComplete s i)
include h

/-- R87, R90: SC[0] after a completed execution. -/
theorem commit_x87 :
    (commit i.w (instrOperand s i) s).x87 =
      if (rfbmOf s).getLsbD 0 then
        if (xstateBvOf (instrArea s i)).getLsbD 0 then loadX87 i.w s.free (instrArea s i) else initX87
      else s.x87 :=
  component0_of_headerLegal (f := instrArea s i) h.2.header i.w

/-- R88, R90: SC[1] after a completed execution. -/
theorem commit_sse :
    (commit i.w (instrOperand s i) s).sse =
      if (rfbmOf s).getLsbD 1 then
        if (xstateBvOf (instrArea s i)).getLsbD 1 then loadSse s (instrArea s i) else initSse s
      else s.sse :=
  component1_of_headerLegal (f := instrArea s i) h.2.header

/-- R89, R90: SC[c], for c in 2..62, after a completed execution. -/
theorem scOf_commit {c : Nat} (h2 : 2 ≤ c) (hc : c < 63) :
    scOf (commit i.w (instrOperand s i) s) c =
      if (rfbmOf s).getLsbD c then extUpdate s c (scOf s c) (newImage s (instrArea s i) c) else scOf s c := by
  rw [commit_eq_commitWith, scOf_commitWith _ _ _ _ _ h2 hc]
  exact extComponent_of_headerLegal (f := instrArea s i) h.2.header hc _

end Completed

end Sys2Proof.Machine

namespace Sys2Proof

open Sys2Proof.Machine

/-- Settles O11: the bits of the masks, of which a legal header leaves XSTATE_BV to decide. -/
theorem maskFacts : Obligations.MaskFacts := by
  intro s f
  refine ⟨BitVec.eq_of_getLsbD_eq fun c hc => ?_,
    fun c hc => toBeRestored_or_toBeInitialized_bit s f (by omega), ?_, ?_, fun h c hc => ⟨?_, ?_⟩⟩
  · rw [BitVec.getLsbD_and]
    cases hload : (masksOf s f).toBeRestored.getLsbD c with
    | false => simp
    | true => simp [toBeInitialized_of_toBeRestored hc hload]
  · rw [masksOf_toBeRestored_bit, formatOf_bit _ (by omega)]
    simp
  · rw [masksOf_toBeInitialized_bit s f (by omega), formatOf_bit _ (by omega)]
    simp
  · exact toBeInitialized_of_headerLegal h hc
  · exact toBeRestored_of_headerLegal h hc

/-- Settles O10: each mask by its bits. -/
theorem masksBitByBit : Obligations.MasksBitByBit := by
  intro s f
  refine ⟨rfl, rfl, fun c hc => ⟨formatOf_bit _ hc, masksOf_restoreFeatures_bit s f c, ?_,
    masksOf_forceInit_bit s f hc, ?_⟩⟩
  · rw [masksOf_toBeRestored_bit, Bool.and_assoc]
    rfl
  · rw [masksOf_toBeInitialized_bit s f hc, Bool.not_and, Bool.or_comm]
    rfl

end Sys2Proof

/-! Proofs about what each component holds after a completed execution, byte by byte (R87 to R97, R104). -/

namespace Sys2Proof.Machine

/-! ### Component 0 -/

/-- A field cut short keeps its low bits (R45). -/
theorem leField_setWidth {v w : Nat} (hv : v ≤ w) (f : Nat → Byte) (o n : Nat) :
    (leField w f o n).setWidth v = leField v f o n := by
  apply BitVec.eq_of_toNat_eq
  simp only [leField, BitVec.toNat_setWidth, BitVec.toNat_ofNat]
  exact Nat.mod_mod_of_dvd _ (Nat.pow_dvd_pow 2 hv)

/-- FCW, FSW and FOP as the legacy region holds them, whatever W is (R44, R94). -/
theorem loadX87_fcw_fsw_fop (w : Bool) (free : Nat) (f : Nat → Byte) :
    (loadX87 w free f).fcw = f 1 ++ f 0 ∧ (loadX87 w free f).fsw = f 3 ++ f 2 ∧
      (loadX87 w free f).fop = (f 7 ++ f 6).setWidth 11 :=
  ⟨leField_16 f 0, leField_16 f 2,
    (leField_setWidth (w := 16) (by omega) f 6 2).symm.trans (congrArg _ (leField_16 f 6))⟩

/-- Register p is loaded from the slot that is (p - TOP) mod 8 places down the stack, so ST(j) from slot j (R94). -/
theorem fprImage_of_st (f : Nat → Byte) {j : Nat} (hj : j < 8) :
    fprImage f (((topOf (leField 16 f 2 2)).toNat + j) % 8) = stImage f j := by
  have htop := (topOf (leField 16 f 2 2)).isLt
  rw [fprImage]
  congr 1
  omega

theorem stOf_of_loadX87 {t : State} {w : Bool} {free : Nat} {f : Nat → Byte} (h : t.x87 = loadX87 w free f)
    {j : Nat} (hj : j < 8) : stOf t j = stImage f j := by
  rw [← fprImage_of_st f hj]
  simp only [stOf, h, loadX87, vector8_getElem]

theorem fprOf_of_loadX87 {t : State} {w : Bool} {free : Nat} {f : Nat → Byte} (h : t.x87 = loadX87 w free f)
    (p : Fin 8) : fprOf t p = fprImage f p := by
  simp only [fprOf, h, loadX87, Fin.getElem_fin, vector8_getElem]

theorem ftw_of_loadX87 (w : Bool) (free : Nat) (f : Nat → Byte) {p : Nat} (hp : p < 8) :
    (loadX87 w free f).ftw.extractLsb' (2 * p) 2 = if (f 4).getLsbD p then classTag (fprImage f p) else 3 :=
  tagWord_pair _ hp

/-- No register that holds something is tagged empty (log 12). -/
theorem classTag_ne_empty (v : BitVec 80) : classTag v ≠ 3 := by
  unfold classTag
  simp only
  split_ifs <;> decide

/-- Exponent and significand are the 79 bits below the sign. -/
theorem magnitude_eq_zero_iff (v : BitVec 80) :
    v.extractLsb' 0 79 = 0 ↔ v.extractLsb' 64 15 = 0 ∧ v.extractLsb' 0 64 = 0 := by
  simp only [← BitVec.toNat_inj, BitVec.extractLsb'_toNat, BitVec.ofNat_eq_ofNat, BitVec.toNat_ofNat,
    Nat.shiftRight_eq_div_pow, pow_zero, Nat.div_one, Nat.zero_mod]
  omega

/-- The class of a register's content by its magnitude, its exponent and its integer bit (log 12). -/
theorem classTag_eq (v : BitVec 80) :
    classTag v =
      if v.extractLsb' 0 79 = 0 then 1
      else if v.extractLsb' 64 15 = 0 ∨ v.extractLsb' 64 15 = 0x7FFF ∨ v.getLsbD 63 = false then 2
      else 0 := by
  have hint : (v.extractLsb' 0 64).getLsbD 63 = v.getLsbD 63 := by simp
  simp only [classTag, magnitude_eq_zero_iff, hint]

/-- The registers of the initial x87 state are 0 (R96). -/
theorem stOf_of_initX87 {t : State} (h : t.x87 = initX87) (j : Nat) : stOf t j = 0 := by
  simp only [stOf, h, initX87, vector8_getElem]

/-! ### Component 1 -/

/-- XMMj takes the new value where it is reached, and else keeps its own (R104). -/
theorem xmmOf_of_xmmUpdate {s t : State} {new : Nat → BitVec 128} (h : t.sse.xmm = xmmUpdate s new) (j : Fin 16) :
    xmmOf t j = if xmmReached s j then new j else xmmOf s j := by
  simp [xmmOf, h, xmmUpdate]

/-- R104: the reached registers are all in 64-bit mode and XMM0..XMM7 outside it. -/
theorem xmmReached_eq_true {s : State} {j : Nat} : xmmReached s j = true ↔ s.mode = .bits64 ∨ j < 8 := by
  simp [xmmReached]

theorem xmmReached_eq_false {s : State} {j : Nat} (hmode : s.mode ≠ .bits64) (hj : 8 ≤ j) :
    xmmReached s j = false := by
  simpa [xmmReached, hmode] using hj

/-! ### Components 2..62 -/

theorem slotBytes_getD {c : Cfg} {i k : Nat} (hk : k < compSize c i) (format : Word) (f : Nat → Byte) :
    (slotBytes c format f i).getD k 0 = f (offsetOf c format i + k) := by
  simp [slotBytes, hk]

/-- R25: the new image has the component's n(c) bytes. -/
theorem length_newImage {s : State} (hcfg : CfgWf s.cfg) (f : Nat → Byte) (c : Nat) :
    (newImage s f c).length = compSize s.cfg c := by
  unfold newImage
  split
  · exact length_slotBytes _ _ _ _
  · exact length_compInit hcfg c

theorem newImage_getD (s : State) (f : Nat → Byte) {c k : Nat} (hk : k < compSize s.cfg c) :
    (newImage s f c).getD k 0 =
      if (xstateBvOf f).getLsbD c then f (offsetOf s.cfg (formatOf (xcompBvOf f)) c + k)
      else (compInit s.cfg c).getD k 0 := by
  unfold newImage
  split
  · exact slotBytes_getD hk _ _
  · rfl

/-- R104: in 64-bit mode the whole image is new. -/
theorem extUpdate_of_bits64 {s : State} (h : s.mode = .bits64) (i : Nat) (old new : List Byte) :
    extUpdate s i old new = new := if_pos h

/-- R104: outside 64-bit mode the bytes of registers 8 and above stay. -/
theorem extUpdate_getD_of_ne_bits64 {s : State} (h : s.mode ≠ .bits64) (i : Nat) (old : List Byte)
    {new : List Byte} {k : Nat} (hk : k < new.length) :
    (extUpdate s i old new).getD k 0 = if isUpperByte s.cfg i k then old.getD k 0 else new.getD k 0 := by
  simp [extUpdate, h, hk]

end Sys2Proof.Machine

namespace Sys2Proof

open Sys2Proof.Machine

/-- Settles O22: the fields of a load with W = 0. -/
theorem x87LoadByXrstors : Obligations.X87LoadByXrstors := by
  intro ps rex m s h f hsel hsaved
  refine ⟨_, exec_of_canComplete h, ?_⟩
  rw [commit_x87 h, if_pos hsel, if_pos hsaved]
  obtain ⟨hfcw, hfsw, hfop⟩ := loadX87_fcw_fsw_fop false s.free f
  exact ⟨hfcw, hfsw, hfop, leField_64_4 f 8, leField_16 f 12, leField_64_4 f 16, leField_16 f 20⟩

/-- Settles O23: the fields of a load with W = 1. -/
theorem x87LoadByXrstors64 : Obligations.X87LoadByXrstors64 := by
  intro ps rex m s h f hsel hsaved
  refine ⟨_, exec_of_canComplete h, ?_⟩
  rw [commit_x87 h, if_pos hsel, if_pos hsaved]
  obtain ⟨hfcw, hfsw, hfop⟩ := loadX87_fcw_fsw_fop true s.free f
  exact ⟨hfcw, hfsw, hfop, leField_64 f 8, leField_64 f 16⟩

/-- Settles O24: each register of the loaded stack is its slot's image, and its tag is that image's class. -/
theorem x87StackAndTagsAfterLoad : Obligations.X87StackAndTagsAfterLoad := by
  intro i s h f hsel hsaved
  have hx87 : (commit i.w (instrOperand s i) s).x87 = loadX87 i.w s.free f := by
    rw [commit_x87 h, if_pos hsel, if_pos hsaved]
  refine ⟨_, exec_of_canComplete h, fun j hj b hb => ?_, fun j => ?_, fun p hp => ?_, fun p hp => ?_⟩
  · rw [stOf_of_loadX87 hx87 hj]
    exact leField_byte f _ hb (by omega)
  · exact BitVec.setWidth_eq_extractLsb' (by omega)
  · rw [hx87, ftw_of_loadX87 _ _ _ hp]
    cases hbit : (f 4).getLsbD p with
    | false => simp
    | true => simpa using classTag_ne_empty _
  · rw [hx87, ftw_of_loadX87 _ _ _ p.isLt, if_pos hp, fprOf_of_loadX87 hx87]
    exact classTag_eq _

/-- Settles O25: the fields of the initial x87 state. -/
theorem x87InitialState : Obligations.X87InitialState := by
  intro i s h hsel hsaved
  have hx87 : (commit i.w (instrOperand s i) s).x87 = initX87 := by
    rw [commit_x87 h, if_pos hsel, if_neg (ne_true_of_eq_false hsaved)]
  refine ⟨_, exec_of_canComplete h, ?_⟩
  rw [hx87]
  exact ⟨rfl, rfl, rfl, rfl, rfl, rfl, rfl, rfl, fun j _ => stOf_of_initX87 hx87 j⟩

/-- Settles O26: a reached register takes its image, and the others stay. -/
theorem sseLoad : Obligations.SseLoad := by
  intro i s h f hsel hsaved
  have hsse : (commit i.w (instrOperand s i) s).sse = loadSse s f := by
    rw [commit_sse h, if_pos hsel, if_pos hsaved]
  have hxmm (j : Fin 16) := xmmOf_of_xmmUpdate (congrArg Sse.xmm hsse) j
  refine ⟨_, exec_of_canComplete h, ?_, fun j hreach b hb => ?_, fun j hmode hj => ?_⟩
  · rw [hsse]
    exact leField_32 f 24
  · rw [hxmm, if_pos (xmmReached_eq_true.mpr hreach)]
    exact leField_byte f _ hb (by omega)
  · rw [hxmm, if_neg (ne_true_of_eq_false (xmmReached_eq_false hmode hj))]

/-- Settles O27: a reached register becomes 0, and the others stay. -/
theorem sseInitialState : Obligations.SseInitialState := by
  intro i s h hsel hsaved
  have hsse : (commit i.w (instrOperand s i) s).sse = initSse s := by
    rw [commit_sse h, if_pos hsel, if_neg (ne_true_of_eq_false hsaved)]
  have hxmm (j : Fin 16) := xmmOf_of_xmmUpdate (s := s) (new := fun _ => 0) (congrArg Sse.xmm hsse) j
  refine ⟨_, exec_of_canComplete h, ?_, fun j hreach => ?_, fun j hmode hj => ?_⟩
  · rw [hsse]
    rfl
  · rw [hxmm, if_pos (xmmReached_eq_true.mpr hreach)]
  · rw [hxmm, if_neg (ne_true_of_eq_false (xmmReached_eq_false hmode hj))]

/-- Settles O28: in 64-bit mode the new image is the component. -/
theorem extendedComponentsIn64BitMode : Obligations.ExtendedComponentsIn64BitMode := by
  intro i s h hmode f
  refine ⟨_, exec_of_canComplete h, fun c h2 hc hsel => ?_⟩
  rw [scOf_commit h h2 hc, if_pos hsel, extUpdate_of_bits64 hmode]
  refine ⟨fun hsaved => ?_, fun hsaved => newImage_of_not_saved hsaved s⟩
  rw [newImage_of_saved hsaved]
  exact ⟨length_slotBytes _ _ _ _, fun k hk => slotBytes_getD hk _ _⟩

/-- Settles O29: outside 64-bit mode the new image is merged with the bytes that R104 leaves alone. -/
theorem extendedComponentsOutside64BitMode : Obligations.ExtendedComponentsOutside64BitMode := by
  intro i s h hmode hcfg f
  refine ⟨_, exec_of_canComplete h, fun c h2 hc hsel => ?_⟩
  have hlen : (newImage s f c).length = compSize s.cfg c := length_newImage hcfg f c
  rw [scOf_commit h h2 hc, if_pos hsel]
  refine ⟨(length_extUpdate _ _ _ _).trans hlen, fun k hk => ⟨fun hupper => ?_, fun hupper => ?_⟩⟩
  · rw [extUpdate_getD_of_ne_bits64 hmode c _ (hlen.symm ▸ hk), if_pos hupper]
  · rw [extUpdate_getD_of_ne_bits64 hmode c _ (hlen.symm ▸ hk), if_neg (ne_true_of_eq_false hupper)]
    exact newImage_getD s f hk

end Sys2Proof

/-! Proofs about how an execution ends: the launches that are refused, the faults of ranks 11 and 12, and what every
completed execution does to pc, XRSTOR_INFO, XMODIFIED_BV and the unselected components (R82, R90 to R93, R99, R100). -/

namespace Sys2Proof.Machine

/-! ### Refused launches -/

/-- A refusal is reported where its condition holds; else the checks behind it decide (log 2). -/
theorem Check.first_cons_refuseIf (c : Bool) (r : Refusal) (t : List Check) :
    Check.first (.refuseIf c r :: t) = if c = true then .refuse r else Check.first t := by
  cases c <;> rfl

/-- The launch checks, the first whose condition holds (R82 step 0, R140, D25, D7). -/
theorem first_launchChecks (s : State) (op : Operand) :
    Check.first (launchChecks s op) =
      if s.inVmxNonRoot = true then .refuse .vmxNonRoot
      else if (s.debugArmed || eflagsTf s) = true then .refuse .debugArmed
      else if (!xcrPremise s) = true then .refuse .xcrPremise
      else if oddSegmentBase s op = true then .refuse .segmentBase
      else .pass := by
  simp only [launchChecks, Check.first_cons_refuseIf, Check.first_nil]

/-- D25: how the premise on XCR0 and IA32_XSS can be broken (log 25). -/
theorem xcrPremise_broken_iff (s : State) :
    (!xcrPremise s) = true ↔
      s.xcr0 &&& s.ia32Xss ≠ 0 ∨ s.xcr0 &&& ~~~s.cfg.supportedUser ≠ 0 ∨
        s.ia32Xss &&& ~~~s.cfg.supportedSuper ≠ 0 ∨ s.xcr0.getLsbD 63 = true ∨ s.ia32Xss.getLsbD 63 = true ∨
        s.xcr0.getLsbD 0 = false := by
  simp only [xcrPremise, Bool.not_eq_true', Bool.and_eq_false_iff, beq_eq_false_iff_ne, Bool.not_eq_false', or_assoc]

theorem oddSegmentBase_eq_true (s : State) (op : Operand) :
    oddSegmentBase s op = true ↔ (segBase s op.seg).toNat % 64 ≠ 0 := by
  rw [← not_iff_not, Bool.not_eq_true, oddSegmentBase_eq_false, not_not]

/-- A refused launch is refused ahead of every fault. -/
theorem exec_of_first_launchChecks_eq_refuse {i : Instr} {s : State} {r : Refusal}
    (hwf : i.wellFormed (codeCtx s) = true) (h : Check.first (launchChecks s (instrOperand s i)) = .refuse r) :
    exec i s = .refused r := by
  rw [exec_of_wellFormed hwf]
  refine xrstorsExec_eq_refused.mpr (.inl ?_)
  rw [Check.first_append, h, if_neg (by simp)]

/-! ### Faults -/

/-- What a faulting instruction leaves: the state as it was, or with items of the commit in it (R132). -/
theorem left_of_exec_eq_fault {i : Instr} {s left : State} {r : ExcRecord}
    (h : exec i s = .fault (.exception r left)) :
    left = s ∨ left = faultLeft s (commit i.w (instrOperand s i) s) := by
  cases hwf : i.wellFormed (codeCtx s) with
  | false =>
    rw [exec_of_not_wellFormed hwf] at h
    cases h
  | true =>
    rw [exec_of_wellFormed hwf] at h
    obtain ⟨e, -, ⟨-, hleft⟩ | ⟨-, -, hleft⟩⟩ := xrstorsExec_eq_fault.mp h
    · exact .inl hleft
    · exact .inr hleft

/-- R103, rank 12: the content of some loaded component 2..62 is rejected. -/
theorem loadFaults_eq_true {s : State} {m : Masks} {f : Nat → Byte} :
    loadFaults s m f = true ↔ s.cfg.loadFault = .part ∧
      ∃ i, 2 ≤ i ∧ i < 63 ∧ m.toBeRestored.getLsbD i = true ∧
        Config.loadFault i (slotBytes s.cfg m.format f i) s = true := by
  rw [← not_iff_not, Bool.not_eq_true, loadFaults_eq_false]
  cases s.cfg.loadFault <;> simp

/-- R93, rank 11: the image of MXCSR is loaded and has a reserved bit. -/
theorem mxcsrIllegal_eq_true {s : State} {m : Masks} {f : Nat → Byte} :
    mxcsrIllegal s m f = true ↔
      m.toBeRestored.getLsbD 1 = true ∧ mxcsrImage f &&& ~~~s.cfg.mxcsrMask ≠ 0 := by
  simp only [mxcsrIllegal, Bool.and_eq_true, bne_iff_ne]

/-- Two conditions in a row that raise the same exception raise it where either holds. -/
theorem Check.first_faultIf_faultIf (c c' : Bool) (e : Exc) :
    Check.first [.faultIf c e, .faultIf c' e] = if c || c' then .fault e else .pass := by
  cases c <;> cases c' <;> rfl

/-- Ranks 11 and 12: an image of the area `f` is rejected, MXCSR's or a loaded component's (R93, R103). -/
def imageRejected (s : State) (f : Nat → Byte) : Bool :=
  mxcsrIllegal s (masksOf s f) f || loadFaults s (masksOf s f) f

/-- Past the header checks, what ranks 11 and 12 look at is what RFBM selects and XSTATE_BV says is saved. -/
theorem imageRejected_eq_true {s : State} {f : Nat → Byte} (h : HeaderLegal s f) :
    imageRejected s f = true ↔
      ((rfbmOf s).getLsbD 1 = true ∧ (xstateBvOf f).getLsbD 1 = true ∧
        (f 27 ++ f 26 ++ f 25 ++ f 24) &&& ~~~s.cfg.mxcsrMask ≠ 0) ∨
      (s.cfg.loadFault = .part ∧ ∃ c, 2 ≤ c ∧ c < 63 ∧ (rfbmOf s).getLsbD c = true ∧
        (xstateBvOf f).getLsbD c = true ∧
        Config.loadFault c (slotBytes s.cfg (formatOf (xcompBvOf f)) f c) s = true) := by
  have hmxcsr : mxcsrImage f = f 27 ++ f 26 ++ f 25 ++ f 24 := leField_32 f 24
  rw [imageRejected, Bool.or_eq_true, mxcsrIllegal_eq_true, loadFaults_eq_true,
    toBeRestored_of_headerLegal h (by omega), hmxcsr, Bool.and_eq_true, and_assoc]
  refine or_congr_right (and_congr_right fun _ => exists_congr fun c => and_congr_right fun _ =>
    and_congr_right fun hc => ?_)
  rw [toBeRestored_of_headerLegal h hc, Bool.and_eq_true, and_assoc, masksOf_format]

/-- With the area in range, readable and its header legal, ranks 11 and 12 decide. -/
theorem first_lateChecks_of_readable {s : State} {i : Instr}
    (hread : ∀ k < operandAreaSize s (instrOperand s i), ByteReadable s (instrOperand s i) k)
    (hlegal : HeaderLegal s (instrArea s i))
    (hrange : ∀ k < operandAreaSize s (instrOperand s i), OffsetInRange s (instrOperand s i) k) :
    Check.first (lateChecks s (instrOperand s i)) =
      if imageRejected s (instrArea s i) then .fault (excGp s) else .pass := by
  have hsize : 576 ≤ operandAreaSize s (instrOperand s i) := le_areaSize _ _
  have hpass : readCheck s (instrOperand s i).laxa 0 (operandAreaSize s (instrOperand s i)) = .pass :=
    readCheck_eq_pass.mpr fun k hk => by rw [Nat.zero_add]; exact hread k hk
  rw [first_lateChecks_of_headerLegal (fun k _ hk => hread k (by omega)) hlegal hrange,
    Check.first_cons_pass hpass]
  exact Check.first_faultIf_faultIf _ _ _

/-! ### What every completed execution writes -/

/-- R100: pc after the commit is pc + L at the instruction pointer's width (log 27). -/
theorem pcOf_commitWith (w : Bool) (op : Operand) (m : Masks) (f : Nat → Byte) (s : State) :
    pcOf (commitWith w op m f s) = nextPc s op.length := by
  rw [pcOf, commitWith_ipWidth, commitWith_rip, nextPc, lowBits_lowBits _ (ipWidth_le s)]

/-- R92: XRSTOR_INFO after a completed execution, which runs at CPL 0 and outside VMX non-root operation. -/
theorem commit_xrstorInfo {i : Instr} {s : State} (h : CanComplete s i) :
    (commit i.w (instrOperand s i) s).xrstorInfo =
      ⟨0, false, (instrOperand s i).laxa, xcompBvOf (instrArea s i)⟩ := by
  rw [commit_eq_commitWith, commitWith_xrstorInfo, xrstorInfoOf, h.2.privileged, h.2.launched.notVmx]
  rfl

/-- R3, R61: an XRSTORS64 with an encoding runs in 64-bit mode. -/
theorem mode_of_wellFormed_xrstors64 {ps : List Prefix} {r : Rex} {m : Mem} {s : State}
    (h : (Instr.xrstors64 ps r m).wellFormed (codeCtx s) = true) : s.mode = .bits64 := by
  simp only [Instr.wellFormed, formExists, Bool.and_eq_true] at h
  obtain ⟨⟨⟨⟨⟨hmode, -⟩, -⟩, -⟩, -⟩, -⟩ := h
  exact eq_of_beq hmode

end Sys2Proof.Machine

namespace Sys2Proof

open Sys2Proof.Machine

/-- Settles O14: it answers the commit, which moves pc by the encoding's length. -/
theorem xrstorsCompletesWhenReady : Obligations.XrstorsCompletesWhenReady := by
  intro ps rex m s h
  refine ⟨_, exec_of_canComplete h, ?_, commit_xrstorInfo h⟩
  rw [length_encode]
  exact pcOf_commitWith _ _ _ _ s

/-- Settles O15: the same in 64-bit mode, where RIP is pc. -/
theorem xrstors64CompletesWhenReady : Obligations.Xrstors64CompletesWhenReady := by
  intro ps rex m s h
  have hmode := mode_of_wellFormed_xrstors64 h.1
  refine ⟨hmode, _, exec_of_canComplete h, ?_, commit_xrstorInfo h⟩
  rw [length_encode]
  exact nextPc_of_bits64 hmode _

/-- Settles O17: the commit writes NOT RFBM. -/
theorem xmodifiedBecomesNotRfbm : Obligations.XmodifiedBecomesNotRfbm :=
  fun _ _ h => ⟨_, exec_of_canComplete h, rfl⟩

/-- Settles O18: each component and each bit of XINUSE by RFBM. -/
theorem unselectedComponentsAreNotUpdated : Obligations.UnselectedComponentsAreNotUpdated := by
  intro i s h
  refine ⟨_, exec_of_canComplete h, fun hsel => ?_, fun hsel => ?_, fun c h2 hc hsel => ?_, fun c hc hsel => ?_⟩
  · rw [commit_x87 h, if_neg (ne_true_of_eq_false hsel)]
  · rw [commit_sse h, if_neg (ne_true_of_eq_false hsel)]
  · rw [scOf_commit h h2 hc, if_neg (ne_true_of_eq_false hsel)]
  · rw [commit_xinuse, xinuseAfter_instrMasks_bit s i _ (by omega), hsel, Bool.false_and,
      if_neg Bool.false_ne_true]

/-- Settles O21: neither the commit nor a fault writes RFLAGS. -/
theorem noFlagChanges : Obligations.NoFlagChanges := by
  refine fun i s => ⟨fun h => ⟨_, exec_of_canComplete h, fun _ _ => rfl⟩, fun r left h b _ => ?_⟩
  rcases left_of_exec_eq_fault h with rfl | rfl
  · rfl
  · rw [faultLeft_rflags]

/-- Settles O52: the launch checks in their order, ahead of all others. -/
theorem refusedLaunches : Obligations.RefusedLaunches := by
  refine fun i s => ⟨exec_of_not_wellFormed, fun hwf => ?_⟩
  have hrefuse (r : Refusal) := exec_of_first_launchChecks_eq_refuse (r := r) hwf
  rw [first_launchChecks] at hrefuse
  simp only [xcrPremise_broken_iff, oddSegmentBase_eq_true, Bool.or_eq_true, eflagsTf] at hrefuse
  split_ifs at hrefuse ⊢ with hvmx hdebug hpremise hodd
  · exact hrefuse _ rfl
  · exact hrefuse _ rfl
  · exact hrefuse _ rfl
  · exact fun _ => hrefuse _ rfl
  · exact fun h => absurd h hodd

/-- Settles O48: with all before them in order, ranks 11 and 12 are left, and both raise #GP. -/
theorem mxcsrAndContentFaults : Obligations.MxcsrAndContentFaults := by
  intro i s hwf hlaunch henabled hcpl halign hrange hread hlegal hprecise f stops
  have hsize : 576 ≤ operandAreaSize s (instrOperand s i) := le_areaSize _ _
  have hearly := first_early_eq_pass.mpr ⟨hlaunch, henabled, hcpl, fun k hk => hrange k (by omega), halign⟩
  have hlate := first_lateChecks_of_readable hread hlegal hrange
  have hstops : stops ↔ imageRejected s f = true := (imageRejected_eq_true hlegal).symm
  rw [hstops]
  refine ⟨fun hrej => ?_, fun hrej => ⟨_, exec_eq_next.mpr ⟨hwf, hearly, hlate.trans (if_neg hrej), rfl⟩⟩⟩
  rw [exec_of_wellFormed hwf, ← raise_excGp]
  refine xrstorsExec_eq_fault.mpr ⟨excGp s, rfl, .inr ⟨hearly, hlate.trans (if_pos hrej), ?_⟩⟩
  rw [faultLeft_precise _ _ hprecise]

end Sys2Proof

/-! Proofs about the two forms of the instruction, which differ in loading x87 state alone (R81, R105). -/

namespace Sys2Proof.Machine

/-- R81: in 64-bit mode the bit W makes no difference to what has an encoding. -/
theorem wellFormed_xrstors64_eq {s : State} (h : s.mode = .bits64) (ps : List Prefix) (r : Rex) (m : Mem) :
    (Instr.xrstors64 ps r m).wellFormed (codeCtx s) = (Instr.xrstors ps (some r) m).wellFormed (codeCtx s) := by
  have hctx : (codeCtx s).bits64 = true := by simp [codeCtx, h]
  simp only [Instr.wellFormed, formExists, hctx]
  rfl

/-- R105: where component 0 is not loaded, W makes no difference to the commit. -/
theorem commit_of_not_loaded {s : State} {op : Operand} (h : (operandMasks s op).toBeRestored.getLsbD 0 = false)
    (w w' : Bool) : commit w op s = commit w' op s := by
  have hdraws (b : Bool) : component0Draws b (operandMasks s op) = 0 := by rw [component0Draws, h, Bool.and_false]; rfl
  simp only [commit, commitWith, component0_of_not_loaded h, hdraws]

/-- R105, D17: the commits of the two forms differ in FIP, FCS, FDP and FDS at most (`free` is the model's own). -/
theorem commit_forms (s : State) (op : Operand) :
    ∃ fip fcs fdp fds n, commit false op s =
      { commit true op s with
        x87 := { (commit true op s).x87 with fip := fip, fcs := fcs, fdp := fdp, fds := fds }, free := n } := by
  cases h : (operandMasks s op).toBeRestored.getLsbD 0 with
  | false => exact ⟨_, _, _, _, _, commit_of_not_loaded h false true⟩
  | true =>
    refine ⟨(loadX87 false s.free (areaOf s op)).fip, (loadX87 false s.free (areaOf s op)).fcs,
      (loadX87 false s.free (areaOf s op)).fdp, (loadX87 false s.free (areaOf s op)).fds,
      (commit false op s).free, ?_⟩
    simp only [commit, commitWith, component0_of_loaded h]
    rfl

/-- R132: what a fault leaves of the two forms differs in component 0 at most. -/
theorem faultLeft_commit_forms (s : State) (op : Operand) :
    ∃ x n, faultLeft s (commit false op s) =
      { faultLeft s (commit true op s) with x87 := x, free := n } := by
  unfold faultLeft
  split
  · exact ⟨s.x87, s.free, rfl⟩
  · exact ⟨_, _, rfl⟩

/-- The checks do not read W, so both forms pass the same ones: one lemma per outcome of XRSTORS_exec(1). -/
theorem xrstorsExec_forms_next {s t : State} {op : Operand} (h : xrstorsExec true op s = .next t) :
    ∃ fip fcs fdp fds n, xrstorsExec false op s =
      .next { t with x87 := { t.x87 with fip := fip, fcs := fcs, fdp := fdp, fds := fds }, free := n } := by
  obtain ⟨hearly, hlate, rfl⟩ := xrstorsExec_eq_next.mp h
  obtain ⟨fip, fcs, fdp, fds, n, hforms⟩ := commit_forms s op
  exact ⟨fip, fcs, fdp, fds, n, xrstorsExec_eq_next.mpr ⟨hearly, hlate, hforms.symm⟩⟩

theorem xrstorsExec_forms_fault {s left : State} {op : Operand} {r : ExcRecord}
    (h : xrstorsExec true op s = .fault (.exception r left)) :
    ∃ x n, xrstorsExec false op s = .fault (.exception r { left with x87 := x, free := n }) := by
  obtain ⟨e, rfl, ⟨hearly, rfl⟩ | ⟨hearly, hlate, rfl⟩⟩ := xrstorsExec_eq_fault.mp h
  · exact ⟨left.x87, left.free, xrstorsExec_eq_fault.mpr ⟨e, rfl, .inl ⟨hearly, rfl⟩⟩⟩
  · obtain ⟨x, n, hforms⟩ := faultLeft_commit_forms s op
    exact ⟨x, n, xrstorsExec_eq_fault.mpr ⟨e, rfl, .inr ⟨hearly, hlate, hforms.symm⟩⟩⟩

theorem xrstorsExec_forms_refused {s : State} {op : Operand} {why : Refusal}
    (h : xrstorsExec true op s = .refused why) : xrstorsExec false op s = .refused why :=
  xrstorsExec_eq_refused.mpr (xrstorsExec_eq_refused.mp h)

/-- Where component 0 is not loaded W makes no difference at all (R105). -/
theorem xrstorsExec_of_not_loaded {s : State} {op : Operand}
    (h : (operandMasks s op).toBeRestored.getLsbD 0 = false) (w w' : Bool) :
    xrstorsExec w op s = xrstorsExec w' op s := by
  unfold xrstorsExec
  rw [commit_of_not_loaded h w w']

end Sys2Proof.Machine

namespace Sys2Proof

open Sys2Proof.Machine

/-- Settles O31: the two forms have the same operand and pass the same checks, and their commits differ in component 0
alone. -/
theorem formsAgreeWithoutX87Load : Obligations.FormsAgreeWithoutX87Load := by
  intro ps r m s hmode
  have hsame := wellFormed_xrstors64_eq hmode ps r m
  cases hwf : (Instr.xrstors64 ps r m).wellFormed (codeCtx s) with
  | false =>
    rw [exec_of_not_wellFormed hwf, exec_of_not_wellFormed (hsame ▸ hwf)]
    exact ⟨fun _ => rfl, fun _ h => (nomatch h), fun _ _ h => (nomatch h), fun _ h => h⟩
  | true =>
    rw [exec_of_wellFormed hwf, exec_of_wellFormed (hsame ▸ hwf)]
    exact ⟨fun hload => xrstorsExec_of_not_loaded hload true false, fun _ h => xrstorsExec_forms_next h,
      fun _ _ h => xrstorsExec_forms_fault h, fun _ h => xrstorsExec_forms_refused h⟩

end Sys2Proof

/-! Proofs about the page's Operation: after its turns for components 0 to n-1 these are as the commit makes them and the
others as they were, so after its last turn the state is the commit's (40_xrstors.md section 0). -/

namespace Sys2Proof.Machine

/-! ### XINUSE bit by bit -/

theorem one_shiftLeft_bit (i : Nat) {c : Nat} (hc : c < 64) : ((1 : Word) <<< i).getLsbD c = decide (c = i) := by
  have hone : (1 : Word).getLsbD (c - i) = decide (c - i = 0) := BitVec.getLsbD_one.trans (by simp)
  rw [BitVec.getLsbD_shiftLeft, hone]
  by_cases hci : c = i
  · simp [hci, hci ▸ hc]
  · have : ¬ (i ≤ c ∧ c - i = 0) := by omega
    simpa [hc, hci] using this

/-- `v[i] <- b` writes bit i and no other. -/
theorem setBit_bit (v : Word) (i : Nat) (b : Bool) {c : Nat} (hc : c < 64) :
    (setBit v i b).getLsbD c = if c = i then b else v.getLsbD c := by
  have hbit := one_shiftLeft_bit i hc
  cases b with
  | false =>
    rw [setBit, if_neg Bool.false_ne_true, BitVec.getLsbD_and, BitVec.getLsbD_not, hbit]
    by_cases hci : c = i <;> simp [hc, hci]
  | true =>
    rw [setBit, if_pos rfl, BitVec.getLsbD_or, hbit]
    by_cases hci : c = i <;> simp [hc, hci]

/-- XINUSE with the bits below n written as the commit writes them. -/
def xinuseBelow (m : Masks) (x : Word) (n : Nat) : Word :=
  (x &&& ~~~BitVec.ofNat 64 (2 ^ n - 1)) ||| (xinuseAfter m x &&& BitVec.ofNat 64 (2 ^ n - 1))

theorem xinuseBelow_bit (m : Masks) (x : Word) {n c : Nat} (hc : c < 64) :
    (xinuseBelow m x n).getLsbD c = if c < n then (xinuseAfter m x).getLsbD c else x.getLsbD c := by
  have hlow : (BitVec.ofNat 64 (2 ^ n - 1)).getLsbD c = decide (c < n) := by
    rw [BitVec.getLsbD_ofNat, Nat.testBit_two_pow_sub_one, decide_eq_true hc, Bool.true_and]
  simp only [xinuseBelow, BitVec.getLsbD_or, BitVec.getLsbD_and, BitVec.getLsbD_not, hlow, hc, decide_true,
    Bool.true_and]
  split
  next h => simp [h]
  next h => simp [h]

theorem xinuseBelow_zero (m : Masks) (x : Word) : xinuseBelow m x 0 = x :=
  BitVec.eq_of_getLsbD_eq fun c hc => by rw [xinuseBelow_bit m x hc, if_neg (Nat.not_lt_zero c)]

/-- Bit 63 stands for no component, so the bits below 63 are all that the commit writes (D24). -/
theorem xinuseBelow_63 (m : Masks) (x : Word) : xinuseBelow m x 63 = xinuseAfter m x := by
  refine BitVec.eq_of_getLsbD_eq fun c hc => ?_
  rw [xinuseBelow_bit m x hc]
  split
  next => rfl
  next h =>
    obtain rfl : c = 63 := by omega
    rw [xinuseAfter_bit m x hc]
    simp

section Turn
variable {m : Masks} {n : Nat} (hn : n < 63) (x : Word)
include hn

/-- The next bit is written as component n is loaded, initialized or left alone (R30). -/
theorem xinuseBelow_succ :
    xinuseBelow m x (n + 1) =
      setBit (xinuseBelow m x n) n
        ((x.getLsbD n || m.toBeRestored.getLsbD n) && !m.toBeInitialized.getLsbD n) := by
  refine BitVec.eq_of_getLsbD_eq fun c hc => ?_
  rw [xinuseBelow_bit m x hc, setBit_bit _ _ _ hc, xinuseBelow_bit m x hc]
  rcases Nat.lt_trichotomy c n with h | rfl | h
  · rw [if_pos (by omega), if_neg (by omega), if_pos h]
  · rw [if_pos (by omega), if_pos rfl, xinuseAfter_bit m x hc]
    simp [hn.ne]
  · rw [if_neg (by omega), if_neg (by omega), if_neg (by omega)]

theorem xinuseBelow_succ_of_loaded (h : m.toBeRestored.getLsbD n = true)
    (hinit : m.toBeInitialized.getLsbD n = false) :
    xinuseBelow m x (n + 1) = setBit (xinuseBelow m x n) n true := by
  rw [xinuseBelow_succ hn, h, hinit, Bool.or_true]
  rfl

theorem xinuseBelow_succ_of_initialized (hinit : m.toBeInitialized.getLsbD n = true) :
    xinuseBelow m x (n + 1) = setBit (xinuseBelow m x n) n false := by
  rw [xinuseBelow_succ hn, hinit, Bool.not_true, Bool.and_false]

theorem xinuseBelow_succ_of_untouched (h : m.toBeRestored.getLsbD n = false)
    (hinit : m.toBeInitialized.getLsbD n = false) : xinuseBelow m x (n + 1) = xinuseBelow m x n := by
  rw [xinuseBelow_succ hn, h, hinit, Bool.or_false, Bool.not_false, Bool.and_true]
  refine BitVec.eq_of_getLsbD_eq fun c hc => ?_
  rw [setBit_bit _ _ _ hc]
  split
  next hcn => rw [hcn, xinuseBelow_bit m x (by omega), if_neg (Nat.lt_irrefl n)]
  next => rfl

end Turn

/-! ### Components 2..62 up to a bound -/

/-- Components 2..n-1 as the commit leaves them, the others as they were. -/
def extBelow (m : Masks) (f : Nat → Byte) (s : State) (n : Nat) : Vector (List Byte) 63 :=
  s.ext.mapIdx fun i old => if 2 ≤ i ∧ i < n then extComponent m f s i old else old

theorem extBelow_two (m : Masks) (f : Nat → Byte) (s : State) : extBelow m f s 2 = s.ext := by
  ext1 i hi
  rw [extBelow, Vector.getElem_mapIdx, if_neg (by omega)]

theorem extBelow_63 (m : Masks) (f : Nat → Byte) (s : State) : extBelow m f s 63 = extAll m f s := by
  ext1 i hi
  simp only [extBelow, extAll, Vector.getElem_mapIdx]
  by_cases h : i < 2
  · rw [if_neg (by omega), if_pos h]
  · rw [if_pos (by omega), if_neg h]

theorem extBelow_succ (m : Masks) (f : Nat → Byte) (s : State) {n : Nat} (h2 : 2 ≤ n) :
    extBelow m f s (n + 1) = (extBelow m f s n).setIfInBounds n (extComponent m f s n (scOf s n)) := by
  ext1 i hi
  simp only [extBelow, Vector.getElem_mapIdx, Vector.getElem_setIfInBounds]
  rcases Nat.lt_trichotomy i n with h | rfl | h
  · rw [if_neg h.ne']
    simp [h, Nat.lt_succ_of_lt h]
  · rw [if_pos ⟨h2, Nat.lt_succ_self _⟩, if_pos rfl, scOf, Vector.getElem?_eq_getElem hi]
    rfl
  · rw [if_neg (by omega), if_neg (by omega), if_neg (by omega)]

theorem extBelow_succ_of_untouched {m : Masks} {f : Nat → Byte} {s : State} {n : Nat}
    (h : m.toBeRestored.getLsbD n = false) (hinit : m.toBeInitialized.getLsbD n = false) :
    extBelow m f s (n + 1) = extBelow m f s n := by
  ext1 i hi
  simp only [extBelow, Vector.getElem_mapIdx]
  by_cases hin : i = n
  · subst hin
    rw [extComponent_of_untouched f s _ h hinit, ite_self, ite_self]
  · simp only [show i < n + 1 ↔ i < n by omega]

/-! ### The page's turns -/

section TurnEquations
variable {m : Masks} {f : Nat → Byte} {i : Nat} (t : State) (off : Nat)

theorem operationTurn_of_loaded (hslot : m.format.getLsbD i = true) (h : m.toBeRestored.getLsbD i = true)
    (hinit : m.toBeInitialized.getLsbD i = false) :
    operationTurn m f i (t, off) =
      (setXinuse (setComponent t i ((List.range (compSize t.cfg i)).map fun k => f (off + k))) i true,
        if m.format.getLsbD i then off + compSize t.cfg i else off) := by
  simp [operationTurn, hslot, h, hinit]

theorem operationTurn_of_initialized (h : m.toBeRestored.getLsbD i = false)
    (hinit : m.toBeInitialized.getLsbD i = true) :
    operationTurn m f i (t, off) =
      (setXinuse (setComponent t i (compInit t.cfg i)) i false,
        if m.format.getLsbD i then off + compSize t.cfg i else off) := by
  cases hslot : m.format.getLsbD i <;> simp [operationTurn, hslot, h, hinit]

theorem operationTurn_of_untouched (h : m.toBeRestored.getLsbD i = false)
    (hinit : m.toBeInitialized.getLsbD i = false) :
    operationTurn m f i (t, off) = (t, if m.format.getLsbD i then off + compSize t.cfg i else off) := by
  cases hslot : m.format.getLsbD i <;> simp [operationTurn, hslot, h, hinit]

end TurnEquations

/-- The state after the page's turns for components 0..n-1, n at least 2. -/
def committedBelow (w : Bool) (m : Masks) (f : Nat → Byte) (s : State) (n : Nat) : State :=
  { s with
    x87 := component0 w m f s
    sse := component1 m f s
    ext := extBelow m f s n
    xinuse := xinuseBelow m s.xinuse n }

theorem committedBelow_succ_of_untouched {w : Bool} {m : Masks} {f : Nat → Byte} {s : State} {n : Nat} (hn : n < 63)
    (h : m.toBeRestored.getLsbD n = false) (hinit : m.toBeInitialized.getLsbD n = false) :
    committedBelow w m f s (n + 1) = committedBelow w m f s n := by
  rw [committedBelow, extBelow_succ_of_untouched h hinit, xinuseBelow_succ_of_untouched hn _ h hinit]
  rfl

section Turn
variable {w : Bool} {m : Masks} {f : Nat → Byte} {s : State} {n : Nat} (h2 : 2 ≤ n) (hn : n < 63)
  (hmode : s.mode = .bits64)
include h2 hn hmode

theorem committedBelow_succ_of_loaded (hslot : m.format.getLsbD n = true) (h : m.toBeRestored.getLsbD n = true)
    (hinit : m.toBeInitialized.getLsbD n = false) :
    committedBelow w m f s (n + 1) =
      setXinuse (setComponent (committedBelow w m f s n) n (slotBytes s.cfg m.format f n)) n true := by
  rw [committedBelow, extBelow_succ m f s h2, extComponent_of_loaded f s _ hslot h hinit,
    extUpdate_of_bits64 hmode, xinuseBelow_succ_of_loaded hn _ h hinit]
  rfl

theorem committedBelow_succ_of_initialized (h : m.toBeRestored.getLsbD n = false)
    (hinit : m.toBeInitialized.getLsbD n = true) :
    committedBelow w m f s (n + 1) =
      setXinuse (setComponent (committedBelow w m f s n) n (compInit s.cfg n)) n false := by
  rw [committedBelow, extBelow_succ m f s h2, extComponent_of_initialized f s _ h hinit,
    extUpdate_of_bits64 hmode, xinuseBelow_succ_of_initialized hn _ hinit]
  rfl

end Turn

/-- R43: without alignment the slot of component k + 2 starts where the walk stands, and the walk moves over it. -/
theorem walk_of_not_align {c : Cfg} (halign : ∀ d ∈ c.comps, d.align64 = false) (format : Word) (k : Nat) :
    offsetOf c format (k + 2) = nextFeatureOffset c format k ∧
      nextFeatureOffset c format (k + 1) =
        if format.getLsbD (k + 2) then nextFeatureOffset c format k + compSize c (k + 2)
        else nextFeatureOffset c format k := by
  have hnot := alignFor_of_not_align (not_align_of_forall halign (k + 2))
  exact ⟨hnot _, by rw [nextFeatureOffset, hnot]⟩

section Refinement
variable {w : Bool} {f : Nat → Byte} {s : State}

/-- The page's lines for component 0 (R87). -/
theorem operation0_eq (w : Bool) (f : Nat → Byte) (s : State) :
    operation0 w (masksOf s f) f s =
      { s with
        x87 := component0 w (masksOf s f) f s
        xinuse := xinuseBelow (masksOf s f) s.xinuse 1 } := by
  unfold operation0 component0
  split_ifs with hload hinit
  · rw [xinuseBelow_succ_of_loaded (n := 0) (by omega) _ hload
      (toBeInitialized_of_toBeRestored (by omega) hload), xinuseBelow_zero]
    rfl
  · rw [xinuseBelow_succ_of_initialized (n := 0) (by omega) _ hinit, xinuseBelow_zero]
    rfl
  · rw [xinuseBelow_succ_of_untouched (n := 0) (by omega) _ (Bool.eq_false_of_not_eq_true hload)
      (Bool.eq_false_of_not_eq_true hinit), xinuseBelow_zero]

/-- In 64-bit mode all the XMM registers are reached (R104). -/
theorem xmmUpdate_of_bits64 (h : s.mode = .bits64) (new : Nat → BitVec 128) : xmmUpdate s new = vector16 new := by
  simp [xmmUpdate, xmmReached, h]

/-- The page's lines for component 1 (R88). -/
theorem operation1_operation0_eq (hmode : s.mode = .bits64) :
    operation1 (masksOf s f) f (operation0 w (masksOf s f) f s) = committedBelow w (masksOf s f) f s 2 := by
  rw [operation0_eq, committedBelow, extBelow_two]
  unfold operation1 component1
  split_ifs with hload hinit
  · rw [xinuseBelow_succ_of_loaded (n := 1) (by omega) _ hload
      (toBeInitialized_of_toBeRestored (by omega) hload), loadSse, xmmUpdate_of_bits64 hmode]
    rfl
  · rw [xinuseBelow_succ_of_initialized (n := 1) (by omega) _ hinit, initSse, xmmUpdate_of_bits64 hmode]
    rfl
  · rw [xinuseBelow_succ_of_untouched (n := 1) (by omega) _ (Bool.eq_false_of_not_eq_true hload)
      (Bool.eq_false_of_not_eq_true hinit)]

/-- One turn of the page's loop writes component n and moves NEXT_FEATURE_OFFSET over its slot (R89). -/
theorem operationTurn_committedBelow (hmode : s.mode = .bits64) (halign : ∀ d ∈ s.cfg.comps, d.align64 = false)
    {k : Nat} (hk : k < 61) :
    operationTurn (masksOf s f) f (k + 2)
        (committedBelow w (masksOf s f) f s (k + 2), nextFeatureOffset s.cfg (masksOf s f).format k) =
      (committedBelow w (masksOf s f) f s (k + 3), nextFeatureOffset s.cfg (masksOf s f).format (k + 1)) := by
  obtain ⟨hoffset, hnext⟩ := walk_of_not_align halign (masksOf s f).format k
  rw [hnext]
  have h2 : 2 ≤ k + 2 := by omega
  have hn : k + 2 < 63 := by omega
  cases hload : (masksOf s f).toBeRestored.getLsbD (k + 2) with
  | true =>
    have hinit := toBeInitialized_of_toBeRestored (by omega) hload
    have hslot := format_of_toBeRestored hload
    rw [committedBelow_succ_of_loaded h2 hn hmode hslot hload hinit, slotBytes, hoffset,
      operationTurn_of_loaded _ _ hslot hload hinit]
    rfl
  | false =>
    cases hinit : (masksOf s f).toBeInitialized.getLsbD (k + 2) with
    | true =>
      rw [committedBelow_succ_of_initialized h2 hn hmode hload hinit,
        operationTurn_of_initialized _ _ hload hinit]
      rfl
    | false =>
      rw [committedBelow_succ_of_untouched hn hload hinit, operationTurn_of_untouched _ _ hload hinit]
      rfl

/-- The loop's first k turns. -/
theorem operationLoop_eq (hmode : s.mode = .bits64) (halign : ∀ d ∈ s.cfg.comps, d.align64 = false) {k : Nat}
    (hk : k ≤ 61) :
    operationLoop (masksOf s f) f k (committedBelow w (masksOf s f) f s 2, 576) =
      (committedBelow w (masksOf s f) f s (k + 2), nextFeatureOffset s.cfg (masksOf s f).format k) := by
  induction k with
  | zero => rfl
  | succ k ih =>
    rw [operationLoop, ih (by omega)]
    exact operationTurn_committedBelow hmode halign (by omega)

/-- The page's Operation is the commit, less pc and the model's own counter. -/
theorem operation_eq (hmode : s.mode = .bits64) (halign : ∀ d ∈ s.cfg.comps, d.align64 = false) (op : Operand) :
    operation w op.laxa f s =
      { commitWith w op (masksOf s f) f s with rip := s.rip, free := s.free } := by
  simp only [operation, operation1_operation0_eq hmode, operationLoop_eq hmode halign (le_refl 61)]
  rw [committedBelow, extBelow_63, xinuseBelow_63]
  rfl

end Refinement

end Sys2Proof.Machine

namespace Sys2Proof

open Sys2Proof.Machine

/-- Settles O30: the page's Operation is the commit, which moves RIP behind the instruction. -/
theorem executionRefinesThePagesOperation : Obligations.ExecutionRefinesThePagesOperation := by
  intro i s h hmode halign
  have hrip : (commit i.w (instrOperand s i) s).rip = s.rip + BitVec.ofNat 64 i.length := nextPc_of_bits64 hmode _
  refine ⟨(commit i.w (instrOperand s i) s).free, ?_⟩
  rw [exec_of_canComplete h, operation_eq hmode halign, ← hrip]
  rfl

end Sys2Proof

/-! Proofs about the faults: which check raises each exception, rank by rank (R121 to R131), what the record of a fault
says, and what a fault leaves (R132). -/

namespace Sys2Proof.Machine

/-! ### A fault is the first check that does not pass -/

/-- A condition in front raises its exception where it holds; else the checks behind it decide (R131). -/
theorem Check.first_cons_faultIf (c : Bool) (e : Exc) (t : List Check) :
    Check.first (.faultIf c e :: t) = if c = true then .fault e else Check.first t := by
  cases c <;> rfl

/-- What an instruction answers when it faults (R131, R132). -/
theorem exc_of_exec_eq_fault {i : Instr} {s left : State} {r : ExcRecord} (h : exec i s = .fault (.exception r left)) :
    ∃ e, r = ⟨e.vector, e.errorCode, pcOf s, e.address⟩ ∧
      (Check.first (launchChecks s (instrOperand s i) ++ earlyChecks s (instrOperand s i)) = .fault e ∨
        Check.first (lateChecks s (instrOperand s i)) = .fault e) := by
  cases hwf : i.wellFormed (codeCtx s) with
  | false =>
    rw [exec_of_not_wellFormed hwf] at h
    cases h
  | true =>
    rw [exec_of_wellFormed hwf] at h
    obtain ⟨e, hr, ⟨hearly, -⟩ | ⟨-, hlate, -⟩⟩ := xrstorsExec_eq_fault.mp h
    · exact ⟨e, hr, .inl hearly⟩
    · exact ⟨e, hr, .inr hlate⟩

/-! ### Ranks 1 to 5 -/

section Early
variable {i : Instr} {s : State} (hwf : i.wellFormed (codeCtx s) = true) (hlaunch : Launched s (instrOperand s i))
include hwf hlaunch

/-- Past the refused launches, a fault of ranks 1 to 7 is raised and leaves the state (R131, R132). -/
theorem exec_of_first_earlyChecks_eq_fault {e : Exc} (h : Check.first (earlyChecks s (instrOperand s i)) = .fault e) :
    exec i s = raise s e s := by
  rw [exec_of_wellFormed hwf]
  exact xrstorsExec_eq_fault.mpr ⟨e, rfl, .inl ⟨(first_launchChecks_append hlaunch _).trans h, rfl⟩⟩

/-- R136: with ranks 1 to 4 passed, a CPL other than 0 is what is reported. -/
theorem exec_of_notPrivileged (henabled : Enabled s (instrOperand s i)) (hcpl : cplOf s ≠ 0) :
    exec i s = raise s (excPrivilege s (instrOperand s i)) s := by
  have hpriv : notPrivileged s = true :=
    Bool.eq_true_of_not_eq_false fun h => hcpl ((notPrivileged_eq_false s).mp h)
  refine exec_of_first_earlyChecks_eq_fault hwf hlaunch ?_
  rw [first_earlyChecks_of_enabled henabled, Check.first_cons_faultIf, if_pos hpriv]

end Early

theorem instrOperand_lock (s : State) (i : Instr) : (instrOperand s i).lock = true ↔ .lock ∈ i.prefixes := by
  simp [instrOperand, operandOf, hasLock]

/-- Ranks 1 to 3 all report #UD, so it does not matter which of them is the first to hold (R121). -/
theorem first_earlyChecks_of_ud {s : State} {op : Operand}
    (h : s.cfg.cpuidXsave = false ∨ s.cfg.cpuidXss = false ∨ cr4Osxsave s = false ∨ op.lock = true) :
    Check.first (earlyChecks s op) = .fault excUd := by
  rcases h with h | h | h | h <;> simp [earlyChecks, Check.first_cons_faultIf, h]

/-- Rank 4, with ranks 1 to 3 passed (R122). -/
theorem first_earlyChecks_of_ts {s : State} {op : Operand} (hxsave : s.cfg.cpuidXsave = true)
    (hxss : s.cfg.cpuidXss = true) (hosxsave : cr4Osxsave s = true) (hlock : op.lock = false) (hts : cr0Ts s = true) :
    Check.first (earlyChecks s op) = .fault excNm := by
  simp [earlyChecks, Check.first_cons_faultIf, hxsave, hxss, hosxsave, hlock, hts]

/-- R18: in virtual-8086 mode the CPL is 3. -/
theorem cplOf_of_virtual8086 {s : State} (h : s.mode = .virtual8086) : cplOf s = 3 := by
  simp [cplOf, h]

/-- R18: the CPL field holds in the modes that are neither real-address nor virtual-8086 mode. -/
theorem cplOf_eq_cpl {s : State} (hreal : s.mode ≠ .real) (hv86 : s.mode ≠ .virtual8086) : cplOf s = s.cpl := by
  unfold cplOf
  split <;> first | contradiction | rfl

/-- R23, the three conditions of alignment checking. -/
theorem acEnabled_eq_true (s : State) :
    acEnabled s = true ↔ s.cr0.getLsbD 18 = true ∧ s.rflags.getLsbD 18 = true ∧ cplOf s = 3 := by
  simp only [acEnabled, cr0Am, eflagsAc, Bool.and_eq_true, beq_iff_eq, and_assoc]

theorem raise_excGp_of_not_real {s : State} (h : s.mode ≠ .real) :
    raise s (excGp s) s = faultsWith s .gp (some 0) := by
  rw [raise_excGp, if_neg h]

theorem excPrivilege_of_not_acEnabled {s : State} (h : acEnabled s = false) (op : Operand) :
    excPrivilege s op = excGp s := by
  simp [excPrivilege, h]

/-- R128: AC_BEHAVIOUR names the exception only of a misaligned operand in range. -/
theorem excPrivilege_of_acEnabled {s : State} (h : acEnabled s = true) {op : Operand}
    (hmis : op.laxa.toNat % 64 ≠ 0) (hrange : ∀ k < 576, OffsetInRange s op k) :
    excPrivilege s op = excMisaligned s := by
  have hmis' : misaligned op = true := Bool.eq_true_of_not_eq_false fun h => hmis ((misaligned_eq_false op).mp h)
  rw [excPrivilege, h, hmis', (rangeCheck_eq_pass (by omega)).mpr hrange]
  rfl

theorem excPrivilege_of_aligned {s : State} {op : Operand} (h : op.laxa.toNat % 64 = 0) :
    excPrivilege s op = excGp s := by
  simp [excPrivilege, (misaligned_eq_false op).mpr h]

theorem excPrivilege_of_outside {s : State} {op : Operand} {k : Nat} (hk : k < 576) (hout : ¬ OffsetInRange s op k) :
    excPrivilege s op = excGp s := by
  have hcheck : rangeCheck s op 576 ≠ .pass := fun h => hout ((rangeCheck_eq_pass (by omega)).mp h k hk)
  simp [excPrivilege, hcheck]

theorem excMisaligned_of_gp {s : State} (h : s.cfg.acBehaviour = .gp) : excMisaligned s = excGp s := by
  simp [excMisaligned, h]

theorem excPrivilege_of_gp {s : State} (h : s.cfg.acBehaviour = .gp) (op : Operand) :
    excPrivilege s op = excGp s := by
  simp [excPrivilege, excMisaligned_of_gp h]

theorem excMisaligned_of_ac {s : State} (hac : acEnabled s = true) (h : s.cfg.acBehaviour = .ac) :
    excMisaligned s = excAc := by
  simp [excMisaligned, hac, h]

/-- R128: whatever the setting is, the name is one of the two. -/
theorem excMisaligned_eq (s : State) :
    excMisaligned s = excGp s ∨ acEnabled s = true ∧ excMisaligned s = excAc := by
  by_cases hac : acEnabled s = true
  · cases hname : s.cfg.acBehaviour with
    | gp => exact .inl (excMisaligned_of_gp hname)
    | ac => exact .inr ⟨hac, excMisaligned_of_ac hac hname⟩
    | either =>
      simp only [excMisaligned, hac, hname, if_true, true_and]
      exact (ite_eq_or_eq _ _ _).symm
  · exact .inl (if_neg hac)

/-! ### Ranks 8 to 10 -/

section Late
variable {i : Instr} {s : State} (hwf : i.wellFormed (codeCtx s) = true)
  (hearly : Check.first (launchChecks s (instrOperand s i) ++ earlyChecks s (instrOperand s i)) = .pass)
include hwf hearly

/-- With ranks 1 to 7 passed, a precise fault of ranks 8 to 12 is raised and leaves the state (R131, R132). -/
theorem exec_of_first_lateChecks_eq_fault (hprecise : s.cfg.faultAtomicity = .precise) {e : Exc}
    (h : Check.first (lateChecks s (instrOperand s i)) = .fault e) : exec i s = raise s e s := by
  rw [exec_of_wellFormed hwf]
  exact xrstorsExec_eq_fault.mpr ⟨e, rfl, .inr ⟨hearly, h, (faultLeft_precise _ _ hprecise).symm⟩⟩

theorem exec_of_first_lateChecks_eq_refuse {r : Refusal}
    (h : Check.first (lateChecks s (instrOperand s i)) = .refuse r) : exec i s = .refused r := by
  rw [exec_of_wellFormed hwf]
  exact xrstorsExec_eq_refused.mpr (.inr ⟨hearly, h⟩)

end Late

/-- Rank 8 is the first of the late ones: a header that cannot be read decides (R131). -/
theorem first_lateChecks_of_header_fault {s : State} {op : Operand} {e : Exc}
    (h : readCheck s op.laxa 512 64 = .fault e) : Check.first (lateChecks s op) = .fault e := by
  rw [lateChecks, h]
  rfl

theorem first_lateChecks_of_header_refuse {s : State} {op : Operand} {r : Refusal}
    (h : readCheck s op.laxa 512 64 = .refuse r) : Check.first (lateChecks s op) = .refuse r := by
  rw [lateChecks, h]
  rfl

/-- Rank 9: with the header readable, an illegal one raises #GP (R130). -/
theorem first_lateChecks_of_illegal_header {s : State} {op : Operand}
    (hread : ∀ k, 512 ≤ k → k < 576 → ByteReadable s op k) (h : ¬ HeaderLegal s (areaOf s op)) :
    Check.first (lateChecks s op) = .fault (excGp s) := by
  have hfails : headerFails s (areaOf s op) = true :=
    Bool.eq_true_of_not_eq_false fun hf => h ((headerFails_eq_false _ _).mp hf)
  rw [lateChecks, Check.first_cons_pass (readCheck_header.mpr hread), Check.first_cons_faultIf, if_pos hfails]

/-- Rank 10, the range: with the header readable and legal, an offset of the area out of range is reported (R57). -/
theorem first_lateChecks_of_outside {s : State} {op : Operand}
    (hread : ∀ k, 512 ≤ k → k < 576 → ByteReadable s op k) (hlegal : HeaderLegal s (areaOf s op))
    (hseg : ¬ UnusableSegment s op) {k : Nat} (hk : k < operandAreaSize s op) (hout : ¬ OffsetInRange s op k) :
    Check.first (lateChecks s op) = .fault (excOutside s op.seg) := by
  rw [lateChecks, Check.first_cons_pass (readCheck_header.mpr hread),
    Check.first_cons_pass ((Check.faultIf_eq_pass _ _).mpr ((headerFails_eq_false _ _).mpr hlegal)),
    rangeCheck_of_outside hseg hk hout]
  rfl

/-- An operand of which one offset is in range has a usable segment (R48). -/
theorem not_unusableSegment_of_offsetInRange {s : State} {op : Operand} {k : Nat} (h : OffsetInRange s op k) :
    ¬ UnusableSegment s op := by
  rintro ⟨hmode | hmode, hseg⟩ <;> simp_all [OffsetInRange]

/-- Bit c of the check mask under each of its two settings (R130, C1, D4). -/
theorem checkMaskOf_bit_of_xcr0OrXss {s : State} (h : s.cfg.xcompCheckMask = .xcr0OrXss) (c : Nat) :
    (checkMaskOf s).getLsbD c = (s.xcr0.getLsbD c || s.ia32Xss.getLsbD c) := by
  simp [checkMaskOf, h]

theorem checkMaskOf_of_xcr0Only {s : State} (h : s.cfg.xcompCheckMask = .xcr0Only) : checkMaskOf s = s.xcr0 := by
  simp [checkMaskOf, h]

/-- D25: where the premise holds no component is enabled in both XCR0 and IA32_XSS. -/
theorem xcr0_bit_of_ia32Xss {s : State} (h : xcrPremise s = true) {c : Nat} (hc : s.ia32Xss.getLsbD c = true) :
    s.xcr0.getLsbD c = false := by
  have hdisjoint : s.xcr0 &&& s.ia32Xss = 0 := by
    by_contra hne
    simpa [h] using (xcrPremise_broken_iff s).mpr (.inl hne)
  have hbit := congrArg (fun v => v.getLsbD c) hdisjoint
  simpa [hc] using hbit

/-! ### What a partial fault leaves -/

/-- R90: a component that RFBM does not select is neither loaded nor initialized, be the header legal or not. -/
theorem masksOf_bits_of_not_selected {s : State} {f : Nat → Byte} {c : Nat} (hc : c < 64)
    (h : (rfbmOf s).getLsbD c = false) :
    (masksOf s f).toBeRestored.getLsbD c = false ∧ (masksOf s f).toBeInitialized.getLsbD c = false := by
  rw [masksOf_toBeRestored_bit, masksOf_toBeInitialized_bit s f hc, h]
  exact ⟨rfl, rfl⟩

section NotSelected
variable (w : Bool) {s : State} (i : Instr)

theorem commit_x87_of_not_selected (h : (rfbmOf s).getLsbD 0 = false) :
    (commit w (instrOperand s i) s).x87 = s.x87 := by
  obtain ⟨hload, hinit⟩ := masksOf_bits_of_not_selected (f := instrArea s i) (by omega) h
  rw [commit_eq_commitWith, commitWith_x87, component0, hload, hinit]
  rfl

theorem commit_sse_of_not_selected (h : (rfbmOf s).getLsbD 1 = false) :
    (commit w (instrOperand s i) s).sse = s.sse := by
  obtain ⟨hload, hinit⟩ := masksOf_bits_of_not_selected (f := instrArea s i) (by omega) h
  rw [commit_eq_commitWith, commitWith_sse, component1, hload, hinit]
  rfl

theorem scOf_commit_of_not_selected {c : Nat} (h2 : 2 ≤ c) (hc : c < 63) (h : (rfbmOf s).getLsbD c = false) :
    scOf (commit w (instrOperand s i) s) c = scOf s c := by
  obtain ⟨hload, hinit⟩ := masksOf_bits_of_not_selected (f := instrArea s i) (by omega) h
  rw [commit_eq_commitWith, scOf_commitWith _ _ _ _ _ h2 hc, extComponent_of_untouched _ _ _ hload hinit]

theorem commit_xinuse_of_not_selected {c : Nat} (hc : c < 64) (h : (rfbmOf s).getLsbD c = false) :
    (commit w (instrOperand s i) s).xinuse.getLsbD c = s.xinuse.getLsbD c := by
  rw [commit_xinuse, xinuseAfter_instrMasks_bit s i _ hc, h, Bool.false_and, if_neg Bool.false_ne_true]

end NotSelected

/-- An item that a free choice renews is old, or new and selected, where an unselected one has nothing new. -/
theorem old_or_selected_new {α : Type} {sel renewed : Bool} {item old new : α}
    (h : item = if renewed = true then new else old) (hsame : sel = false → new = old) :
    item = old ∨ sel = true ∧ item = new := by
  cases renewed with
  | false => exact .inl h
  | true =>
    cases sel with
    | false => exact .inl (h.trans (hsame rfl))
    | true => exact .inr ⟨rfl, h⟩

section PerItem
variable {s : State} (h : s.cfg.faultAtomicity = .perItem) (new : State)
include h

/-! R132: a free choice per item says whether a partial fault has renewed it (log 23). -/

theorem faultLeft_x87 :
    (faultLeft s new).x87 = if Config.freeItemIsNew s.free 0 = true then new.x87 else s.x87 := by
  simp only [faultLeft, h]

theorem faultLeft_sse :
    (faultLeft s new).sse = if Config.freeItemIsNew s.free 1 = true then new.sse else s.sse := by
  simp only [faultLeft, h]

theorem scOf_faultLeft {c : Nat} (hc : c < 63) :
    scOf (faultLeft s new) c = if Config.freeItemIsNew s.free c = true then scOf new c else scOf s c := by
  simp only [faultLeft, h, scOf, Vector.getElem?_eq_getElem hc, Vector.getElem_mapIdx, Option.getD_some]

theorem faultLeft_xinuse_bit {c : Nat} (hc : c < 64) :
    (faultLeft s new).xinuse.getLsbD c =
      if (freeBits s.free).getLsbD c = true then new.xinuse.getLsbD c else s.xinuse.getLsbD c := by
  simp only [faultLeft, h, BitVec.getLsbD_or, BitVec.getLsbD_and, BitVec.getLsbD_not, hc, decide_true, Bool.true_and]
  cases (freeBits s.free).getLsbD c <;> simp

theorem faultLeft_xmodifiedBv :
    (faultLeft s new).xmodifiedBv =
      if Config.freeItemIsNew s.free 128 = true then new.xmodifiedBv else s.xmodifiedBv := by
  simp only [faultLeft, h]

theorem faultLeft_xrstorInfo :
    (faultLeft s new).xrstorInfo =
      if Config.freeItemIsNew s.free 129 = true then new.xrstorInfo else s.xrstorInfo := by
  simp only [faultLeft, h]

end PerItem

/-! ### The exceptions that can be raised -/

/-- The exceptions XRSTORS can raise in `s`: real-address mode has only the first three (R120, R125). -/
def Raisable (s : State) (e : Exc) : Prop :=
  e = excUd ∨ e = excNm ∨ e = excGp s ∨
    s.mode ≠ .real ∧ (e = excSs ∨ e = excAc ∨ ∃ code la, e = excPf code la)

theorem raisable_excGp (s : State) : Raisable s (excGp s) := .inr (.inr (.inl rfl))

theorem raisable_excOutside (s : State) (r : SegReg) : Raisable s (excOutside s r) := by
  unfold excOutside
  split_ifs with h
  · exact .inr (.inr (.inr ⟨h.1, .inl rfl⟩))
  · exact raisable_excGp s

/-- R23, R128: #AC needs CPL = 3, which real-address mode does not have. -/
theorem raisable_excMisaligned (s : State) : Raisable s (excMisaligned s) := by
  obtain h | ⟨hac, h⟩ := excMisaligned_eq s
  · exact h ▸ raisable_excGp s
  · have hreal : s.mode ≠ .real := fun hmode => by
      simpa [cplOf, hmode] using ((acEnabled_eq_true s).mp hac).2.2
    exact .inr (.inr (.inr ⟨hreal, .inr (.inl h)⟩))

theorem raisable_excPrivilege (s : State) (op : Operand) : Raisable s (excPrivilege s op) := by
  unfold excPrivilege
  split_ifs
  · exact raisable_excMisaligned s
  · exact raisable_excGp s

theorem raisable_of_rangeCheck {s : State} {op : Operand} {len : Nat} {e : Exc}
    (h : rangeCheck s op len = .fault e) : Raisable s e := by
  by_cases hseg : UnusableSegment s op
  · rw [rangeCheck_of_unusableSegment hseg, Check.fault.injEq] at h
    exact h ▸ raisable_excGp s
  · rw [eq_excOutside_of_rangeCheck_eq_fault hseg h]
    exact raisable_excOutside s op.seg

/-- R49: without paging no byte page-faults. -/
theorem pagingApplies_of_areaRead {s : State} {la : Word} {k : Nat} {code : ErrorCode}
    (h : areaRead s la k = .pageFault code) : pagingApplies s = true := by
  by_contra hoff
  unfold areaRead readLinear translate at h
  rw [if_neg hoff] at h
  dsimp only at h
  split_ifs at h

theorem raisable_of_readCheck {s : State} {la : Word} {lo len : Nat} {e : Exc}
    (h : readCheck s la lo len = .fault e) : Raisable s e := by
  obtain ⟨k, -, code, hread, he⟩ := readCheck_eq_fault h
  have hreal : s.mode ≠ .real := fun hmode => by
    simpa [pagingApplies, hmode] using pagingApplies_of_areaRead hread
  exact .inr (.inr (.inr ⟨hreal, .inr (.inr ⟨code, _, he⟩)⟩))

/-- Ranks 1 to 7 raise nothing else. -/
theorem raisable_of_early {s : State} {op : Operand} {e : Exc}
    (h : Check.first (launchChecks s op ++ earlyChecks s op) = .fault e) : Raisable s e := by
  have hmem := Check.mem_of_first_eq_fault h
  simp only [launchChecks, earlyChecks, List.mem_append, List.mem_cons, List.not_mem_nil, or_false,
    eq_comm (a := Check.fault e), Check.refuseIf_ne_fault, false_or, Check.faultIf_eq_fault] at hmem
  obtain ⟨-, rfl⟩ | ⟨-, rfl⟩ | ⟨-, rfl⟩ | ⟨-, rfl⟩ | ⟨-, rfl⟩ | hrange | ⟨-, rfl⟩ := hmem
  · exact .inl rfl
  · exact .inl rfl
  · exact .inl rfl
  · exact .inr (.inl rfl)
  · exact raisable_excPrivilege s op
  · exact raisable_of_rangeCheck hrange
  · exact raisable_excMisaligned s

/-- Nor do ranks 8 to 12. -/
theorem raisable_of_late {s : State} {op : Operand} {e : Exc} (h : Check.first (lateChecks s op) = .fault e) :
    Raisable s e := by
  have hmem := Check.mem_of_first_eq_fault h
  simp only [lateChecks, List.mem_cons, List.not_mem_nil, or_false, eq_comm (a := Check.fault e),
    Check.faultIf_eq_fault] at hmem
  obtain hread | ⟨-, rfl⟩ | hrange | hread | ⟨-, rfl⟩ | ⟨-, rfl⟩ := hmem
  · exact raisable_of_readCheck hread
  · exact raisable_excGp s
  · exact raisable_of_rangeCheck hrange
  · exact raisable_of_readCheck hread
  · exact raisable_excGp s
  · exact raisable_excGp s

end Sys2Proof.Machine

namespace Sys2Proof

open Sys2Proof.Machine

/-- Settles O34: ranks 1 to 3 are in front of all others, and no mode enters them. -/
theorem undefinedOpcodeCauses : Obligations.UndefinedOpcodeCauses := by
  intro i s hwf hlaunch hcause
  rw [← instrOperand_lock s i] at hcause
  exact exec_of_first_earlyChecks_eq_fault hwf hlaunch (first_earlyChecks_of_ud hcause)

/-- Settles O35: rank 4 is the next. -/
theorem deviceNotAvailableWhenTaskSwitched : Obligations.DeviceNotAvailableWhenTaskSwitched := by
  intro i s hwf hlaunch hxsave hxss hosxsave hlock hts
  have hlock' : (instrOperand s i).lock = false :=
    Bool.eq_false_of_not_eq_true (mt (instrOperand_lock s i).mp hlock)
  exact exec_of_first_earlyChecks_eq_fault hwf hlaunch (first_earlyChecks_of_ts hxsave hxss hosxsave hlock' hts)

/-- Settles O36: rank 5, whose exception is #GP where alignment checking is off. -/
theorem notPrivilegedRaisesGp : Obligations.NotPrivilegedRaisesGp := by
  intro i s hwf hlaunch henabled hreal hcpl hoff
  have hcpl0 : cplOf s ≠ 0 := by
    by_cases hv86 : s.mode = .virtual8086
    · simp [cplOf_of_virtual8086 hv86]
    · rw [cplOf_eq_cpl hreal hv86]
      exact hcpl.resolve_left hv86
  have hac : acEnabled s = false := by
    refine Bool.eq_false_of_not_eq_true fun hac => ?_
    obtain ⟨ham, hflag, hcpl3⟩ := (acEnabled_eq_true s).mp hac
    obtain h | h | ⟨hv86, h3⟩ := hoff
    · exact absurd ham (ne_true_of_eq_false h)
    · exact absurd hflag (ne_true_of_eq_false h)
    · exact h3 (cplOf_eq_cpl hreal hv86 ▸ hcpl3)
  rw [exec_of_notPrivileged hwf hlaunch henabled hcpl0, excPrivilege_of_not_acEnabled hac,
    raise_excGp_of_not_real hreal]

/-- Settles O37: rank 5 again, with the name AC_BEHAVIOUR gives a misaligned operand in range. -/
theorem alignmentCheckNamesTheFault : Obligations.AlignmentCheckNamesTheFault := by
  intro i s hwf hlaunch henabled ham hflag hmode
  have hreal : s.mode ≠ .real := by
    rcases hmode with h | h
    · simp [h]
    · exact h.1
  have hcpl : cplOf s = 3 := by
    by_cases hv86 : s.mode = .virtual8086
    · exact cplOf_of_virtual8086 hv86
    · rw [cplOf_eq_cpl hreal hv86]
      exact (hmode.resolve_left hv86).2
  have hac : acEnabled s = true := (acEnabled_eq_true s).mpr ⟨ham, hflag, hcpl⟩
  have hexec : exec i s = raise s (excPrivilege s (instrOperand s i)) s :=
    exec_of_notPrivileged hwf hlaunch henabled (by simp [hcpl])
  refine ⟨fun hgp => ?_, fun hmis hrange => ?_⟩
  · have hname : excPrivilege s (instrOperand s i) = excGp s := by
      obtain h | h | ⟨k, hk, hout⟩ := hgp
      · exact excPrivilege_of_gp h _
      · exact excPrivilege_of_aligned h
      · exact excPrivilege_of_outside hk hout
    rw [hexec, hname, raise_excGp_of_not_real hreal]
  · rw [hexec, excPrivilege_of_acEnabled hac hmis hrange]
    refine ⟨fun h => by rw [excMisaligned_of_ac hac h]; rfl, fun _ => ?_⟩
    obtain h | ⟨-, h⟩ := excMisaligned_eq s
    · exact .inr (by rw [h, raise_excGp_of_not_real hreal])
    · exact .inl (by rw [h]; rfl)

/-- Settles O38: the CPL is 3, so rank 5 is never passed. -/
theorem neverCompletesInVirtual8086Mode : Obligations.NeverCompletesInVirtual8086Mode := by
  refine fun i s hmode => ⟨fun t hnext => ?_, fun hwf hlaunch henabled hoff => ?_⟩
  · obtain ⟨-, hearly, -, -⟩ := exec_eq_next.mp hnext
    obtain ⟨-, -, hcpl, -, -⟩ := first_early_eq_pass.mp hearly
    simp [cplOf_of_virtual8086 hmode] at hcpl
  · exact notPrivilegedRaisesGp i s hwf hlaunch henabled (by simp [hmode]) (.inl hmode) (hoff.imp_right .inl)

/-- Settles O43: with ranks 1 to 7 passed, the read of the header is what answers. -/
theorem unreadableHeader : Obligations.UnreadableHeader := by
  intro i s hwf hlaunch henabled hcpl hrange halign
  have hearly := first_early_eq_pass.mpr ⟨hlaunch, henabled, hcpl, hrange, halign⟩
  refine ⟨fun hprecise ⟨k, hlo, hhi, code, hfault⟩ => ?_, fun hnone ⟨k, hlo, hhi, hdevice⟩ => ?_⟩
  · obtain ⟨j, hj, code, hpf, hcheck⟩ := readCheck_of_pageFault (lo := 512) (len := 64) (k := k - 512) (by omega)
      (by rwa [show 512 + (k - 512) = k by omega])
    exact ⟨512 + j, code, by omega, by omega, hpf,
      exec_of_first_lateChecks_eq_fault hwf hearly hprecise (first_lateChecks_of_header_fault hcheck)⟩
  · refine exec_of_first_lateChecks_eq_refuse hwf hearly (first_lateChecks_of_header_refuse ?_)
    exact readCheck_eq_refuse.mpr ⟨fun j hj => hnone (512 + j) (by omega) (by omega),
      ⟨k - 512, by omega, by rwa [show 512 + (k - 512) = k by omega]⟩, rfl⟩

/-- Settles O44: each of the four is what a legal header rules out, and rank 9 does not look at RFBM. -/
theorem illegalHeaderFaults : Obligations.IllegalHeaderFaults := by
  intro i s hwf hlaunch henabled hcpl hrange halign hread hprecise f hcause
  have hearly := first_early_eq_pass.mpr ⟨hlaunch, henabled, hcpl, hrange, halign⟩
  have hillegal : ¬ HeaderLegal s f := by
    intro h
    obtain h1 | ⟨c, hc, hslot, hmask⟩ | ⟨c, hc, hsaved, hslot⟩ | ⟨k, hk, hbyte⟩ := hcause
    · exact absurd h.compacted (ne_true_of_eq_false h1)
    · exact absurd (h.slotsEnabled c hc hslot) (ne_true_of_eq_false hmask)
    · exact absurd (h.savedHaveSlots c hc hsaved) (ne_true_of_eq_false hslot)
    · exact hbyte (h.reservedZero k hk)
  rw [exec_of_first_lateChecks_eq_fault hwf hearly hprecise (first_lateChecks_of_illegal_header hread hillegal),
    raise_excGp]

/-- Settles O45: of a completed execution the slot's component is in the check mask, so in XCR0, which the launch
premise keeps apart from IA32_XSS. -/
theorem literalCheckMaskForbidsSupervisorSlots : Obligations.LiteralCheckMaskForbidsSupervisorSlots := by
  refine ⟨fun s c _ => ⟨fun h => checkMaskOf_bit_of_xcr0OrXss h c, fun h => by rw [checkMaskOf_of_xcr0Only h]⟩,
    fun i s c hc hmask hslot hxss t hnext => ?_⟩
  obtain ⟨-, hearly, hlate, -⟩ := exec_eq_next.mp hnext
  obtain ⟨hlaunch, -⟩ := first_early_eq_pass.mp hearly
  obtain ⟨-, hlegal, -⟩ := first_late_eq_pass.mp hlate
  have hxcr0 : (checkMaskOf s).getLsbD c = true := hlegal.slotsEnabled c hc hslot
  rw [checkMaskOf_of_xcr0Only hmask, xcr0_bit_of_ia32Xss hlaunch.premise hxss] at hxcr0
  cases hxcr0

/-- Settles O46: rank 10's range check is the next after a legal header; in real-address mode the last offset of a
longer area is out of range. -/
theorem areaOutsideItsRangeFaults : Obligations.AreaOutsideItsRangeFaults := by
  intro i s hwf hlaunch henabled hcpl hrange halign hread hlegal hprecise
  have hsize : 576 ≤ operandAreaSize s (instrOperand s i) := le_areaSize _ _
  have hearly := first_early_eq_pass.mpr ⟨hlaunch, henabled, hcpl, hrange, halign⟩
  have hseg := not_unusableSegment_of_offsetInRange (hrange 0 (by omega))
  have houtside {k : Nat} (hk : k < operandAreaSize s (instrOperand s i))
      (hout : ¬ OffsetInRange s (instrOperand s i) k) :=
    (exec_of_first_lateChecks_eq_fault hwf hearly hprecise
      (first_lateChecks_of_outside hread hlegal hseg hk hout)).trans (raise_excOutside s _)
  refine ⟨fun ⟨k, hk, hout⟩ => houtside hk hout, fun hreal hextent => ?_⟩
  have hout : ¬ OffsetInRange s (instrOperand s i) (operandAreaSize s (instrOperand s i) - 1) := by
    simp only [OffsetInRange, hreal]
    omega
  rw [houtside (by omega) hout, if_pos hreal]

/-- Settles O49: a precise fault leaves the state, and each record is made with its pc. -/
theorem preciseFaultsWriteNothing : Obligations.PreciseFaultsWriteNothing := by
  intro i s r left hprecise h
  obtain ⟨e, hr, -⟩ := exc_of_exec_eq_fault h
  refine ⟨?_, by rw [hr]⟩
  rcases left_of_exec_eq_fault h with hleft | hleft
  · exact hleft
  · rw [hleft, faultLeft_precise _ _ hprecise]

/-- Settles O50: what a fault leaves, item by item, where the new value of an unselected item is the old one. -/
theorem partialFaultsLeaveOldOrNewItems : Obligations.PartialFaultsLeaveOldOrNewItems := by
  intro i s r left hperItem h new
  rcases left_of_exec_eq_fault h with rfl | rfl
  · simp
  · refine ⟨faultLeft_gpr _ _, faultLeft_rip _ _, faultLeft_rflags _ _, faultLeft_mem _ _, faultLeft_cr0 _ _,
      faultLeft_cr4 _ _, faultLeft_xcr0 _ _, faultLeft_ia32Xss _ _, faultLeft_mode _ _,
      old_or_selected_new (faultLeft_x87 hperItem new) (commit_x87_of_not_selected i.w i),
      old_or_selected_new (faultLeft_sse hperItem new) (commit_sse_of_not_selected i.w i),
      fun c h2 hc => old_or_selected_new (scOf_faultLeft hperItem new hc)
        (scOf_commit_of_not_selected i.w i h2 hc),
      fun c hc => old_or_selected_new (faultLeft_xinuse_bit hperItem new hc)
        (commit_xinuse_of_not_selected i.w i hc), ?_, ?_⟩
    · rw [faultLeft_xmodifiedBv hperItem]
      exact (ite_eq_or_eq _ _ _).symm
    · rw [faultLeft_xrstorInfo hperItem]
      exact (ite_eq_or_eq _ _ _).symm

/-- Settles O51: each exception that can be raised has its shape. -/
theorem faultRecordsHaveTheirShape : Obligations.FaultRecordsHaveTheirShape := by
  intro i s r left h
  obtain ⟨e, rfl, hfirst⟩ := exc_of_exec_eq_fault h
  have hraised : Raisable s e := hfirst.elim raisable_of_early raisable_of_late
  obtain rfl | rfl | rfl | ⟨hreal, rfl | rfl | ⟨code, la, rfl⟩⟩ := hraised
  · simp [excUd]
  · simp [excNm]
  · simp [excGp]
  · simp [excSs, hreal]
  · simp [excAc, hreal]
  · simp [excPf, hreal]

end Sys2Proof

/-! Proofs about completion and reset: R151's preconditions are necessary too, what a well-formed instruction can be
refused for, and the launch after reset. -/

namespace Sys2Proof.Machine

/-! ### An instruction completes only where R151's preconditions hold -/

/-- R151: the instruction that answers a next state has passed every check, and the checks that pass are the
preconditions. The converse of `exec_of_canComplete`. -/
theorem canComplete_of_exec_eq_next {i : Instr} {s t : State} (h : exec i s = .next t) : CanComplete s i := by
  obtain ⟨hwf, hearly, hlate, -⟩ := exec_eq_next.mp h
  obtain ⟨hlaunch, henabled, hcpl, -, halign⟩ := first_early_eq_pass.mp hearly
  obtain ⟨-, hlegal, hrange, hread, hmxcsr, hcontent⟩ := first_late_eq_pass.mp hlate
  exact ⟨hwf,
    { launched := hlaunch
      enabled := henabled
      privileged := hcpl
      aligned := halign
      inRange := hrange
      readable := hread
      header := hlegal
      mxcsr := mxcsrIllegal_eq_false.mp hmxcsr
      content := loadFaults_eq_false.mp hcontent }⟩

/-! ### What the checks refuse -/

/-- The launch checks and ranks 1 to 7 refuse only what the launch checks name (R82 step 0, R140, D25, D7). -/
theorem refusal_of_early {s : State} {op : Operand} {r : Refusal}
    (h : Check.first (launchChecks s op ++ earlyChecks s op) = .refuse r) :
    r = .vmxNonRoot ∨ r = .debugArmed ∨ r = .xcrPremise ∨ r = .segmentBase := by
  rcases List.mem_append.mp (Check.mem_of_first_eq_refuse h) with hmem | hmem
  · simp only [launchChecks, List.mem_cons, List.not_mem_nil, or_false, @eq_comm _ (Check.refuse r),
      Check.refuseIf_eq_refuse] at hmem
    rcases hmem with ⟨-, rfl⟩ | ⟨-, rfl⟩ | ⟨-, rfl⟩ | ⟨-, rfl⟩ <;> simp
  · simp [earlyChecks, @eq_comm _ (Check.refuse r), rangeCheck_ne_refuse] at hmem

/-- Ranks 8 to 12 refuse only a byte in memory-mapped I/O (R50; log 22). -/
theorem refusal_of_late {s : State} {op : Operand} {r : Refusal} (h : Check.first (lateChecks s op) = .refuse r) :
    r = .deviceMemory := by
  have hmem := Check.mem_of_first_eq_refuse h
  simp only [lateChecks, List.mem_cons, List.not_mem_nil, or_false, @eq_comm _ (Check.refuse r),
    Check.faultIf_ne_refuse, rangeCheck_ne_refuse, readCheck_eq_refuse, false_or] at hmem
  rcases hmem with ⟨-, -, hr⟩ | ⟨-, -, hr⟩ <;> exact hr

/-- R64: an instruction is refused as not encodable exactly where it has no encoding in the present mode (log 36). -/
theorem exec_eq_refused_notEncodable {i : Instr} {s : State} :
    exec i s = .refused .notEncodable ↔ i.wellFormed (codeCtx s) = false := by
  refine ⟨fun h => Bool.eq_false_of_not_eq_true fun hwf => ?_, exec_of_not_wellFormed⟩
  rw [exec_of_wellFormed hwf] at h
  rcases xrstorsExec_eq_refused.mp h with hearly | ⟨-, hlate⟩
  · simpa using refusal_of_early hearly
  · simpa using refusal_of_late hlate

/-! ### The launch after reset -/

/-- After reset every segment base is a multiple of 64 (R34; log 4). -/
theorem segBase_reset (r : SegReg) : (segBase State.reset r).toNat % 64 = 0 := by
  cases r <;> decide

/-- After reset no launch is refused: what follows of it is a matter of R131's ranks. -/
theorem launched_reset (op : Operand) : Launched State.reset op where
  notVmx := rfl
  notDebug := rfl
  notStep := by decide
  premise := resetMeetsTheInvariant.premise
  base := segBase_reset op.seg

end Sys2Proof.Machine

namespace Sys2Proof

open Sys2Proof.Machine

/-- Settles O16: the checks that an instruction passes when it completes are the preconditions, and the other way
round. -/
theorem completesExactlyWhenReady : Obligations.CompletesExactlyWhenReady :=
  fun _ _ => ⟨fun ⟨_, h⟩ => canComplete_of_exec_eq_next h, fun h => ⟨_, exec_of_canComplete h⟩⟩

/-- Settles O53: what the decoder accepts is well formed, and a well-formed instruction is refused for other reasons
only. -/
theorem stepRunsTheDecodedInstruction : Obligations.StepRunsTheDecodedInstruction := by
  intro s i rest hdec
  have hwf : i.wellFormed (codeCtx s) = true := (decodedBytesAreTheEncoding _ _ _ _ hdec).2
  refine ⟨step_of_decode hdec, hwf, fun hrefused => ?_⟩
  rw [exec_eq_refused_notEncodable.mp hrefused] at hwf
  cases hwf

/-- Settles O59: the launch after reset is not refused, and CR4.OSXSAVE = 0 is a cause of #UD. -/
theorem xrstorsRaisesUdAfterReset : Obligations.XrstorsRaisesUdAfterReset := by
  intro ps m hwf
  have hosxsave : cr4Osxsave State.reset = false := by decide
  exact undefinedOpcodeCauses (.xrstors ps none m) State.reset hwf (launched_reset _) (.inr (.inr (.inl hosxsave)))

end Sys2Proof
